-- ==== Sys2Proof/Word.lean ====
section
/-! DEFINITION. The word, byte and byte-sequence types (spec/00_scope.md R5, R6, R8). -/

namespace Sys2Proof

/-- A byte of external memory. -/
abbrev Byte := BitVec 8

/-- `WORD`: a Salsa word, a register, an address register (R5). Always unsigned (R6). -/
abbrev Word := BitVec 32

/-- A byte sequence, offset 0 first (R8). Blocks and SuperBlocks are byte sequences of 64 and
128 r bytes (R9). -/
abbrev Bytes := List Byte

end Sys2Proof
end

