-- ==== Sys2Proof/Config.lean ====
section
/-! DEFINITION. What is fixed for this hardware (spec/00_scope.md R5), its OPEN parameters, the hash
table of the host (spec/44_host_kdf.md R221), and the free values: constants with no body, which no
proof can evaluate. -/

namespace Sys2Proof

namespace Config

/-- Bytes of external memory: `ADDR_W` = 32 (R5, R60). -/
def memBytes : Nat := 4294967296

/-- `REG_WINDOW` (R5, R20). -/
def regWindow : Nat := 256

/-- `ID_VALUE` (R5, R22). -/
def idValue : Word := 0x53323038#32

/-- `BLOCK_BYTES` (R5). -/
def blockBytes : Nat := 64

/-- The double rounds of `ROUNDS` = 8 (R5, R147). -/
def doubleRounds : Nat := 4

/-- The largest `R_MAX` an implementation may have (R5). -/
def rMaxLimit : Nat := 33554432

end Config

/-- The OPEN parameters of R5 and R76: fixed for one machine, any value within R5's limits. They stand
in State as a field that no step changes, so that every statement holds for all of them. -/
structure Params where
  /-- `R_MAX` (R5, R30). -/
  rMax : Nat
  /-- `REG_BASE[e]`, one entry per engine (R76); its length is `NUM_ENGINES` (R272). -/
  regBase : List Nat
  deriving DecidableEq, Repr

/-- `NUM_ENGINES` (R5, R272). -/
def Params.numEngines (p : Params) : Nat := p.regBase.length

/-- `REG_BASE[e]` (R76). -/
def Params.base (p : Params) (e : Nat) : Nat := p.regBase.getD e 0

/-- DESIGN CHOICE (log entry 1), safe for every statement that quantifies over the parameters: the values
`State.reset` has, those the programs of spec/95_test_vectors.md assume. -/
def Params.default : Params := { rMax := 8, regBase := [0] }

/-- The closed set of hash choices (R221). -/
inductive Hash where
  | sha1
  | sha256
  | sha384
  | sha512
  deriving DecidableEq, Repr

/-- `hLen` of R221's table, bytes. -/
def Hash.hLen : Hash → Nat
  | .sha1 => 20
  | .sha256 => 32
  | .sha384 => 48
  | .sha512 => 64

/-- `blockSize` of R221's table, bytes. -/
def Hash.blockSize : Hash → Nat
  | .sha1 => 64
  | .sha256 => 64
  | .sha384 => 128
  | .sha512 => 128

/-- The host's external HMAC (R220): uninterpreted; its result has the hash's length, and `none` is
`UnderlyingPrimitiveFailure`. DESIGN CHOICE (log entry 13), safe: one function of hash, key and message. -/
opaque Config.hmac (h : Hash) (key message : Bytes) : Option (Vector Byte h.hLen)

/-- Free bytes: what R86, R265 and R290 leave unspecified in memory or in a read (log entry 4). -/
opaque Config.freeByte : Nat → Byte

/-- Free words: a register read while reset is asserted (R290, U15; log entry 4). -/
opaque Config.freeWord : Nat → Word

/-- Free loop indices: `i` after a reset (R49; log entry 4). -/
opaque Config.freeIndex : Nat → Nat

end Sys2Proof
end

