-- ==== Sys2Proof/Syntax.lean ====
section
/-! DEFINITION. What can be said to the machine: the three commands (spec/30_encoding.md R91), the registers
(spec/10_state.md R20), the host's statements (R97, spec/44_host_kdf.md) and the turns of the agents
(spec/00_scope.md R12). -/

namespace Sys2Proof

/-- The command set (R2, R91), one constructor per row of spec/opcode_table.json. A command word has no
operand field: the operands are the parameter registers (R93). -/
inductive Instr where
  | salsa8
  | blockmix
  | romix
  deriving DecidableEq, Repr

/-- The registers of one engine's window (R20). -/
inductive Reg where
  | id
  | cmd
  | status
  | irqEn
  | srcAddr
  | dstAddr
  | vAddr
  | rParam
  | nParam
  | rmax
  /-- Every other word offset of the window (R37). -/
  | reserved
  deriving DecidableEq, Repr

/-- Where a host register access goes: an address of the host's bus and the width of the access in bytes.
Only a 4-byte access at a word offset of a window is a `REGX` transaction (R21, R94). -/
structure RegRef where
  addr : Nat
  size : Nat
  deriving DecidableEq, Repr

/-- A number given to a host entry point, before its check: an integer, or not one (90_conflicts.md C8). -/
inductive HostNum where
  | int (z : Int)
  | nonInteger
  deriving DecidableEq, Repr

/-- The arguments of `deriveKeyPbkdf2` (R222, R233). A `hash` of `none` is a choice outside R221's set. -/
structure Pbkdf2Req where
  password : Bytes
  salt : Bytes
  iterations : HostNum
  outputLength : HostNum
  hash : Option Hash
  deriving DecidableEq, Repr

/-- Where the host mixes one SuperBlock (R229): on which engine, and with which three regions. -/
structure Slot where
  engine : Nat
  src : Word
  dst : Word
  v : Word
  deriving DecidableEq, Repr

/-- One move of the host's mixing (R229). -/
inductive MixMove where
  /-- Place SuperBlock `k` and start its `ROMIX`. -/
  | start (k : Nat)
  /-- Wait for the command of SuperBlock `k`, check it, and read the result back. -/
  | collect (k : Nat)
  deriving DecidableEq, Repr

/-- The arguments of `deriveKeyScrypt` (R227, R233) and the host's own choices of R229 and R234: a slot per
SuperBlock in index order, the order in which the commands are started and collected (so which of them run at the same
time), whether V is erased afterwards. -/
structure ScryptReq where
  password : Bytes
  salt : Bytes
  N : HostNum
  r : HostNum
  p : HostNum
  dkLen : HostNum
  slots : List Slot
  plan : List MixMove
  eraseV : Bool
  deriving DecidableEq, Repr

/-- One statement of a host program. -/
inductive HostStmt where
  /-- `WR REG, imm` (R97). -/
  | wr (reg : RegRef) (imm : Word)
  /-- `RD REG` (R97). -/
  | rd (reg : RegRef)
  /-- `WAIT REG, mask, val` (R97). -/
  | wait (reg : RegRef) (mask val : Word)
  /-- Waiting for an engine's interrupt output (R294 step 6; log entry 15). -/
  | waitIrq (engine : Nat)
  /-- `STB addr, "hex"` (R97). -/
  | stb (addr : Nat) (bytes : Bytes)
  /-- `LDB addr, n` (R97). -/
  | ldb (addr n : Nat)
  /-- `deriveKeyPbkdf2` (R233). -/
  | deriveKeyPbkdf2 (req : Pbkdf2Req)
  /-- `deriveKeyScrypt` (R233). -/
  | deriveKeyScrypt (req : ScryptReq)
  /-- A step of a running `deriveKeyScrypt`: store SuperBlock `k` of B, of `len` bytes, at `addr` (R229). -/
  | placeBlock (k addr len : Nat)
  /-- A step of a running `deriveKeyScrypt`: read `STATUS` after a command (R229, R230). -/
  | checkStatus (reg : RegRef)
  /-- A step of a running `deriveKeyScrypt`: read the mixed SuperBlock `k` back into B (R228, R229). -/
  | takeBlock (k addr len : Nat)
  /-- A step of a running `deriveKeyScrypt`: erase the table of SuperBlock `k`, the `len` bytes at `addr`, whose command
  has ended on the engine whose `STATUS` is `reg` (R234). -/
  | eraseTable (k : Nat) (reg : RegRef) (addr len : Nat)
  /-- The last step of a running `deriveKeyScrypt`: the finalization (R228). -/
  | finishScrypt (password : Bytes) (dkLen : Nat)
  deriving DecidableEq, Repr

/-- How the external memory answers the transfer of an engine's step (R83, R87). -/
inductive Answer where
  /-- Ordinary memory. -/
  | ok
  /-- An error response (R83, U10). -/
  | error
  /-- No response (U11). -/
  | silent
  /-- A device, or no memory, without an error: unspecified contents (R87). -/
  | strange
  deriving DecidableEq, Repr

/-- Whose step comes next (R12, R116, R270). -/
inductive Turn where
  | host
  | engine (e : Nat) (answer : Answer)
  /-- The platform asserts an engine's reset input (R290). -/
  | assertReset (e : Nat)
  /-- The platform releases it (R290). -/
  | releaseReset (e : Nat)
  deriving DecidableEq, Repr

end Sys2Proof
end

