-- ==== Sys2Proof/WellFormed.lean ====
section
/-! DEFINITION. Which terms are within the interface: parameters (spec/00_scope.md R5), register accesses
(spec/10_state.md R21), host statements (spec/93_implementation_defined.md U16). -/

namespace Sys2Proof

/-- A command word has no operand fields (R90, R93), so every command is well formed. -/
def Instr.wf : Instr → Bool
  | .salsa8 => true
  | .blockmix => true
  | .romix => true

/-- Two register windows share no address (R20, R76). -/
def windowsApart (a b : Nat) : Bool := a + Config.regWindow ≤ b || b + Config.regWindow ≤ a

/-- No two windows of a list meet. -/
def basesApart : List Nat → Bool
  | [] => true
  | b :: bs => bs.all (windowsApart b) && basesApart bs

/-- R5's limits on the OPEN parameters, and disjoint windows (R76). -/
def Params.wf (p : Params) : Bool :=
  1 ≤ p.rMax && p.rMax ≤ Config.rMaxLimit && 1 ≤ p.numEngines && basesApart p.regBase

/-- Why a host statement is outside the interface. -/
inductive StmtProblem where
  /-- A register access at an address of no engine's window (R76: the platform's). -/
  | noWindow
  /-- A sub-word or wider register access (R21, U16). -/
  | accessSize
  /-- A register access whose offset's bits [1:0] are not 00 (R21, U16). -/
  | misaligned
  /-- A statement that names an engine the platform does not have (R272). -/
  | noEngine
  /-- A scrypt request that does not place each of its p SuperBlocks (R229). -/
  | placement
  /-- A scrypt request whose plan does not start and then collect each SuperBlock once, or starts one on an engine that
  still has another of them (R229, R122). -/
  | order
  deriving DecidableEq, Repr

/-- The engine and the window offset an access of the host's bus reaches (R20, R21, R76). -/
def RegRef.resolve (p : Params) (ref : RegRef) : Except StmtProblem (Nat × Nat) :=
  match p.regBase.findIdx? (fun b => b ≤ ref.addr && ref.addr < b + Config.regWindow) with
  | none => .error .noWindow
  | some e =>
    if ref.size ≠ 4 then .error .accessSize
    else if (ref.addr - p.base e) % 4 ≠ 0 then .error .misaligned
    else .ok (e, ref.addr - p.base e)

/-- What keeps a register access from being a `REGX` transaction (R94), if anything does. -/
def RegRef.problem (p : Params) (ref : RegRef) : Option StmtProblem :=
  match ref.resolve p with
  | .error e => some e
  | .ok _ => none

/-- What is left of a plan is one that R229 allows, where the SuperBlocks `started` were started and `busy` of them not yet
collected: each is started once and collected once, in any order, and no engine has two at a time (R122). -/
def planOk (slots : List Slot) : (started busy : List Nat) → List MixMove → Bool
  | started, busy, [] => busy.isEmpty && started.length = slots.length
  | started, busy, .start k :: ms =>
    match slots[k]? with
    | none => false
    | some s =>
      !started.contains k && (busy.filterMap (fun j => slots[j]?)).all (fun o => o.engine ≠ s.engine)
        && planOk slots (k :: started) (k :: busy) ms
  | started, busy, .collect k :: ms => busy.contains k && planOk slots started (busy.erase k) ms

/-- A request's slots are one per SuperBlock, on engines the platform has, and its plan mixes each (R229). Where p is no
count at all the request fails R227's own check instead. -/
def ScryptReq.problem (q : Params) (req : ScryptReq) : Option StmtProblem :=
  match req.p with
  | .nonInteger => none
  | .int z =>
    if z < 1 then none
    else if req.slots.length ≠ z.toNat then some .placement
    else if !req.slots.all (fun s => s.engine < q.numEngines) then some .noEngine
    else if !planOk req.slots [] [] req.plan then some .order
    else none

/-- What puts a host statement outside the interface, if anything does. -/
def HostStmt.problem (p : Params) : HostStmt → Option StmtProblem
  | .wr ref _ => ref.problem p
  | .rd ref => ref.problem p
  | .wait ref _ _ => ref.problem p
  | .checkStatus ref => ref.problem p
  | .waitIrq e => if e < p.numEngines then none else some .noEngine
  | .deriveKeyScrypt req => req.problem p
  | .stb _ _ => none
  | .ldb _ _ => none
  | .deriveKeyPbkdf2 _ => none
  | .placeBlock _ _ _ => none
  | .takeBlock _ _ _ => none
  | .eraseTable _ ref _ _ => ref.problem p
  | .finishScrypt _ _ => none

/-- A statement a model accepts (U16). -/
def HostStmt.wf (p : Params) (st : HostStmt) : Bool := (st.problem p).isNone

end Sys2Proof
end

