-- ==== Sys2Proof/Decode.lean ====
section
/-! DEFINITION. The command word `CMDW` (spec/30_encoding.md R90 to R92, R96): a decoder that is total on
every 32-bit value, and the encoder. -/

namespace Sys2Proof

/-- Why a word is no command (R92): both cases are `ILLEGAL_CMD`. -/
inductive DecodeError where
  /-- A bit of `RSV` = [31:4] is set. -/
  | reservedBits
  /-- `OP` is 0x0 or 0x4 to 0xF. -/
  | reservedOpcode (op : BitVec 4)
  deriving DecidableEq, Repr

/-- Field `OP` of a command word (R90). -/
def opField (w : Word) : BitVec 4 := w.extractLsb' 0 4

/-- Field `RSV` of a command word (R90). -/
def rsvField (w : Word) : BitVec 28 := w.extractLsb' 4 28

/-- Opcodes of R91. -/
def Instr.op : Instr → BitVec 4
  | .salsa8 => 0x1#4
  | .blockmix => 0x2#4
  | .romix => 0x3#4

/-- Decoding a value written to `CMD` (R96). -/
def decode (w : Word) : Except DecodeError Instr :=
  if rsvField w ≠ 0#28 then .error .reservedBits
  else if opField w = 0x1#4 then .ok .salsa8
  else if opField w = 0x2#4 then .ok .blockmix
  else if opField w = 0x3#4 then .ok .romix
  else .error (.reservedOpcode (opField w))

/-- The decoder as the host's interface reads it: the opcode table's bit numbering is the word's own (R90),
and a word has 32 bits, no more (R95). -/
def decodeTableWord (nbits w : Nat) : Option Instr :=
  (decode (BitVec.ofNat 32 (w % 2 ^ nbits))).toOption

/-- Format `CMDW` (R90): `RSV` = 0 above `OP`. -/
def cmdw (op : BitVec 4) : Word := 0#28 ++ op

/-- The command word of a command (R91). -/
def encode (i : Instr) : Word := cmdw i.op

end Sys2Proof
end

