-- ==== Sys2Proof/Machine/State.lean ====
section
/-! DEFINITION. The state of the whole system as plain data (spec/10_state.md, spec/20_memory.md R60,
spec/00_scope.md R12), the reasons a step can stop, and the state right after reset
(spec/70_reset_and_hazards.md R290, R293). -/

namespace Sys2Proof.Machine

/-- External memory in canonical form: addresses strictly rising, no entry equal to what an unlisted address
reads as (`Memory.wf`, Machine/Ops.lean). -/
abbrev Memory := List Host.Cell

/-- The sixteen words of a Salsa working state (R40) or of a Block (R10). -/
abbrev Words := Vector Word 16

/-- R43's phases. -/
inductive Phase where
  | idle
  | salsa
  | blockmix
  | build
  | mix
  deriving DecidableEq, Repr, Inhabited

/-- Error codes of R260 other than `NONE`. -/
inductive ErrCode where
  | illegalCmd
  | badR
  | badN
  | align
  | range
  | overlap
  | bus
  deriving DecidableEq, Repr

/-- The part of a command's loop in progress. DESIGN CHOICE (log entry 6), safe: R116 lets a command run in
steps of one word transfer or one computation, and this says which comes next. -/
inductive Act where
  /-- `MemRead(lat.SRC, L)`. -/
  | load
  /-- `MemWrite(lat.V + i*L, L, X)` of the build phase. -/
  | snapshot
  /-- `j <- Integerify(X, r) mod N` of the mix phase. -/
  | index
  /-- `T <- MemRead(lat.V + j*L, L)` of the mix phase. -/
  | fetch
  /-- One SALSA208 call of the command's function. -/
  | mixing
  /-- `MemWrite(lat.DST, L, result)`. -/
  | store
  /-- `Complete`. -/
  | finish
  deriving DecidableEq, Repr, Inhabited

/-- `STATUS` (R24 to R28): its fields; the reserved bits have no storage (R38). -/
structure Status where
  busy : Bool
  done : Bool
  err : Bool
  ovr : Bool
  errCode : BitVec 4
  deriving DecidableEq, Repr

/-- The values latched at a submission (R42). -/
structure Latched where
  op : BitVec 4
  src : Word
  dst : Word
  v : Word
  r : Word
  n : Word
  deriving DecidableEq, Repr, Inhabited

/-- The private scratch of one engine (R40, R41, R45, R46), with the counters of the loop in progress. -/
structure Scratch where
  /-- Salsa working state `x` (R40). -/
  x : Words
  /-- Salsa input copy `z` (R40). -/
  z : Words
  /-- The private copy of a BlockMix input (R41), and `T` of R195 while it is read. -/
  copy : Bytes
  /-- BlockMix accumulator `X` (R41). -/
  acc : Bytes
  /-- BlockMix output buffer `Y`, as its Blocks (R41). -/
  y : List Bytes
  /-- ROMix state `X` (R45); for the other two commands the result to be stored. -/
  state : Bytes
  /-- ROMix index `j` (R45). -/
  j : Nat
  act : Act
  /-- The word of the transfer in progress, or R43's index inside a BlockMix. -/
  k : Nat
  deriving DecidableEq, Repr, Inhabited

/-- One engine (R20, R42, R43, R46). -/
structure Engine where
  status : Status
  /-- `IRQ_EN` bits [2:0]: `OVR_IE`, `ERR_IE`, `DONE_IE` (R31). -/
  irqEn : BitVec 3
  srcAddr : Word
  dstAddr : Word
  vAddr : Word
  rParam : Word
  nParam : Word
  lat : Latched
  phase : Phase
  /-- R43's loop index of `BUILD` and `MIX`. -/
  i : Nat
  scratch : Scratch
  /-- Another agent broke the hazard rule R86 for the running command (log entry 7). -/
  tainted : Bool
  /-- The level of the reset input (R290). -/
  inReset : Bool
  deriving DecidableEq, Repr

/-- What a host derivation can fail with (R222, R226, R227, R230). -/
inductive HostError where
  | invalidParameter
  | derivedKeyTooLong
  | underlyingPrimitiveFailure
  /-- `BUS`, with the engine's code attached (R230). -/
  | platformFailure (code : BitVec 4)
  deriving DecidableEq, Repr

/-- The result of a host statement (R97, R222 to R230). -/
inductive HostResult where
  /-- What a `RD` returned. -/
  | value (w : Word)
  /-- What a `LDB` returned. -/
  | bytes (bs : Bytes)
  /-- A derived key. -/
  | key (dk : Bytes)
  | failed (e : HostError)
  deriving DecidableEq, Repr

/-- The whole system (R12): parameters, external memory, engines, the host, and what is to come. -/
structure State where
  /-- R5's OPEN parameters; no step changes them. -/
  params : Params
  mem : Memory
  /-- Engine `e` is entry `e` (R272). -/
  engines : List Engine
  /-- The engine whose window the register transaction in progress addresses (log entry 9). -/
  target : Nat
  /-- The host's statements still to run (R97). -/
  program : List HostStmt
  /-- The results of its statements, newest first. -/
  log : List HostResult
  /-- The host's working array `B` of R228 while it derives a key. -/
  kdfB : Bytes
  /-- The turns still to come (R116, R270; log entry 3). -/
  schedule : List Turn
  /-- The counter the free values of Config are applied to (log entry 4). -/
  freeCount : Nat
  deriving DecidableEq, Repr

/-- Why the machine stops with a fault. -/
inductive Fault where
  /-- Raised by a host memory access, and by an engine's port, at an address outside the 2^32 bytes of R60, which
  does not exist. For an engine it is unreachable (R67). Safe: nothing is said of what follows. -/
  | outsideMemory (addr : Nat)
  deriving DecidableEq, Repr

/-- Why a step has no meaning. -/
inductive Refusal where
  /-- Raised by `exec` for an instruction without a meaning. No instruction is left without one. Safe. -/
  | notModelled (mnemonic : String)
  /-- Raised by the host's step for a statement outside the interface (R21, U16, R76, R229). Safe. -/
  | hostStatement (why : StmtProblem)
  /-- Raised by every operation on an engine whose number is none of the platform's (R272): a turn of the schedule, or
  a `target`, that names none. Safe. -/
  | noSuchEngine (e : Nat)
  deriving DecidableEq, Repr

end Sys2Proof.Machine

namespace Sys2Proof

/-- Free internal scratch: its contents between commands and after a reset (R40, R46, R49; log entry 4). -/
opaque Config.freeScratch : Nat → Machine.Scratch

/-- Free latched values: after a reset (R49; log entry 4). -/
opaque Config.freeLatched : Nat → Machine.Latched

end Sys2Proof

namespace Sys2Proof.Machine

/-- `STATUS` = 0x00000000 (R20, R293). -/
def Status.reset : Status :=
  { busy := false, done := false, err := false, ovr := false, errCode := 0#4 }

/-- DESIGN CHOICE (log entry 5),
    unsafe: R49 leaves the latched values unspecified after reset; zero at `State.reset`. -/
def Latched.zero : Latched := { op := 0#4, src := 0#32, dst := 0#32, v := 0#32, r := 0#32, n := 0#32 }

/-- DESIGN CHOICE (log entry 5), unsafe: R49 leaves the scratch unspecified after reset; empty at `State.reset`. -/
def Scratch.empty : Scratch :=
  { x := Vector.replicate 16 0#32, z := Vector.replicate 16 0#32, copy := [], acc := [], y := [], state := [],
    j := 0, act := .load, k := 0 }

/-- One engine right after reset (R20, R49, R293). -/
def Engine.reset : Engine :=
  { status := Status.reset, irqEn := 0#3, srcAddr := 0#32, dstAddr := 0#32, vAddr := 0#32, rParam := 0#32,
    nParam := 0#32, lat := Latched.zero, phase := .idle, i := 0, scratch := Scratch.empty, tainted := false,
    inReset := false }

/-- The system right after reset on a platform with parameters `p`: every engine at its reset values and idle
(R272, R292, R293), memory with nothing listed (log entry 2), no host program loaded (log entry 12). -/
def State.resetWith (p : Params) : State :=
  { params := p, mem := [], engines := List.replicate p.numEngines Engine.reset, target := 0, program := [],
    log := [], kdfB := [], schedule := [], freeCount := 0 }

/-- The machine right after reset. The parameters are those of spec/95_test_vectors.md (log entry 1). -/
def State.reset : State := State.resetWith Params.default

end Sys2Proof.Machine
end

