-- ==== Sys2Proof/Machine/SalsaCore.lean ====
section
/-! DEFINITION. Words and bytes (spec/00_scope.md R7 to R10) and the Salsa208Core unit as a function
(spec/41_salsa208.md R140 to R148). The functions of sixteen words are irreducible, so that no proof unfolds them by
accident; the kernel evaluates them all the same. -/

namespace Sys2Proof.Machine

/-- `add32` (R7, R140): the carry out of bit 31 is recorded nowhere. -/
def add32 (a b : Word) : Word := a + b

/-- `rotl32(v, k)` for 1 ≤ k ≤ 31 (R7, R142). -/
def rotl32 (v : Word) (k : Nat) : Word := (v <<< k) ||| (v >>> (32 - k))

/-- `LE32(b0, b1, b2, b3)` (R10): `b0` is the least significant byte. -/
def le32 (b0 b1 b2 b3 : Byte) : Word := b3 ++ b2 ++ b1 ++ b0

/-- The four bytes of a word in address order (R63, R64). -/
def leBytes (w : Word) : Bytes :=
  [w.extractLsb' 0 8, w.extractLsb' 8 8, w.extractLsb' 16 8, w.extractLsb' 24 8]

/-- The word at byte offset `a` of a byte sequence (R10). -/
def wordAt (b : Bytes) (a : Nat) : Word :=
  le32 (b.getD a 0#8) (b.getD (a + 1) 0#8) (b.getD (a + 2) 0#8) (b.getD (a + 3) 0#8)

/-- `Words(Blk)` (R10). -/
@[irreducible] def wordsOf (b : Bytes) : Words := Vector.ofFn (fun k : Fin 16 => wordAt b (4 * k.val))

/-- `Bytes(w[0..15])` (R10). -/
@[irreducible] def bytesOf (w : Words) : Bytes := w.toList.flatMap leBytes

/-- `A XOR B` on two byte sequences of equal length (R8). -/
def xorBytes (a b : Bytes) : Bytes := List.zipWith (fun x y => x ^^^ y) a b

/-- `Blk(B, k)` (R9). -/
def blk (b : Bytes) (k : Nat) : Bytes := (b.drop (64 * k)).take 64

/-- One quarter step's destination, sources and rotation: `QS(d, a, b, k)` of R143. -/
structure Quarter where
  d : Fin 16
  a : Fin 16
  b : Fin 16
  k : Nat
  deriving DecidableEq, Repr

/-- `x[d] <- x[d] XOR rotl32(add32(x[a], x[b]), k)` (R143). -/
def quarterStep (x : Words) (q : Quarter) : Words :=
  x.set q.d (x[q.d] ^^^ rotl32 (add32 x[q.a] x[q.b]) q.k)

/-- R145's table, one line per column. -/
def columnLines : List (List Quarter) :=
  [[⟨4, 0, 12, 7⟩, ⟨8, 4, 0, 9⟩, ⟨12, 8, 4, 13⟩, ⟨0, 12, 8, 18⟩],
   [⟨9, 5, 1, 7⟩, ⟨13, 9, 5, 9⟩, ⟨1, 13, 9, 13⟩, ⟨5, 1, 13, 18⟩],
   [⟨14, 10, 6, 7⟩, ⟨2, 14, 10, 9⟩, ⟨6, 2, 14, 13⟩, ⟨10, 6, 2, 18⟩],
   [⟨3, 15, 11, 7⟩, ⟨7, 3, 15, 9⟩, ⟨11, 7, 3, 13⟩, ⟨15, 11, 7, 18⟩]]

/-- R146's table, one line per row. -/
def rowLines : List (List Quarter) :=
  [[⟨1, 0, 3, 7⟩, ⟨2, 1, 0, 9⟩, ⟨3, 2, 1, 13⟩, ⟨0, 3, 2, 18⟩],
   [⟨6, 5, 4, 7⟩, ⟨7, 6, 5, 9⟩, ⟨4, 7, 6, 13⟩, ⟨5, 4, 7, 18⟩],
   [⟨11, 10, 9, 7⟩, ⟨8, 11, 10, 9⟩, ⟨9, 8, 11, 13⟩, ⟨10, 9, 8, 18⟩],
   [⟨12, 15, 14, 7⟩, ⟨13, 12, 15, 9⟩, ⟨14, 13, 12, 13⟩, ⟨15, 14, 13, 18⟩]]

/-- One line of a round: its quarter steps left to right, each on the values the one before left (R143). -/
def quarterRound (x : Words) (line : List Quarter) : Words := line.foldl quarterStep x

/-- `ColumnRound` (R145). -/
def columnRound (x : Words) : Words := columnLines.foldl quarterRound x

/-- `RowRound` (R146). -/
def rowRound (x : Words) : Words := rowLines.foldl quarterRound x

/-- `DoubleRound = ColumnRound ; RowRound` (R147). -/
def doubleRound (x : Words) : Words := rowRound (columnRound x)

/-- `for n = 1 .. 4: DoubleRound` (R148). -/
@[irreducible] def salsaRounds (x : Words) : Words :=
    (List.range Config.doubleRounds).foldl (fun w _ => doubleRound w) x

/-- `out[k] <- add32(x[k], z[k])`, the feed-forward (R148). -/
@[irreducible] def feedForward (x z : Words) : Words := Vector.ofFn (fun k : Fin 16 => add32 x[k] z[k])

/-- `SALSA208(Blk)` (R148). -/
def salsa208 (b : Bytes) : Bytes := bytesOf (feedForward (salsaRounds (wordsOf b)) (wordsOf b))

end Sys2Proof.Machine
end

