-- ==== Sys2Proof/Machine/BlockMixCore.lean ====
section
/-! DEFINITION. The BlockMix controller as a function (spec/42_blockmix.md R170 to R172). -/

namespace Sys2Proof.Machine

/-- Where the `i`-th Salsa result goes in the output (R170, R171). -/
def outPos (r i : Nat) : Nat := if i % 2 = 0 then i / 2 else r + (i - 1) / 2

/-- The state of R170's loop: accumulator and output Blocks. -/
structure BmState where
  acc : Bytes
  y : List Bytes
  deriving DecidableEq, Repr

/-- Before R170's loop: `X` is the last Block of the input. DESIGN CHOICE (log entry 21), safe: R41 and R170 leave open what
the Blocks of `Y` not yet produced hold; zero Blocks here, each overwritten before it is read. -/
def bmInit (b : Bytes) (r : Nat) : BmState :=
  { acc := blk b (2 * r - 1), y := List.replicate (2 * r) (List.replicate 64 0#8) }

/-- Iteration `i` of R170's loop. -/
def bmStep (b : Bytes) (r i : Nat) (st : BmState) : BmState :=
  { acc := salsa208 (xorBytes st.acc (blk b i)),
    y := st.y.set (outPos r i) (salsa208 (xorBytes st.acc (blk b i))) }

/-- R170's loop before its iteration `n`. -/
def bmLoop (b : Bytes) (r n : Nat) : BmState :=
  (List.range n).foldl (fun st i => bmStep b r i st) (bmInit b r)

/-- `BLOCKMIX(B, r)` (R170). -/
def blockMix (b : Bytes) (r : Nat) : Bytes := (bmLoop b r (2 * r)).y.flatten

end Sys2Proof.Machine
end

