-- ==== Sys2Proof/Machine/RomixCore.lean ====
section
/-! DEFINITION. The ROMix loop as a function (spec/43_romix.md R190 to R194). -/

namespace Sys2Proof.Machine

/-- `Integerify(X, r)` (R190): word 0 of the last Block. -/
def integerify (x : Bytes) (r : Nat) : Word := wordAt x ((2 * r - 1) * 64)

/-- The table index of a mix iteration (R191). -/
def mixIndex (x : Bytes) (r n : Nat) : Nat := (integerify x r).toNat % n

/-- `BLOCKMIX^i(B)` (R193). -/
def blockMixIter (b : Bytes) (r : Nat) : Nat → Bytes
  | 0 => b
  | i + 1 => blockMix (blockMixIter b r i) r

/-- R192's build phase before its iteration `n`: the state and the slots written so far. -/
def buildLoop (b : Bytes) (r n : Nat) : Bytes × List Bytes :=
  (List.range n).foldl (fun st _ => (blockMix st.1 r, st.2 ++ [st.1])) (b, [])

/-- One iteration of R192's mix phase. -/
def mixStep (v : List Bytes) (r n : Nat) (x : Bytes) : Bytes :=
  blockMix (xorBytes x (v.getD (mixIndex x r n) [])) r

/-- R192's mix phase before its iteration `m`. -/
def mixLoop (v : List Bytes) (r n m : Nat) (x : Bytes) : Bytes :=
  (List.range m).foldl (fun st _ => mixStep v r n st) x

/-- `ROMIX_F(B, r, N)` (R192): the output SuperBlock and the table. -/
def romixF (b : Bytes) (r n : Nat) : Bytes × List Bytes :=
  (mixLoop (buildLoop b r n).2 r n n (buildLoop b r n).1, (buildLoop b r n).2)

end Sys2Proof.Machine
end

