-- ==== Sys2Proof/Machine/Operands.lean ====
section
/-! DEFINITION. The operands of a command: register offsets (spec/10_state.md R20), latched values (R42), unit
length and regions (spec/20_memory.md R66, R68, R69), and the validation of a submission
(spec/40_command_lifecycle.md R114, R115). -/

namespace Sys2Proof

/-- R20's table: the register at a word offset of the window. -/
def Reg.ofOffset (off : Nat) : Reg :=
  if off = 0x00 then .id
  else if off = 0x04 then .cmd
  else if off = 0x08 then .status
  else if off = 0x0C then .irqEn
  else if off = 0x10 then .srcAddr
  else if off = 0x14 then .dstAddr
  else if off = 0x18 then .vAddr
  else if off = 0x1C then .rParam
  else if off = 0x20 then .nParam
  else if off = 0x24 then .rmax
  else .reserved

/-- `OFF(REG)` (R97): R20's table read the other way; the first reserved offset for `reserved`. -/
def Reg.offset : Reg → Nat
  | .id => 0x00
  | .cmd => 0x04
  | .status => 0x08
  | .irqEn => 0x0C
  | .srcAddr => 0x10
  | .dstAddr => 0x14
  | .vAddr => 0x18
  | .rParam => 0x1C
  | .nParam => 0x20
  | .rmax => 0x24
  | .reserved => 0x28

/-- The `REGX` access to a register of engine `e` (R94, R97). -/
def Params.reg (p : Params) (e : Nat) (r : Reg) : RegRef := { addr := p.base e + r.offset, size := 4 }

namespace Machine

/-- A range of memory bytes `[base, base + len)` (R66). -/
structure Region where
  base : Nat
  len : Nat
  deriving DecidableEq, Repr

/-- `Disjoint` (R69, R114). -/
def Region.disjoint (a b : Region) : Bool := a.base + a.len ≤ b.base || b.base + b.len ≤ a.base

/-- The region ends inside the address space, in exact arithmetic (R67). -/
def Region.inSpace (a : Region) : Bool := a.base + a.len ≤ Config.memBytes

/-- An address of the region. -/
def Region.holds (r : Region) (a : Nat) : Bool := r.base ≤ a && a < r.base + r.len

/-- Two regions share a byte (R84, R86). -/
def Region.meets (a b : Region) : Bool := !a.disjoint b && 0 < a.len && 0 < b.len

/-- What a submission of `w` latches (R42, R111). -/
def Engine.latch (g : Engine) (w : Word) : Latched :=
  { op := opField w, src := g.srcAddr, dst := g.dstAddr, v := g.vAddr, r := g.rParam, n := g.nParam }

/-- Unit length `L` (R66, R93): 64 for op 0x1, 128 r otherwise. -/
def Latched.unitLen (l : Latched) : Nat := if l.op = 0x1#4 then 64 else 128 * l.r.toNat

/-- `SRC` (R66). -/
def Latched.srcRegion (l : Latched) : Region := ⟨l.src.toNat, l.unitLen⟩

/-- `DST` (R66). -/
def Latched.dstRegion (l : Latched) : Region := ⟨l.dst.toNat, l.unitLen⟩

/-- `V` of a `ROMIX` (R66), whether or not the command uses it. -/
def Latched.vRegion (l : Latched) : Region := ⟨l.v.toNat, l.n.toNat * l.unitLen⟩

/-- The regions a command writes: `DST`, and `V` for `ROMIX` (R70). -/
def Latched.writeRegions (l : Latched) : List Region :=
  if l.op = 0x3#4 then [l.dstRegion, l.vRegion] else [l.dstRegion]

/-- All regions of a command (R66). -/
def Latched.regions (l : Latched) : List Region := l.srcRegion :: l.writeRegions

/-- Two lists of regions share a byte. -/
def regionsMeet (as bs : List Region) : Bool := as.any (fun a => bs.any (fun b => a.meets b))

/-- Commands that may not run at the same time: one writes what the other uses (R84). -/
def Latched.conflicts (a b : Latched) : Bool :=
  regionsMeet a.writeRegions b.regions || regionsMeet a.regions b.writeRegions

/-- `IsPow2(n)` (R115). -/
def isPow2 (n : Word) : Bool := n ≠ 0#32 && n &&& (n - 1#32) = 0#32

/-- The N check of R114. -/
def Latched.badN (l : Latched) : Bool :=
  !(isPow2 l.n && 2 ≤ l.n.toNat && l.n.toNat < 2 ^ (16 * l.r.toNat))

/-- The alignment check of R114 (R65). -/
def Latched.misaligned (l : Latched) : Bool :=
  l.src.toNat % 4 ≠ 0 || l.dst.toNat % 4 ≠ 0 || (l.op = 0x3#4 && l.v.toNat % 4 ≠ 0)

/-- The range check of R114 (R67). -/
def Latched.outOfRange (l : Latched) : Bool :=
  !l.srcRegion.inSpace || !l.dstRegion.inSpace || (l.op = 0x3#4 && !l.vRegion.inSpace)

/-- The overlap check of R114 (R69). -/
def Latched.overlapping (l : Latched) : Bool :=
  !(l.src = l.dst || l.srcRegion.disjoint l.dstRegion)
    || (l.op = 0x3#4 && !(l.vRegion.disjoint l.srcRegion && l.vRegion.disjoint l.dstRegion))

/-- `Validate(w)` on the latched values (R114): the first failing check, `none` for `OK`. -/
def validate (rMax : Nat) (w : Word) (l : Latched) : Option ErrCode :=
  if rsvField w ≠ 0#28 || !(opField w = 0x1#4 || opField w = 0x2#4 || opField w = 0x3#4) then some .illegalCmd
  else if (opField w = 0x2#4 || opField w = 0x3#4) && (l.r.toNat = 0 || rMax < l.r.toNat) then some .badR
  else if opField w = 0x3#4 && l.badN then some .badN
  else if l.misaligned then some .align
  else if l.outOfRange then some .range
  else if l.overlapping then some .overlap
  else none

end Machine

end Sys2Proof
end

