-- ==== Sys2Proof/Machine/Flags.lean ====
section
/-! DEFINITION. `STATUS` as a word and every change of its bits (spec/10_state.md R24 to R29, R38), the error
codes (spec/60_exceptions.md R260) and the interrupt output (R266). The engine has no other flags (R47). -/

namespace Sys2Proof.Machine

/-- The code of R260's table. -/
def ErrCode.code : ErrCode → BitVec 4
  | .illegalCmd => 1#4
  | .badR => 2#4
  | .badN => 3#4
  | .align => 4#4
  | .range => 5#4
  | .overlap => 6#4
  | .bus => 7#4

/-- `STATUS` as it is read: `ERR_CODE` in [11:8], `OVR`, `ERR`, `DONE`, `BUSY` in [3:0], reserved bits 0
(R24 to R28, R38). -/
def Status.word (t : Status) : Word :=
  0#20 ++ t.errCode ++ 0#4 ++ BitVec.ofBool t.ovr ++ BitVec.ofBool t.err ++ BitVec.ofBool t.done
    ++ BitVec.ofBool t.busy

/-- A host write of `w` to `STATUS` (R29). -/
def Status.write (t : Status) (w : Word) : Status :=
  { t with
    done := t.done && !w.getLsbD 1
    err := t.err && !w.getLsbD 2
    errCode := if w.getLsbD 2 then 0#4 else t.errCode
    ovr := t.ovr && !w.getLsbD 3 }

/-- What a submission while idle clears (R111). -/
def Status.cleared (t : Status) : Status := { t with done := false, err := false, errCode := 0#4 }

/-- A `CMD` write while busy (R110). -/
def Status.overrun (t : Status) : Status := { t with ovr := true }

/-- `Accept` (R113). -/
def Status.accepted (t : Status) : Status := { t with busy := true }

/-- Completion (R118). -/
def Status.completed (t : Status) : Status := { t with busy := false, done := true }

/-- `raise EngineError(code)`: a rejection (R112) or an abort (R265). -/
def Status.failed (t : Status) (c : ErrCode) : Status :=
  { t with busy := false, err := true, errCode := c.code }

/-- `IRQ_EN` as it is read (R31, R38). -/
def irqEnWord (e : BitVec 3) : Word := e.setWidth 32

/-- The bits of `IRQ_EN` a write of `w` sets (R31). -/
def irqEnOf (w : Word) : BitVec 3 := w.extractLsb' 0 3

/-- The interrupt output (R266). -/
def Engine.irq (g : Engine) : Bool :=
  (g.status.done && g.irqEn.getLsbD 0) || (g.status.err && g.irqEn.getLsbD 1)
    || (g.status.ovr && g.irqEn.getLsbD 2)

end Sys2Proof.Machine
end

