-- ==== Sys2Proof/Machine/Ops.lean ====
section
/-! DEFINITION. The named operations over memory, engines and registers: memory in canonical form
(spec/20_memory.md R60 to R64), free contents (R86), register reads and writes (spec/10_state.md R20 to
R38), submission, acceptance, completion (spec/40_command_lifecycle.md R110 to R118), and raising an engine
error, the one operation for a rejection and an abort (spec/60_exceptions.md R262, R265). -/

namespace Sys2Proof.Machine

/-! ### External memory -/

/-- What an address that is not listed reads as. R79 leaves the contents at power-up unspecified. DESIGN CHOICE
(log entry 2), unsafe for a statement about a run from `State.reset` only. -/
def Memory.unlisted : Byte := 0#8

/-- The canonical form: addresses strictly rising and inside the address space, no entry equal to
`Memory.unlisted`. -/
def Memory.wf : Memory → Bool
  | [] => true
  | (a, v) :: m => a < Config.memBytes && v ≠ Memory.unlisted && m.all (fun c => a < c.1) && Memory.wf m

/-- The byte at an address. -/
def Memory.read : Memory → Nat → Byte
  | [], _ => Memory.unlisted
  | (b, v) :: m, a => if b = a then v else Memory.read m a

/-- An entry in front, unless it says what is read anyway. -/
def Memory.put (a : Nat) (v : Byte) (m : Memory) : Memory := if v = Memory.unlisted then m else (a, v) :: m

/-- `mem[a] <- v`. -/
def Memory.write : Memory → Nat → Byte → Memory
  | [], a, v => Memory.put a v []
  | (b, u) :: m, a, v =>
    if b < a then (b, u) :: Memory.write m a v
    else if b = a then Memory.put a v m
    else Memory.put a v ((b, u) :: m)

/-- `mem[a .. a + n)` (R61). -/
def Memory.readBytes (m : Memory) (a n : Nat) : Bytes := (List.range n).map (fun k => Memory.read m (a + k))

/-- `mem[a + k] <- v[k]` for every `k` (R62). -/
def Memory.writeBytes (m : Memory) (a : Nat) : Bytes → Memory
  | [] => m
  | v :: vs => Memory.writeBytes (Memory.write m a v) (a + 1) vs

/-- `n` free bytes (log entry 4). -/
def freeBytes (c n : Nat) : Bytes := (List.range n).map (fun k => Config.freeByte (c + k))

/-- Any value for every byte of a region (R86, R265, R290). -/
def Memory.unspecify (m : Memory) (r : Region) (c : Nat) : Memory := m.writeBytes r.base (freeBytes c r.len)

/-! ### Engines -/

/-- An operation on engine `e`, refused where the platform has no such engine. -/
def State.onEngine (s : State) (e : Nat) (f : Engine → Host.Outcome State Fault Refusal) :
    Host.Outcome State Fault Refusal :=
  match s.engines[e]? with
  | none => .refused (.noSuchEngine e)
  | some g => f g

/-- Engine `e` replaced. -/
def State.setEngine (s : State) (e : Nat) (g : Engine) : State := { s with engines := s.engines.set e g }

/-- A command is running on the engine (R43). -/
def Engine.running (g : Engine) : Bool := g.phase ≠ .idle

/-- The engine after another agent broke R86 for its command. -/
def Engine.taint (g : Engine) : Engine := { g with tainted := true }

/-- The running commands that the condition `p` on latched values picks become tainted (R84, R86). -/
def taintIf (p : Latched → Bool) (gs : List Engine) : List Engine :=
  gs.map (fun g => if g.running && p g.lat then g.taint else g)

/-- Any value for the bytes of the regions, in turn, the counter moving on by the bytes drawn. -/
def State.unspecify (s : State) : List Region → State
  | [] => s
  | r :: rs =>
    State.unspecify { s with mem := s.mem.unspecify r s.freeCount, freeCount := s.freeCount + r.len } rs

/-! ### Errors (R262), completion, reset -/

/-- `DST` and `V` of a command with any value, if `b` (R86, R265, R290). -/
def State.spoil (s : State) (l : Latched) (b : Bool) : State := if b then s.unspecify l.writeRegions else s

/-- The counter of free values past the one just used. -/
def State.drawn (s : State) : State := { s with freeCount := s.freeCount + 1 }

/-- `Reject(code)`: `phase` stays `IDLE` (R112). -/
def Engine.rejected (g : Engine) (c : ErrCode) : Engine := { g with status := g.status.failed c }

/-- The abort of R265; the scratch is unspecified from here on (R46), free value number `f`. -/
def Engine.aborted (g : Engine) (c : ErrCode) (f : Nat) : Engine :=
  { g with phase := .idle, status := g.status.failed c, tainted := false, scratch := Config.freeScratch f }

/-- Completion (R118); the scratch is unspecified from here on (R46), free value number `f`. -/
def Engine.completed (g : Engine) (f : Nat) : Engine :=
  { g with phase := .idle, status := g.status.completed, tainted := false, scratch := Config.freeScratch f }

/-- An engine held in reset: registers at their reset values (R290), internal state unspecified (R49), free values
number `f`. -/
def Engine.heldInReset (f : Nat) : Engine :=
  { Engine.reset with
    inReset := true
    lat := Config.freeLatched f
    i := Config.freeIndex f
    scratch := Config.freeScratch f }

/-- `raise EngineError(code)` on engine `e`, which holds `g` (R262): while it is idle, `Reject(code)` (R112); while a
command runs, the abort of R265, which leaves `DST` and `V` with any value. -/
def State.raiseError (s : State) (e : Nat) (g : Engine) (c : ErrCode) : State :=
  if g.running then (s.spoil g.lat true).drawn.setEngine e (g.aborted c (s.spoil g.lat true).freeCount)
  else s.setEngine e (g.rejected c)

/-- Completion of the command on engine `e` (R118). After a hazard `DST` and `V` hold any value (R86). -/
def State.complete (s : State) (e : Nat) (g : Engine) : State :=
  (s.spoil g.lat g.tainted).drawn.setEngine e (g.completed (s.spoil g.lat g.tainted).freeCount)

/-- Reset asserted on engine `e` (R290): a running command is abandoned with `DST` and `V` unspecified; memory is not
reset (R79). -/
def State.assertReset (s : State) (e : Nat) (g : Engine) : State :=
  (s.spoil g.lat g.running).drawn.setEngine e (Engine.heldInReset (s.spoil g.lat g.running).freeCount)

/-- Reset released on engine `e`: it is idle and does nothing until `CMD` is written (R292). -/
def State.releaseReset (s : State) (e : Nat) (g : Engine) : State := s.setEngine e { g with inReset := false }

/-! ### Submission -/

/-- The phase a command starts in (R113). -/
def startPhase (op : BitVec 4) : Phase :=
  if op = 0x1#4 then .salsa else if op = 0x2#4 then .blockmix else .build

/-- `Accept(op)` on an engine that has latched its operands (R113), its loop at the start (R44). -/
def Engine.accept (g : Engine) (conflict : Bool) : Engine :=
  { g with
    status := g.status.accepted
    phase := startPhase g.lat.op
    i := 0
    tainted := conflict
    scratch := { g.scratch with act := .load, k := 0, copy := [] } }

/-- The engine after the first lines of R111: flags cleared, operands latched. -/
def Engine.submitted (g : Engine) (w : Word) : Engine :=
  { g with status := g.status.cleared, lat := g.latch w }

/-- An engine whose `CMD` was written while busy (R110). -/
def Engine.overrun (g : Engine) : Engine := { g with status := g.status.overrun }

/-- The engines with a command of latched values `l` accepted on engine `e`, which holds `g`: those that conflict are
tainted, the new one included (R84). -/
def State.accepted (s : State) (e : Nat) (g : Engine) (l : Latched) : State :=
  { s with engines := taintIf l.conflicts s.engines }.setEngine e
    (g.accept (s.engines.any (fun o => o.running && l.conflicts o.lat)))

/-- A host write of `w` to `CMD` of engine `s.target`: ignored while reset is asserted (R290), dropped while `BUSY`
(R110), else R111 to R113. An accepted command that conflicts with a running one taints both (R84). -/
def State.submit (s : State) (w : Word) : Host.Outcome State Fault Refusal :=
  s.onEngine s.target fun g =>
    if g.inReset then .next s
    else if g.status.busy then .next (s.setEngine s.target g.overrun)
    else
      match validate s.params.rMax w (g.latch w) with
      | some c => .next (s.raiseError s.target (g.submitted w) c)
      | none => .next (s.accepted s.target (g.submitted w) (g.latch w))

/-! ### Registers -/

/-- What a register reads as (R20, R22 to R38). -/
def Engine.readReg (g : Engine) (p : Params) : Reg → Word
  | .id => Config.idValue
  | .cmd => 0#32
  | .status => g.status.word
  | .irqEn => irqEnWord g.irqEn
  | .srcAddr => g.srcAddr
  | .dstAddr => g.dstAddr
  | .vAddr => g.vAddr
  | .rParam => g.rParam
  | .nParam => g.nParam
  | .rmax => BitVec.ofNat 32 p.rMax
  | .reserved => 0#32

/-- A host write to a register other than `CMD` (R22, R29 to R38). -/
def Engine.writeReg (g : Engine) (w : Word) : Reg → Engine
  | .id => g
  | .cmd => g
  | .status => { g with status := g.status.write w }
  | .irqEn => { g with irqEn := irqEnOf w }
  | .srcAddr => { g with srcAddr := w }
  | .dstAddr => { g with dstAddr := w }
  | .vAddr => { g with vAddr := w }
  | .rParam => { g with rParam := w }
  | .nParam => { g with nParam := w }
  | .rmax => g
  | .reserved => g

/-- The value a host read of a register of an engine returns: any value while reset is asserted (R290, U15). -/
def State.regValue (s : State) (g : Engine) (r : Reg) : Word :=
  if g.inReset then Config.freeWord s.freeCount else g.readReg s.params r

/-! ### Host accesses to memory -/

/-- An address of a region that a running command writes, whose contents a read may not rely on (R86). -/
def State.inFlight (s : State) (a : Nat) : Bool :=
  s.engines.any (fun g => g.running && g.lat.writeRegions.any (fun r => r.holds a))

/-- What a host read of `n` bytes at `a` returns: any value for a byte of a running command's `DST` or `V`
(R86, U7), else the memory's. -/
def State.hostRead (s : State) (a n : Nat) : Bytes :=
  (List.range n).map fun k =>
    if s.inFlight (a + k) then Config.freeByte (s.freeCount + k) else s.mem.read (a + k)

/-- A host write of bytes at `a`, performed at the memory (R75, R97). It taints the running commands it meets
(R86). -/
def State.hostWrite (s : State) (a : Nat) (bs : Bytes) : State :=
  { s with
    mem := s.mem.writeBytes a bs
    engines := taintIf (fun l => regionsMeet [⟨a, bs.length⟩] l.regions) s.engines }

/-- The host's bytes lie inside the address space (R60). -/
def inMemory (a n : Nat) : Bool := a + n ≤ Config.memBytes

end Sys2Proof.Machine
end

