-- ==== Sys2Proof/Machine/Salsa8.lean ====
section
/-! DEFINITION. The command SALSA8 (spec/41_salsa208.md R149): its submission, and the part of its loop between
the port transfers that Machine/Engine.lean makes. -/

namespace Sys2Proof.Machine

/-- `SALSA8`: its command word is written to `CMD` (R23, R91, R149). Once accepted, the engine runs it in steps of its
own (R116). -/
def execSalsa8 (s : State) : Host.Outcome State Fault Refusal := s.submit (encode .salsa8)

/-- One `SALSA208` call in the scratch (R40, R148): `z` and `x` hold the input copy and the state after the rounds. -/
def Scratch.salsaCall (c : Scratch) (b : Bytes) : Scratch :=
  { c with z := wordsOf b, x := salsaRounds (wordsOf b) }

/-- What the call returns: the feed-forward of `x` and `z` (R148). -/
def Scratch.salsaResult (c : Scratch) : Bytes := bytesOf (feedForward c.x c.z)

/-- `blk` is read; `SALSA208(blk)` is next (R149). -/
def salsa8Loaded (g : Engine) : Engine := { g with scratch := { g.scratch with act := .mixing, k := 0 } }

/-- `res <- SALSA208(blk)` (R149). -/
def salsa8Compute (g : Engine) : Engine :=
  { g with
    scratch :=
      { g.scratch.salsaCall g.scratch.copy with
        state := (g.scratch.salsaCall g.scratch.copy).salsaResult, act := .store, k := 0 } }

end Sys2Proof.Machine
end

