-- ==== Sys2Proof/Machine/Blockmix.lean ====
section
/-! DEFINITION. The command BLOCKMIX (spec/42_blockmix.md R173): its submission, and R170's loop in the engine's
scratch, one SALSA208 call a step, which ROMIX uses too. -/

namespace Sys2Proof.Machine

/-- `BLOCKMIX`: its command word is written to `CMD` (R23, R91, R173). Once accepted, the engine runs it in steps of
its own (R116). -/
def execBlockmix (s : State) : Host.Outcome State Fault Refusal := s.submit (encode .blockmix)

/-- The start of R170's loop on the input `b`, of which the scratch keeps a private copy (R41). -/
def beginBlockMix (g : Engine) (b : Bytes) : Engine :=
  { g with
    scratch :=
      { g.scratch with
        copy := b, acc := (bmInit b g.lat.r.toNat).acc, y := (bmInit b g.lat.r.toNat).y, act := .mixing, k := 0 } }

/-- Iteration `k` of R170's loop. -/
def Scratch.blockMixIteration (c : Scratch) (r : Nat) : Scratch :=
  let d := c.salsaCall (xorBytes c.acc (blk c.copy c.k))
  { d with acc := d.salsaResult, y := c.y.set (outPos r c.k) d.salsaResult, k := c.k + 1 }

/-- The engine after one iteration of R170's loop. -/
def Engine.iterated (g : Engine) : Engine := { g with scratch := g.scratch.blockMixIteration g.lat.r.toNat }

/-- The output Blocks joined in `state` (R170's `return`). -/
def Engine.gathered (g : Engine) : Engine :=
  { g with scratch := { g.scratch with state := g.scratch.y.flatten, k := 0 } }

/-- One iteration of R170's loop; after the last, `after` receives the engine with the output in `state`. -/
def mixBlock (after : Engine → Engine) (g : Engine) : Engine :=
  if g.scratch.k + 1 < 2 * g.lat.r.toNat then g.iterated else after g.iterated.gathered

/-- `B` is read; R170's loop is next (R173). -/
def blockmixLoaded (g : Engine) : Engine := beginBlockMix g g.scratch.copy

/-- `res` is computed; it is to be stored (R173). -/
def blockmixMixed (g : Engine) : Engine := { g with scratch := { g.scratch with act := .store } }

/-- A step of `res <- BLOCKMIX(B, lat.R)` (R173). -/
def blockmixCompute (g : Engine) : Engine := mixBlock blockmixMixed g

end Sys2Proof.Machine
end

