-- ==== Sys2Proof/Machine/Romix.lean ====
section
/-! DEFINITION. The command ROMIX (spec/43_romix.md R195): its submission, and the parts of its two loops between
the port transfers that Machine/Engine.lean makes. -/

namespace Sys2Proof.Machine

/-- `ROMIX`: its command word is written to `CMD` (R23, R91, R195). Once accepted, the engine runs it in steps of its
own (R116). -/
def execRomix (s : State) : Host.Outcome State Fault Refusal := s.submit (encode .romix)

/-- `X <- MemRead(lat.SRC, L)` is done; the build phase starts with `V[0]` (R195). -/
def romixLoaded (g : Engine) : Engine :=
  { g with i := 0, scratch := { g.scratch with state := g.scratch.copy, act := .snapshot, k := 0 } }

/-- `V[i]` is written; `X <- BLOCKMIX(X, r)` is next (R195). -/
def romixSnapped (g : Engine) : Engine := beginBlockMix g g.scratch.state

/-- After `X <- BLOCKMIX(X, r)` of the build phase: the next slot, or the mix phase from `i` = 0 (R195). -/
def romixBuilt (g : Engine) : Engine :=
  if g.i + 1 < g.lat.n.toNat then { g with i := g.i + 1, scratch := { g.scratch with act := .snapshot } }
  else { g with phase := .mix, i := 0, scratch := { g.scratch with act := .index } }

/-- `j <- Integerify(X, r) mod N` (R195). -/
def romixIndex (g : Engine) : Engine :=
  { g with
    scratch :=
      { g.scratch with
        j := mixIndex g.scratch.state g.lat.r.toNat g.lat.n.toNat, copy := [], act := .fetch, k := 0 } }

/-- `T` is read; `X <- BLOCKMIX(X XOR T, r)` is next (R195). -/
def romixFetched (g : Engine) : Engine := beginBlockMix g (xorBytes g.scratch.state g.scratch.copy)

/-- After `X <- BLOCKMIX(X XOR T, r)` of the mix phase: the next index, or the store of the result (R195). -/
def romixMixed (g : Engine) : Engine :=
  if g.i + 1 < g.lat.n.toNat then { g with i := g.i + 1, scratch := { g.scratch with act := .index } }
  else { g with scratch := { g.scratch with act := .store } }

/-- A step of a BlockMix of the build phase. -/
def romixBuildCompute (g : Engine) : Engine := mixBlock romixBuilt g

/-- A step of a BlockMix of the mix phase. -/
def romixMixCompute (g : Engine) : Engine := mixBlock romixMixed g

end Sys2Proof.Machine
end

