-- ==== Sys2Proof/Machine/Engine.lean ====
section
/-! DEFINITION. One step of an engine that runs a command (spec/40_command_lifecycle.md R116): at most one word
transfer of its port (spec/20_memory.md R61, R62, in R72's reference order) or one computation. -/

namespace Sys2Proof.Machine

/-- A word transfer of the memory port (R61, R62). -/
inductive PortOp where
  | read (addr : Nat)
  | write (addr : Nat) (data : Bytes)
  deriving DecidableEq, Repr

/-- The address of a transfer. -/
def PortOp.addr : PortOp → Nat
  | .read a => a
  | .write a _ => a

/-- The words of one unit (R61, R66). -/
def Latched.unitWords (l : Latched) : Nat := l.unitLen / 4

/-- The byte address of table slot `i` (R68). -/
def Latched.slotAddr (l : Latched) (i : Nat) : Nat := l.v.toNat + i * l.unitLen

/-- Word `k` of a byte sequence, as bytes. -/
def wordBytes (b : Bytes) (k : Nat) : Bytes := (b.drop (4 * k)).take 4

/-- The transfer of an engine's next step, if that is one: word `k` of the access in progress (R149, R173, R195). -/
def Engine.portOp (g : Engine) : Option PortOp :=
  match g.scratch.act with
  | .load => some (.read (g.lat.src.toNat + 4 * g.scratch.k))
  | .snapshot => some (.write (g.lat.slotAddr g.i + 4 * g.scratch.k) (wordBytes g.scratch.state g.scratch.k))
  | .fetch => some (.read (g.lat.slotAddr g.scratch.j + 4 * g.scratch.k))
  | .store => some (.write (g.lat.dst.toNat + 4 * g.scratch.k) (wordBytes g.scratch.state g.scratch.k))
  | .index => none
  | .mixing => none
  | .finish => none

/-- What follows when a `MemRead` has returned its last word. -/
def Engine.readDone (g : Engine) : Engine :=
  match g.phase with
  | .salsa => salsa8Loaded g
  | .blockmix => blockmixLoaded g
  | .build => romixLoaded g
  | .mix => romixFetched g
  | .idle => g

/-- The engine with a word that was read at the end of its buffer. -/
def Engine.received (g : Engine) (bs : Bytes) : Engine :=
  { g with scratch := { g.scratch with copy := g.scratch.copy ++ bs, k := g.scratch.k + 1 } }

/-- The engine after a word read returned `bs`. -/
def Engine.afterRead (g : Engine) (bs : Bytes) : Engine :=
  if g.scratch.k + 1 < g.lat.unitWords then g.received bs else (g.received bs).readDone

/-- What follows when a `MemWrite` has written its last word: a BlockMix after a snapshot, else completion. -/
def Engine.writeDone (g : Engine) : Engine :=
  match g.scratch.act with
  | .snapshot => romixSnapped g
  | .load => g
  | .index => g
  | .fetch => g
  | .mixing => g
  | .store => { g with scratch := { g.scratch with act := .finish } }
  | .finish => g

/-- The engine with one more word written. -/
def Engine.sent (g : Engine) : Engine := { g with scratch := { g.scratch with k := g.scratch.k + 1 } }

/-- The engine after a word write. -/
def Engine.afterWrite (g : Engine) : Engine :=
  if g.scratch.k + 1 < g.lat.unitWords then g.sent else g.sent.writeDone

/-- A SALSA208 call of the command's function. -/
def Engine.mixing (g : Engine) : Engine :=
  match g.phase with
  | .salsa => salsa8Compute g
  | .blockmix => blockmixCompute g
  | .build => romixBuildCompute g
  | .mix => romixMixCompute g
  | .idle => g

/-- A computation of the command's rule that is no transfer. -/
def Engine.compute (g : Engine) : Engine :=
  match g.scratch.act with
  | .index => romixIndex g
  | .mixing => g.mixing
  | .load => g
  | .snapshot => g
  | .fetch => g
  | .store => g
  | .finish => g

/-- A word transfer that the memory answers, by engine `e`, which holds `g`. -/
def State.transfer (s : State) (e : Nat) (g : Engine) (op : PortOp) : Host.Outcome State Fault Refusal :=
  if inMemory op.addr 4 then
    match op with
    | .read a => .next (s.setEngine e (g.afterRead (s.mem.readBytes a 4)))
    | .write a bs => .next ({ s with mem := s.mem.writeBytes a bs }.setEngine e g.afterWrite)
  else .fault (.outsideMemory op.addr)

/-- A word transfer under the memory's answer: an error aborts the command (R83, R265), no response leaves it waiting
(U11), a device's answer makes `DST` and `V` unspecified (R87). -/
def State.answered (s : State) (e : Nat) (g : Engine) (op : PortOp) :
    Answer → Host.Outcome State Fault Refusal
  | .ok => s.transfer e g op
  | .strange => s.transfer e g.taint op
  | .silent => .next s
  | .error => .next (s.raiseError e g .bus)

/-- One step of engine `e` (R116). An idle engine does nothing (R292). -/
def State.engineStep (s : State) (e : Nat) (ans : Answer) : Host.Outcome State Fault Refusal :=
  s.onEngine e fun g =>
    if g.running then
      match g.portOp with
      | some op => s.answered e g op ans
      | none =>
        if g.scratch.act = .finish then .next (s.complete e g) else .next (s.setEngine e g.compute)
    else .next s

end Sys2Proof.Machine
end

