-- ==== Sys2Proof/Machine/Dispatch.lean ====
section
/-! DEFINITION. One arm per command (spec/30_encoding.md R91). -/

namespace Sys2Proof.Machine

def exec (i : Instr) (s : State) : Host.Outcome State Fault Refusal :=
  match i with
  | .salsa8 => Sys2Proof.Machine.execSalsa8 s
  | .blockmix => Sys2Proof.Machine.execBlockmix s
  | .romix => Sys2Proof.Machine.execRomix s

end Sys2Proof.Machine
end

