-- ==== Sys2Proof/Machine/HostKdf.lean ====
section
/-! DEFINITION. The host's derivations as functions of an HMAC (spec/44_host_kdf.md R220 to R232). -/

namespace Sys2Proof.Machine

/-- An HMAC capability (R220): a result of the hash's length, or a failure. -/
abbrev Hmac := (h : Hash) → Bytes → Bytes → Option (Vector Byte h.hLen)

/-- One HMAC call. -/
def Hmac.call (hmac : Hmac) (h : Hash) (key msg : Bytes) : Option Bytes := (hmac h key msg).map (fun v => v.toList)

/-- `BigEndianU32(i)` (R224). -/
def bigEndianU32 (i : Nat) : Bytes := (leBytes (BitVec.ofNat 32 i)).reverse

/-- `P'` (R225): an all-zero block in place of an empty password. -/
def hmacKey (p : Bytes) (h : Hash) : Bytes := if p = [] then List.replicate h.blockSize 0#8 else p

/-- The inner loop of R223, `n` iterations from `U` and `acc`. -/
def pbkdf2Chain (mac : Bytes → Option Bytes) : Nat → Bytes → Bytes → Option Bytes
  | 0, _, acc => some acc
  | n + 1, u, acc =>
    match mac u with
    | none => none
    | some u' => pbkdf2Chain mac n u' (xorBytes acc u')

/-- `F[i]` of R223. -/
def pbkdf2Block (mac : Bytes → Option Bytes) (salt : Bytes) (c i : Nat) : Option Bytes :=
  match mac (salt ++ bigEndianU32 i) with
  | none => none
  | some u => pbkdf2Chain mac (c - 1) u u

/-- `F[i], F[i+1], …`, `n` of them (R223). -/
def pbkdf2Blocks (mac : Bytes → Option Bytes) (salt : Bytes) (c : Nat) : Nat → Nat → Option (List Bytes)
  | _, 0 => some []
  | i, n + 1 =>
    match pbkdf2Block mac salt c i with
    | none => none
    | some f =>
      match pbkdf2Blocks mac salt c (i + 1) n with
      | none => none
      | some fs => some (f :: fs)

/-- `l = ceil(dkLen / hLen)` of R223. -/
def pbkdf2Count (dkLen hLen : Nat) : Nat := (dkLen + hLen - 1) / hLen

/-- `F[1] ‖ … ‖ F[l-1] ‖ F[l][0 .. q)` (R223). -/
def pbkdf2Join (fs : List Bytes) (q : Nat) : Bytes := fs.dropLast.flatten ++ (fs.getLastD []).take q

/-- `PBKDF2(P, S, c, dkLen, h)` on arguments that passed R222's checks (R223, R226). -/
def pbkdf2 (hmac : Hmac) (p salt : Bytes) (c dkLen : Nat) (h : Hash) : Except HostError Bytes :=
  match pbkdf2Blocks (hmac.call h (hmacKey p h)) salt c 1 (pbkdf2Count dkLen h.hLen) with
  | none => .error .underlyingPrimitiveFailure
  | some fs => .ok (pbkdf2Join fs (dkLen - (pbkdf2Count dkLen h.hLen - 1) * h.hLen))

end Sys2Proof.Machine

namespace Sys2Proof

/-- A number that must be an integer of at least `lo`, `lo` not negative. DESIGN CHOICE (log entry 23), unsafe: R233's u32
types exclude an integer of 2^32 or more, and no rule says what becomes of one; it is accepted up to R222's and R227's
bounds. -/
def HostNum.atLeast (lo : Nat) : HostNum → Option Nat
  | .int z => if (lo : Int) ≤ z then some z.toNat else none
  | .nonInteger => none

end Sys2Proof

namespace Sys2Proof.Machine

/-- `2^32 − 1`, of the length bounds of R222 and R227. -/
def maxBlocks : Nat := 4294967295

/-- `deriveKeyPbkdf2` (R222, R233): all checks before any HMAC call. DESIGN CHOICE (log entry 22), unsafe: R222 gives no
priority where `c` is bad and `dkLen` too long at once; `InvalidParameter` goes first. -/
def deriveKeyPbkdf2 (hmac : Hmac) (q : Pbkdf2Req) : Except HostError Bytes :=
  match q.iterations.atLeast 1, q.outputLength.atLeast 1, q.hash with
  | some c, some dkLen, some h =>
    if maxBlocks * h.hLen < dkLen then .error .derivedKeyTooLong
    else pbkdf2 hmac q.password q.salt c dkLen h
  | _, _, _ => .error .invalidParameter

/-- The numbers of a scrypt request that passed R227's checks. -/
structure ScryptNums where
  N : Nat
  r : Nat
  p : Nat
  dkLen : Nat
  deriving DecidableEq, Repr

/-- R227's items 1, 2 and 3. -/
def goodN (n r : Nat) : Bool := n &&& (n - 1) = 0 && n < 2 ^ (16 * r) && n ≤ 2147483648

/-- R227's checks, `none` for `InvalidParameter`; `rMax` is what the host reads from `RMAX` (item 5). -/
def scryptNums (rMax : Nat) (q : ScryptReq) : Option ScryptNums :=
  match q.N.atLeast 2, q.r.atLeast 1, q.p.atLeast 1, q.dkLen.atLeast 1 with
  | some n, some r, some p, some dkLen =>
    if r ≤ rMax && goodN n r && p * r ≤ 1073741823 && dkLen ≤ maxBlocks * 32 then
      some { N := n, r := r, p := p, dkLen := dkLen }
    else none
  | _, _, _, _ => none

/-- The expansion of R228: `B` of p · 128 · r bytes. -/
def scryptExpand (hmac : Hmac) (q : ScryptReq) (m : ScryptNums) : Except HostError Bytes :=
  pbkdf2 hmac q.password q.salt 1 (m.p * (128 * m.r)) .sha256

/-- The finalization of R228: the mixed `B` is the salt. -/
def scryptFinal (hmac : Hmac) (password b : Bytes) (dkLen : Nat) : Except HostError Bytes :=
  pbkdf2 hmac password b 1 dkLen .sha256

/-- SuperBlock `k` of `B`, of `len` bytes (R228). -/
def superBlock (b : Bytes) (k len : Nat) : Bytes := (b.drop (len * k)).take len

/-- `B` with SuperBlock `k` replaced (R228). -/
def setSuperBlock (b : Bytes) (k len : Nat) (x : Bytes) : Bytes := b.take (len * k) ++ x ++ b.drop (len * (k + 1))

/-- R228's mixing loop, the SuperBlocks `k`, `k + 1`, …, `n` of them. -/
def scryptMix (r n : Nat) : Nat → Nat → Bytes → Bytes
  | _, 0, b => b
  | k, m + 1, b =>
    scryptMix r n (k + 1) m (setSuperBlock b k (128 * r) (romixF (superBlock b k (128 * r)) r n).1)

/-- `SCRYPT` (R227, R228) as one function: what the host derives with correct engines. -/
def scrypt (hmac : Hmac) (rMax : Nat) (q : ScryptReq) : Except HostError Bytes :=
  match scryptNums rMax q with
  | none => .error .invalidParameter
  | some m =>
    match scryptExpand hmac q m with
    | .error e => .error e
    | .ok b => scryptFinal hmac q.password (scryptMix m.r m.N 0 m.p b) m.dkLen

/-- The error the host reports for a `STATUS` value read after a command, none on success (R230). With neither `ERR` nor
`DONE` set the host returns no key either. DESIGN CHOICE (log entry 14), safe. -/
def statusError (w : Word) : Option HostError :=
  if w.getLsbD 2 then
    if w.extractLsb' 8 4 = 7#4 then some (.platformFailure 7#4) else some .invalidParameter
  else if w.getLsbD 1 then none
  else some (.platformFailure 0#4)

end Sys2Proof.Machine
end

