-- ==== Sys2Proof/Machine/HostAgent.lean ====
section
/-! DEFINITION. One step of the host: the next statement of its program (spec/30_encoding.md R97, R98), each
complete before the next (spec/70_reset_and_hazards.md R298), and the running of a derivation
(spec/44_host_kdf.md R228 to R234). -/

namespace Sys2Proof.Machine

/-! ### Pseudo-instructions (R98) -/

/-- `SALSA8 src, dst` on engine `e`. -/
def pseudoSalsa8 (p : Params) (e : Nat) (src dst : Word) : List HostStmt :=
  [.wr (p.reg e .srcAddr) src, .wr (p.reg e .dstAddr) dst, .wr (p.reg e .cmd) (encode .salsa8)]

/-- `BLOCKMIX src, dst, r` on engine `e`. -/
def pseudoBlockmix (p : Params) (e : Nat) (src dst r : Word) : List HostStmt :=
  [.wr (p.reg e .srcAddr) src, .wr (p.reg e .dstAddr) dst, .wr (p.reg e .rParam) r,
   .wr (p.reg e .cmd) (encode .blockmix)]

/-- The parameter writes of `ROMIX src, dst, v, r, n` on engine `e`. -/
def romixOperands (p : Params) (e : Nat) (src dst v r n : Word) : List HostStmt :=
  [.wr (p.reg e .srcAddr) src, .wr (p.reg e .dstAddr) dst, .wr (p.reg e .vAddr) v, .wr (p.reg e .rParam) r,
   .wr (p.reg e .nParam) n]

/-- `ROMIX src, dst, v, r, n` on engine `e`. -/
def pseudoRomix (p : Params) (e : Nat) (src dst v r n : Word) : List HostStmt :=
  romixOperands p e src dst v r n ++ [.wr (p.reg e .cmd) (encode .romix)]

/-- `WAITIDLE` on engine `e`. -/
def pseudoWaitIdle (p : Params) (e : Nat) : HostStmt := .wait (p.reg e .status) 0x00000001#32 0x00000000#32

/-- `CLRST` on engine `e`. -/
def pseudoClrst (p : Params) (e : Nat) : HostStmt := .wr (p.reg e .status) 0x0000000E#32

/-! ### The statements of a running derivation (R229, R234) -/

/-- Placing and starting SuperBlock `k` in its slot (R229), in the order of R294's step 5: the input, the parameter
registers, `BUSY` = 0 confirmed, and then the command word. -/
def slotIssue (p : Params) (m : ScryptNums) (k : Nat) (s : Slot) : List HostStmt :=
  .placeBlock k s.src.toNat (128 * m.r)
    :: romixOperands p s.engine s.src s.dst s.v (BitVec.ofNat 32 m.r) (BitVec.ofNat 32 m.N)
    ++ [pseudoWaitIdle p s.engine, .wr (p.reg s.engine .cmd) (encode .romix)]

/-- Waiting for SuperBlock `k` and reading it back (R229), then erasing its V if the host does that (R234). -/
def slotAwait (p : Params) (m : ScryptNums) (erase : Bool) (k : Nat) (s : Slot) : List HostStmt :=
  [pseudoWaitIdle p s.engine, .checkStatus (p.reg s.engine .status), .takeBlock k s.dst.toNat (128 * m.r)]
    ++ (if erase then [.eraseTable k (p.reg s.engine .status) s.v.toNat (m.N * (128 * m.r))] else [])

/-- The statements of one move of the plan; none for a SuperBlock without a slot. -/
def moveStmts (p : Params) (m : ScryptNums) (q : ScryptReq) : MixMove → List HostStmt
  | .start k =>
    match q.slots[k]? with
    | none => []
    | some s => slotIssue p m k s
  | .collect k =>
    match q.slots[k]? with
    | none => []
    | some s => slotAwait p m q.eraseV k s

/-- The mixing of all slots, in the order of the host's plan (R229). -/
def mixingStmts (p : Params) (m : ScryptNums) (q : ScryptReq) : List HostStmt := q.plan.flatMap (moveStmts p m q)

/-- `dropDerivation` where the statements before start the SuperBlocks `later`, which are not started any more and have no
table to erase. -/
def dropFrom : (later : List Nat) → List HostStmt → List HostStmt
  | _, [] => []
  | _, .finishScrypt _ _ :: rest => rest
  | later, .placeBlock k _ _ :: rest => dropFrom (k :: later) rest
  | later, .eraseTable k ref a n :: rest =>
    if later.contains k then dropFrom later rest
    else .wait ref 0x00000001#32 0x00000000#32 :: .eraseTable k ref a n :: dropFrom later rest
  | later, .wr _ _ :: rest => dropFrom later rest
  | later, .rd _ :: rest => dropFrom later rest
  | later, .wait _ _ _ :: rest => dropFrom later rest
  | later, .waitIrq _ :: rest => dropFrom later rest
  | later, .stb _ _ :: rest => dropFrom later rest
  | later, .ldb _ _ :: rest => dropFrom later rest
  | later, .deriveKeyPbkdf2 _ :: rest => dropFrom later rest
  | later, .deriveKeyScrypt _ :: rest => dropFrom later rest
  | later, .checkStatus _ :: rest => dropFrom later rest
  | later, .takeBlock _ _ _ :: rest => dropFrom later rest

/-- What is left of a program when its running derivation ends early (R230): the tables of the commands already started
are still erased, each when its engine is idle (R234), then what follows the derivation. -/
def dropDerivation (rest : List HostStmt) : List HostStmt := dropFrom [] rest

/-! ### Register transactions (R94) -/

/-- A host write of `w` to a register of engine `e`. A write to `CMD` is an instruction: a command word is decoded and
executed, any other value is submitted as the illegal word it is (R92, R96). Every other write is ignored while reset
is asserted (R290). -/
def State.regWrite (s : State) (e : Nat) (w : Word) : Reg → Host.Outcome State Fault Refusal
  | .cmd =>
    match decode w with
    | .ok i => exec i { s with target := e }
    | .error _ => { s with target := e }.submit w
  | r => s.onEngine e fun g => if g.inReset then .next s else .next (s.setEngine e (g.writeReg w r))

/-- A host read of a register of engine `e`, its value given to `f` (R39: no effect on an engine). The counter moves
past the free value of R290. -/
def State.regRead (s : State) (e : Nat) (r : Reg) (f : Word → State → State) : Host.Outcome State Fault Refusal :=
  s.onEngine e fun g => .next (f (s.regValue g r) s.drawn)

/-- A register access of the host's bus, refused where it is no `REGX` transaction (R21, U16). -/
def State.access (s : State) (ref : RegRef) (f : Nat → Reg → Host.Outcome State Fault Refusal) :
    Host.Outcome State Fault Refusal :=
  match ref.resolve s.params with
  | .error why => .refused (.hostStatement why)
  | .ok (e, off) => f e (Reg.ofOffset off)

/-! ### One statement -/

/-- A result of a statement. -/
def State.result (s : State) (r : HostResult) : State := { s with log := r :: s.log }

/-- A derivation's outcome as a result. -/
def resultOf : Except HostError Bytes → HostResult
  | .ok dk => .key dk
  | .error e => .failed e

/-- A host store of bytes at `a` (R97 `STB`). -/
def State.storeAt (s : State) (a : Nat) (bs : Bytes) : Host.Outcome State Fault Refusal :=
  if inMemory a bs.length then .next (s.hostWrite a bs) else .fault (.outsideMemory a)

/-- A host read of `n` bytes at `a`, given to `f` (R97 `LDB`). -/
def State.loadAt (s : State) (a n : Nat) (f : Bytes → State → State) : Host.Outcome State Fault Refusal :=
  if inMemory a n then .next (f (s.hostRead a n) { s with freeCount := s.freeCount + n })
  else .fault (.outsideMemory a)

/-- The table of `n` bytes at `a` overwritten with zeros (R234). A table that would leave the address space was rejected with
its command (R67) and holds nothing: no byte is written then. DESIGN CHOICE (log entry 14), safe. -/
def State.eraseTable (s : State) (a n : Nat) : State :=
  if inMemory a n then s.hostWrite a (List.replicate n 0#8) else s

/-- The start of `deriveKeyScrypt` with HMAC `hmac` in a state whose program is what follows: R227's checks, the
expansion of R228, then the mixing statements and the finalization stand before what follows. -/
def State.startScrypt (s : State) (hmac : Hmac) (q : ScryptReq) : Host.Outcome State Fault Refusal :=
  match scryptNums s.params.rMax q with
  | none => .next (s.result (.failed .invalidParameter))
  | some m =>
    match q.problem s.params with
    | some why => .refused (.hostStatement why)
    | none =>
      match scryptExpand hmac q m with
      | .error e => .next (s.result (.failed e))
      | .ok b =>
        .next { s with
          kdfB := b
          program := mixingStmts s.params m q ++ .finishScrypt q.password m.dkLen :: s.program }

/-- The statement `st` in a state whose program is what follows it. A `WAIT` that is not met puts itself back (R97). -/
def State.runStmt (s : State) (st : HostStmt) : Host.Outcome State Fault Refusal :=
  match st with
  | .wr ref imm => s.access ref fun e r => s.regWrite e imm r
  | .rd ref => s.access ref fun e r => s.regRead e r fun v t => t.result (.value v)
  | .wait ref mask val =>
    s.access ref fun e r =>
      s.regRead e r fun v t => if v &&& mask = val then t else { t with program := st :: t.program }
  | .waitIrq e =>
    match st.problem s.params with
    | some why => .refused (.hostStatement why)
    | none => s.onEngine e fun g => if g.irq then .next s else .next { s with program := st :: s.program }
  | .stb a bs => s.storeAt a bs
  | .ldb a n => s.loadAt a n fun bs t => t.result (.bytes bs)
  | .deriveKeyPbkdf2 q => .next (s.result (resultOf (deriveKeyPbkdf2 Config.hmac q)))
  | .deriveKeyScrypt q => s.startScrypt Config.hmac q
  | .placeBlock k a len => s.storeAt a (superBlock s.kdfB k len)
  | .checkStatus ref =>
    s.access ref fun e r =>
      s.regRead e r fun v t =>
        match statusError v with
        | none => t
        | some err => { t with program := dropDerivation t.program }.result (.failed err)
  | .takeBlock k a len => s.loadAt a len fun bs t => { t with kdfB := setSuperBlock t.kdfB k len bs }
  | .eraseTable _ _ a n => .next (s.eraseTable a n)
  | .finishScrypt password dkLen =>
    .next (s.result (resultOf (scryptFinal Config.hmac password s.kdfB dkLen)))

/-- One step of the host: its next statement; with none left it does nothing (R124). -/
def State.hostStep (s : State) : Host.Outcome State Fault Refusal :=
  match s.program with
  | [] => .next s
  | st :: rest => { s with program := rest }.runStmt st

end Sys2Proof.Machine
end

