-- ==== Sys2Proof/Machine/Turns.lean ====
section
/-! DEFINITION. Whose step comes next, and that step (spec/00_scope.md R12, spec/40_command_lifecycle.md R116,
spec/60_exceptions.md R270). -/

namespace Sys2Proof.Machine

/-- The turn where the schedule says nothing: an engine that runs a command moves and memory answers, else the host.
DESIGN CHOICE (log entry 3): the schedule can say every other order. -/
def State.defaultTurn (s : State) : Turn :=
  match s.engines.findIdx? (fun g => g.running) with
  | some e => .engine e .ok
  | none => .host

/-- One turn. -/
def State.takeTurn (s : State) : Turn → Host.Outcome State Fault Refusal
  | .host => s.hostStep
  | .engine e ans => s.engineStep e ans
  | .assertReset e => s.onEngine e fun g => .next (s.assertReset e g)
  | .releaseReset e => s.onEngine e fun g => .next (s.releaseReset e g)

/-- The next turn and the state whose schedule it has left. -/
def State.nextTurn (s : State) : Turn × State :=
  match s.schedule with
  | [] => (s.defaultTurn, s)
  | t :: ts => (t, { s with schedule := ts })

end Sys2Proof.Machine
end

