-- ==== Sys2Proof/Machine/Step.lean ====
section
/-! DEFINITION. One step of the whole system: the next turn is taken. The engine fetches no instructions
(spec/10_state.md R44, spec/20_memory.md R80): a command word is the data of a host write to `CMD`. -/

namespace Sys2Proof.Machine

/-- One step: one atomic step of one agent (R116, R270), or one input of the platform. -/
def step (s : State) : Host.Outcome State Fault Refusal := s.nextTurn.2.takeTurn s.nextTurn.1

/-- The command word `w` is what the next step submits: the host's next statement is its write to `CMD` of engine 0,
and the host moves next (log entry 12). -/
def State.withFetchWord (s : State) (nbits w : Nat) : State :=
  { s with
    program := .wr (s.params.reg 0 .cmd) (BitVec.ofNat 32 (w % 2 ^ nbits)) :: s.program
    schedule := .host :: s.schedule }

end Sys2Proof.Machine
end

