-- ==== Sys2Proof/Safety.lean ====
section
/-! DEFINITION. The terms in which claims about runs are made: what every step keeps (`State.Inv`), how far a
command has come (`Engine.OnTrack`, `Engine.turnsLeft`), what it moves on the port (`State.traffic`), and when a
run is over. -/

namespace Sys2Proof.Machine

/-! ### Runs -/

/-- The next `n` turns are engine `e`'s, ordinary memory answering each. -/
def State.withTurns (s : State) (e n : Nat) : State :=
  { s with schedule := List.replicate n (.engine e .ok) ++ s.schedule }

/-- A host program run has ended: no statement is left and every engine is idle (R124). -/
def State.final (s : State) : Bool := s.program.isEmpty && s.engines.all (fun g => !g.running)

/-- Engine `e` idle, with reset released: where a `CMD` write is a submission (R111). -/
def Engine.ready (g : Engine) : Bool := !g.running && !g.status.busy && !g.inReset

/-- No command that runs on any engine conflicts with a command of these latched values (R84). -/
def State.noConflict (s : State) (l : Latched) : Bool := !s.engines.any (fun o => o.running && l.conflicts o.lat)

/-! ### What stays the same -/

/-- The registers that no command writes: `IRQ_EN` and the parameter registers (R111, R112, R121). -/
structure Engine.KeepsRegs (g h : Engine) : Prop where
  irqEn : h.irqEn = g.irqEn
  srcAddr : h.srcAddr = g.srcAddr
  dstAddr : h.dstAddr = g.dstAddr
  vAddr : h.vAddr = g.vAddr
  rParam : h.rParam = g.rParam
  nParam : h.nParam = g.nParam

/-- The command an engine runs is the same, and is as far as it was (R42, R43). -/
structure Engine.KeepsCommand (g h : Engine) : Prop where
  lat : h.lat = g.lat
  phase : h.phase = g.phase
  i : h.i = g.i
  scratch : h.scratch = g.scratch
  tainted : h.tainted = g.tainted
  inReset : h.inReset = g.inReset

/-- Parameters, host program, results and working array are the same. -/
structure State.KeepsHost (s t : State) : Prop where
  params : t.params = s.params
  program : t.program = s.program
  log : t.log = s.log
  kdfB : t.kdfB = s.kdfB

/-- Every byte outside the regions reads as before. -/
def Memory.KeepsOutside (m : Memory) (rs : List Region) (m' : Memory) : Prop :=
  ∀ a, (∀ r ∈ rs, r.holds a = false) → m'.read a = m.read a

/-- R20's column of reset values, as each register reads right after reset (R292). -/
def resetReads (p : Params) : Reg → Word
  | .id => 0x53323038#32
  | .cmd => 0#32
  | .status => 0#32
  | .irqEn => 0#32
  | .srcAddr => 0#32
  | .dstAddr => 0#32
  | .vAddr => 0#32
  | .rParam => 0#32
  | .nParam => 0#32
  | .rmax => BitVec.ofNat 32 p.rMax
  | .reserved => 0#32

/-- What a register other than `CMD` and `STATUS` reads as after the host wrote `w` to it (R22, R30 to R38). -/
def readsBack (p : Params) (w : Word) : Reg → Word
  | .id => 0x53323038#32
  | .cmd => 0#32
  | .status => 0#32
  | .irqEn => w &&& 0x00000007#32
  | .srcAddr => w
  | .dstAddr => w
  | .vAddr => w
  | .rParam => w
  | .nParam => w
  | .rmax => BitVec.ofNat 32 p.rMax
  | .reserved => 0#32

/-! ### The invariant of every step -/

/-- The phase a running command may be in, by its opcode (R43, R113). -/
def Phase.fits : Phase → BitVec 4 → Bool
  | .idle, _ => false
  | .salsa, op => op = 0x1#4
  | .blockmix, op => op = 0x2#4
  | .build, op => op = 0x3#4
  | .mix, op => op = 0x3#4

/-- The loop counters and buffers of a running command are within their bounds (R41, R43, R45). -/
def Engine.SeqOk (g : Engine) : Prop :=
  match g.scratch.act with
  | .load =>
    g.phase ≠ .mix ∧ g.scratch.k < g.lat.unitWords ∧ g.scratch.copy.length = 4 * g.scratch.k
  | .snapshot =>
    g.phase = .build ∧ g.i < g.lat.n.toNat ∧ g.scratch.k < g.lat.unitWords ∧
      g.scratch.state.length = g.lat.unitLen
  | .index => g.phase = .mix ∧ g.i < g.lat.n.toNat ∧ g.scratch.state.length = g.lat.unitLen
  | .fetch =>
    g.phase = .mix ∧ g.i < g.lat.n.toNat ∧ g.scratch.j < g.lat.n.toNat ∧ g.scratch.k < g.lat.unitWords ∧
      g.scratch.copy.length = 4 * g.scratch.k ∧ g.scratch.state.length = g.lat.unitLen
  | .mixing =>
    g.scratch.copy.length = g.lat.unitLen ∧
      (g.phase ≠ .salsa →
        g.scratch.k < 2 * g.lat.r.toNat ∧ g.scratch.acc.length = 64 ∧
          g.scratch.y.length = 2 * g.lat.r.toNat ∧ (∀ b ∈ g.scratch.y, b.length = 64) ∧
          (g.phase ≠ .blockmix → g.i < g.lat.n.toNat))
  | .store =>
    g.phase ≠ .build ∧ g.scratch.k < g.lat.unitWords ∧ g.scratch.state.length = g.lat.unitLen
  | .finish => g.phase ≠ .build ∧ g.scratch.state.length = g.lat.unitLen

/-- What holds of one engine between any two steps, with `R_MAX` = `rMax`. -/
structure Engine.Ok (rMax : Nat) (g : Engine) : Prop where
  /-- `BUSY` is 1 exactly outside `IDLE` (R24, R43). -/
  busy : g.status.busy = g.running
  /-- R48. -/
  clean : g.status.busy = true → g.status.done = false ∧ g.status.err = false ∧ g.status.errCode = 0#4
  /-- `ERR_CODE` is 0 while `ERR` is 0 (R28). -/
  noCode : g.status.err = false → g.status.errCode = 0#4
  /-- `ERR_CODE` is never 8 to 15 (R263). -/
  code : g.status.errCode.toNat ≤ 7
  /-- `STATUS` describes the latest command (R111, R112, R118): it never says done and error at once. -/
  oneOutcome : (g.status.done && g.status.err) = false
  /-- While reset is asserted the engine is idle and its registers have their reset values (R290). -/
  held : g.inReset = true →
    g.phase = .idle ∧ g.status = Status.reset ∧ g.irqEn = 0#3 ∧ g.srcAddr = 0#32 ∧ g.dstAddr = 0#32 ∧
      g.vAddr = 0#32 ∧ g.rParam = 0#32 ∧ g.nParam = 0#32
  /-- A running command has passed validation (R114), and its loop is within bounds. -/
  command : g.running = true →
    validate rMax (cmdw g.lat.op) g.lat = none ∧ g.phase.fits g.lat.op = true ∧ g.SeqOk

/-- What every step keeps. -/
structure State.Inv (s : State) : Prop where
  /-- The parameters are within R5's limits. -/
  params : s.params.wf = true
  /-- Memory is in canonical form, inside the address space. -/
  mem : s.mem.wf = true
  /-- There is one engine per register window (R272). -/
  count : s.engines.length = s.params.numEngines
  engines : ∀ g ∈ s.engines, g.Ok s.params.rMax
  /-- Of two running commands that conflict, both are tainted (R84, R86). -/
  hazards : ∀ (e f : Nat) (g h : Engine), e ≠ f → s.engines[e]? = some g → s.engines[f]? = some h → g.running = true →
    h.running = true → g.lat.conflicts h.lat = true → g.tainted = true

/-! ### How far a command has come -/

/-- The SuperBlock or Block a command computes from its input (R149, R173, R195). -/
def Latched.result (l : Latched) (b : Bytes) : Bytes :=
  if l.op = 0x1#4 then salsa208 b
  else if l.op = 0x2#4 then blockMix b l.r.toNat
  else (romixF b l.r.toNat l.n.toNat).1

/-- Table slots `V[0] .. V[n-1]` in memory hold `BLOCKMIX^i` of the input (R196). -/
def Latched.slotsHold (l : Latched) (m : Memory) (b : Bytes) (n : Nat) : Prop :=
  ∀ i, i < n → m.readBytes (l.slotAddr i) l.unitLen = blockMixIter b l.r.toNat i

/-- R192's state before iteration `i` of the mix phase. -/
def Latched.mixState (l : Latched) (b : Bytes) (i : Nat) : Bytes :=
  mixLoop (buildLoop b l.r.toNat l.n.toNat).2 l.r.toNat l.n.toNat i (buildLoop b l.r.toNat l.n.toNat).1

/-- The table slot iteration `i` of the mix phase reads (R191). -/
def Latched.mixSlot (l : Latched) (b : Bytes) (i : Nat) : Nat :=
  mixIndex (l.mixState b i) l.r.toNat l.n.toNat

/-- The scratch holds R170's loop on the input `x` before iteration `k`. -/
def Scratch.mixes (c : Scratch) (x : Bytes) (r : Nat) : Prop :=
  c.copy = x ∧ { acc := c.acc, y := c.y : BmState } = bmLoop x r c.k

/-- The running command has computed from the input `b` what its rule says it has by now, in its scratch and in
memory (R149, R173, R195). -/
def Engine.OnTrack (g : Engine) (m : Memory) (b : Bytes) : Prop :=
  match g.scratch.act with
  | .load =>
    m.readBytes g.lat.src.toNat g.lat.unitLen = b ∧ g.scratch.copy = b.take (4 * g.scratch.k)
  | .snapshot =>
    g.scratch.state = blockMixIter b g.lat.r.toNat g.i ∧ g.lat.slotsHold m b g.i ∧
      m.readBytes (g.lat.slotAddr g.i) (4 * g.scratch.k) = g.scratch.state.take (4 * g.scratch.k)
  | .index => g.scratch.state = g.lat.mixState b g.i ∧ g.lat.slotsHold m b g.lat.n.toNat
  | .fetch =>
    g.scratch.state = g.lat.mixState b g.i ∧ g.lat.slotsHold m b g.lat.n.toNat ∧
      g.scratch.j = g.lat.mixSlot b g.i ∧
      g.scratch.copy = (blockMixIter b g.lat.r.toNat g.scratch.j).take (4 * g.scratch.k)
  | .mixing =>
    match g.phase with
    | .idle => False
    | .salsa => g.scratch.copy = b
    | .blockmix => g.scratch.mixes b g.lat.r.toNat
    | .build => g.scratch.mixes (blockMixIter b g.lat.r.toNat g.i) g.lat.r.toNat ∧ g.lat.slotsHold m b (g.i + 1)
    | .mix =>
      g.scratch.mixes
          (xorBytes (g.lat.mixState b g.i) (blockMixIter b g.lat.r.toNat (g.lat.mixSlot b g.i))) g.lat.r.toNat ∧
        g.lat.slotsHold m b g.lat.n.toNat
  | .store =>
    g.scratch.state = g.lat.result b ∧
      m.readBytes g.lat.dst.toNat (4 * g.scratch.k) = g.scratch.state.take (4 * g.scratch.k) ∧
      (g.lat.op = 0x3#4 → g.lat.slotsHold m b g.lat.n.toNat)
  | .finish =>
    m.readBytes g.lat.dst.toNat g.lat.unitLen = g.lat.result b ∧
      (g.lat.op = 0x3#4 → g.lat.slotsHold m b g.lat.n.toNat)

/-- The turns a whole command takes of its engine, from acceptance to completion (R119): a function of the opcode, r
and N. -/
def Latched.turns (l : Latched) : Nat :=
  if l.op = 0x1#4 then l.unitWords + 1 + l.unitWords + 1
  else if l.op = 0x2#4 then l.unitWords + 2 * l.r.toNat + l.unitWords + 1
  else
    l.unitWords + l.n.toNat * (l.unitWords + 2 * l.r.toNat) + l.n.toNat * (1 + l.unitWords + 2 * l.r.toNat)
      + l.unitWords + 1

/-- The turns from the end of iteration `i` of the mix phase to completion. -/
def Engine.mixTurnsAfter (g : Engine) (i : Nat) : Nat :=
  (g.lat.n.toNat - i) * (1 + g.lat.unitWords + 2 * g.lat.r.toNat) + g.lat.unitWords + 1

/-- The turns from the end of iteration `i` of the build phase to completion. -/
def Engine.buildTurnsAfter (g : Engine) (i : Nat) : Nat :=
  (g.lat.n.toNat - i) * (g.lat.unitWords + 2 * g.lat.r.toNat) + g.mixTurnsAfter 0

/-- The turns a running command still takes of its engine; 0 when idle (R119). -/
def Engine.turnsLeft (g : Engine) : Nat :=
  if g.running then
    match g.scratch.act with
    | .load =>
      match g.phase with
      | .idle => 0
      | .salsa => (g.lat.unitWords - g.scratch.k) + 1 + g.lat.unitWords + 1
      | .blockmix => (g.lat.unitWords - g.scratch.k) + 2 * g.lat.r.toNat + g.lat.unitWords + 1
      | .build => (g.lat.unitWords - g.scratch.k) + g.buildTurnsAfter 0
      | .mix => 0
    | .snapshot => (g.lat.unitWords - g.scratch.k) + 2 * g.lat.r.toNat + g.buildTurnsAfter (g.i + 1)
    | .index => 1 + g.lat.unitWords + 2 * g.lat.r.toNat + g.mixTurnsAfter (g.i + 1)
    | .fetch => (g.lat.unitWords - g.scratch.k) + 2 * g.lat.r.toNat + g.mixTurnsAfter (g.i + 1)
    | .mixing =>
      match g.phase with
      | .idle => 0
      | .salsa => 1 + g.lat.unitWords + 1
      | .blockmix => (2 * g.lat.r.toNat - g.scratch.k) + g.lat.unitWords + 1
      | .build => (2 * g.lat.r.toNat - g.scratch.k) + g.buildTurnsAfter (g.i + 1)
      | .mix => (2 * g.lat.r.toNat - g.scratch.k) + g.mixTurnsAfter (g.i + 1)
    | .store => (g.lat.unitWords - g.scratch.k) + 1
    | .finish => 1
  else 0

/-! ### What a command moves -/

/-- Bytes read and bytes written on the port of an engine (R85). -/
structure Traffic where
  reads : Nat
  writes : Nat
  deriving DecidableEq, Repr

/-- The bytes engine `e` moves in its next step, its memory answering. -/
def State.turnTraffic (s : State) (e : Nat) : Traffic :=
  match s.engines[e]? with
  | none => ⟨0, 0⟩
  | some g =>
    if g.running then
      match g.portOp with
      | none => ⟨0, 0⟩
      | some (.read _) => ⟨4, 0⟩
      | some (.write _ bs) => ⟨0, bs.length⟩
    else ⟨0, 0⟩

/-- The bytes engine `e` moves in its next `n` turns, ordinary memory answering (R85). -/
def State.traffic (e : Nat) : Nat → State → Traffic
  | 0, _ => ⟨0, 0⟩
  | n + 1, s =>
    match s.engineStep e .ok with
    | .next t =>
      ⟨(s.turnTraffic e).reads + (State.traffic e n t).reads, (s.turnTraffic e).writes + (State.traffic e n t).writes⟩
    | .fault _ => s.turnTraffic e
    | .refused _ => s.turnTraffic e

end Sys2Proof.Machine
end

