-- ==== Sys2Proof/Certificates/Slice0/Obligations.lean ====
section
/-! DEFINITION. The statements for the provers. Each names the rule of spec/ it formalises; where a clause rests on a
choice of the model, its docstring names the log entry (notes/assumptions/). -/

section Obligations0

open Sys2Proof Sys2Proof.Machine

/-! ### Encoding (spec/30_encoding.md) -/

/-- R91: the three command words, and no other word decodes to a command. -/
def Obligations.CommandWordsAreTheThree : Prop :=
  (encode .salsa8 = 0x00000001#32 ∧ encode .blockmix = 0x00000002#32 ∧ encode .romix = 0x00000003#32) ∧
    ∀ (w : Word) (i : Instr), decode w = .ok i ↔ w = encode i

/-- R96: decoding of every 32-bit value, by its bits [31:4] and [3:0]. -/
def Obligations.DecodingIsTotal : Prop :=
  ∀ w : Word, decode w =
    if w.toNat / 16 ≠ 0 then .error .reservedBits
    else if w.toNat % 16 = 1 then .ok .salsa8
    else if w.toNat % 16 = 2 then .ok .blockmix
    else if w.toNat % 16 = 3 then .ok .romix
    else .error (.reservedOpcode (BitVec.ofNat 4 (w.toNat % 16)))

/-- R90, R91, R92: single words, read bit by bit. A check on fixed words. -/
def Obligations.SomeWordsDecode : Prop :=
  decode 0b00000000000000000000000000000001#32 = .ok .salsa8 ∧
    decode 0b00000000000000000000000000000010#32 = .ok .blockmix ∧
    decode 0b00000000000000000000000000000011#32 = .ok .romix ∧
    decode 0x00000000#32 = .error (.reservedOpcode 0x0#4) ∧
    decode 0x0000000F#32 = .error (.reservedOpcode 0xF#4) ∧
    decode 0x00000013#32 = .error .reservedBits ∧
    decodeTableWord 32 3 = some .romix

/-- R96, R116: where the host moves next and its next statement writes a command's word to an engine's `CMD` (offset
0x04), the step is `exec` of that command, the statement and the turn taken off, the engine addressed. The turn
and `target` are the model's own (log entries 3 and 9). -/
def Obligations.StepRunsTheDecodedCommand : Prop :=
  ∀ (s : State) (ref : RegRef) (w : Word) (rest : List HostStmt) (e : Nat) (i : Instr),
    s.nextTurn.1 = .host → s.program = .wr ref w :: rest → ref.resolve s.params = .ok (e, 0x04) →
      decode w = .ok i → step s = exec i { s.nextTurn.2 with program := rest, target := e }

/-! ### Registers (spec/10_state.md) -/

/-- R20, R37, R76: every aligned word of an engine's window is reached at `REG_BASE[e]` plus its offset, the named
registers at the offsets of R20's table, and the other offsets are reserved. -/
def Obligations.RegistersStandAtTheirOffsets : Prop :=
  ∀ (p : Params) (e : Nat), p.wf = true → e < p.numEngines →
    (∀ off, off < 256 → off % 4 = 0 → RegRef.resolve p { addr := p.base e + off, size := 4 } = .ok (e, off)) ∧
    (Reg.ofOffset 0x00 = .id ∧ Reg.ofOffset 0x04 = .cmd ∧ Reg.ofOffset 0x08 = .status ∧ Reg.ofOffset 0x0C = .irqEn ∧
      Reg.ofOffset 0x10 = .srcAddr ∧ Reg.ofOffset 0x14 = .dstAddr ∧ Reg.ofOffset 0x18 = .vAddr ∧
      Reg.ofOffset 0x1C = .rParam ∧ Reg.ofOffset 0x20 = .nParam ∧ Reg.ofOffset 0x24 = .rmax) ∧
    ∀ off, 0x28 ≤ off → Reg.ofOffset off = .reserved

/-- R21: a sub-word, misaligned or wider access to a register window is refused, whatever the statement. -/
def Obligations.OtherAccessesAreRefused : Prop :=
  ∀ (s : State) (e off size : Nat) (w mask val : Word), s.params.wf = true → e < s.params.numEngines → off < 256 →
    (size ≠ 4 ∨ off % 4 ≠ 0) →
      ∃ why, s.runStmt (.wr { addr := s.params.base e + off, size := size } w) = .refused (.hostStatement why) ∧
        s.runStmt (.rd { addr := s.params.base e + off, size := size }) = .refused (.hostStatement why) ∧
        s.runStmt (.wait { addr := s.params.base e + off, size := size } mask val) = .refused (.hostStatement why)

/-- R22, R30 to R38, R42, R121: a host write to a register other than `CMD` and `STATUS`, whether or not a command runs:
what every register then reads as, that no other register and nothing of the running command changes, and that no other
part of the system does. -/
def Obligations.RegisterWritesReadBack : Prop :=
  ∀ (s : State) (e : Nat) (g : Engine) (w : Word) (r : Reg), s.engines[e]? = some g → g.inReset = false →
    r ≠ .cmd → r ≠ .status →
      ∃ h, s.regWrite e w r = .next (s.setEngine e h) ∧ h.status = g.status ∧ g.KeepsCommand h ∧
        ∀ q, h.readReg s.params q = if q = r then readsBack s.params w r else g.readReg s.params q

/-- R29: a host write to `STATUS` clears `DONE`, `ERR` with `ERR_CODE`, and `OVR` where its bits 1, 2 and 3 are 1; every
other bit of the word written is ignored, and nothing else in the system changes. A completion, an error or an overrun
ordered after the write sets its bit whatever was cleared. -/
def Obligations.StatusBitsAreClearedByOnes : Prop :=
  ∀ (s : State) (e : Nat) (g : Engine) (w : Word), s.engines[e]? = some g → g.inReset = false →
    ∃ st : Status, s.regWrite e w .status = .next (s.setEngine e { g with status := st }) ∧
      st.word = g.status.word &&& ~~~((w &&& 0x0000000E#32) ||| if w.getLsbD 2 then 0x00000F00#32 else 0#32) ∧
      st.completed.done = true ∧ (∀ c, (st.failed c).err = true ∧ (st.failed c).errCode = c.code) ∧
      st.overrun.ovr = true

/-- R24 to R28, R31, R38: the places of the fields in `STATUS` and in `IRQ_EN`, every other bit reading as 0. -/
def Obligations.StatusWordLayout : Prop :=
  (∀ t : Status,
    t.word.getLsbD 0 = t.busy ∧ t.word.getLsbD 1 = t.done ∧ t.word.getLsbD 2 = t.err ∧ t.word.getLsbD 3 = t.ovr ∧
      t.word.extractLsb' 8 4 = t.errCode ∧ t.word.extractLsb' 4 4 = 0#4 ∧ t.word.extractLsb' 12 20 = 0#20) ∧
    ∀ e : BitVec 3, (irqEnWord e).extractLsb' 0 3 = e ∧ (irqEnWord e).extractLsb' 3 29 = 0#29

/-- R39, R97: a `RD` of a register records what the register reads as and changes no engine, no memory and nothing else of the
system, only the host moves on. (While reset is asserted the value read is a free one, R290; the counter of free values is
left unsaid, log entry 4.) -/
def Obligations.ReadsHaveNoSideEffect : Prop :=
  ∀ (s : State) (e : Nat) (g : Engine) (r : Reg) (rest : List HostStmt), s.params.wf = true →
    s.engines[e]? = some g → e < s.params.numEngines → s.program = .rd (s.params.reg e r) :: rest →
      ∃ t, s.hostStep = .next t ∧ t.engines = s.engines ∧ t.mem = s.mem ∧ t.program = rest ∧
        t.log = .value (s.regValue g r) :: s.log ∧ t.params = s.params ∧ t.kdfB = s.kdfB ∧ t.schedule = s.schedule ∧
        t.target = s.target ∧ (g.inReset = false → s.regValue g r = g.readReg s.params r)

/-- R97, R39: a `WAIT` ends when the value read under the mask is the value waited for, and is repeated otherwise; neither
changes an engine or memory. -/
def Obligations.WaitRepeatsUntilMet : Prop :=
  ∀ (s : State) (e : Nat) (g : Engine) (r : Reg) (mask val : Word) (rest : List HostStmt), s.params.wf = true →
    s.engines[e]? = some g → e < s.params.numEngines → s.program = .wait (s.params.reg e r) mask val :: rest →
      ∃ t, s.hostStep = .next t ∧ t.engines = s.engines ∧ t.mem = s.mem ∧ t.log = s.log ∧
        (s.regValue g r &&& mask = val → t.program = rest) ∧
        (s.regValue g r &&& mask ≠ val → t.program = s.program)

/-- R48: while `BUSY` = 1, `DONE`, `ERR` and `ERR_CODE` are 0, so that `STATUS` reads 0x1, or 0x9 with `OVR` set. In every
state that satisfies the invariant. -/
def Obligations.BusyStatusReads : Prop :=
  ∀ (s : State) (e : Nat) (g : Engine), s.Inv → s.engines[e]? = some g → g.status.busy = true →
    g.readReg s.params .status = if g.status.ovr then 0x00000009#32 else 0x00000001#32

/-- R24: `BUSY` is 1 exactly outside `IDLE`; it rises only by the submission of a command that passes validation, and falls
only by completion, by the abort of a memory error, or by reset. -/
def Obligations.BusyRisesAndFalls : Prop :=
  ∀ (s t : State) (e : Nat) (g h : Engine), s.Inv → s.engines[e]? = some g → step s = .next t →
    t.engines[e]? = some h →
      (g.status.busy = true ↔ g.phase ≠ .idle) ∧
      (g.status.busy = false → h.status.busy = true →
        ∃ ref w i rest, s.nextTurn.1 = .host ∧ s.program = .wr ref w :: rest ∧
          ref.resolve s.params = .ok (e, 0x04) ∧ decode w = .ok i ∧ validate s.params.rMax w (g.latch w) = none) ∧
      (g.status.busy = true → h.status.busy = false →
        (∃ ans, s.nextTurn.1 = .engine e ans ∧ g.scratch.act = .finish ∧ h.status.done = true ∧ h.status.err = false) ∨
        (s.nextTurn.1 = .engine e .error ∧ g.portOp ≠ none ∧ h.status.err = true ∧ h.status.errCode = 7#4) ∨
        (s.nextTurn.1 = .assertReset e ∧ h.inReset = true))

/-- R27: `OVR` is set when the host writes `CMD` while `BUSY` = 1; a host write to `STATUS` with bit 3 = 1 and a reset clear
it, and no other step does, a submission among them. -/
def Obligations.OverrunIsSetAndCleared : Prop :=
  (∀ (s : State) (e : Nat) (g : Engine) (w : Word), s.engines[e]? = some g → g.inReset = false →
    g.status.busy = true →
      ∃ t h, s.regWrite e w .cmd = .next t ∧ t.engines[e]? = some h ∧ h.status.ovr = true) ∧
  (∀ (s : State) (e : Nat) (g : Engine) (w : Word), s.engines[e]? = some g → g.inReset = false →
    w.getLsbD 3 = true →
      ∃ t h, s.regWrite e w .status = .next t ∧ t.engines[e]? = some h ∧ h.status.ovr = false) ∧
  (∀ (s : State) (e : Nat) (g : Engine), s.engines[e]? = some g →
    ∃ t h, s.takeTurn (.assertReset e) = .next t ∧ t.engines[e]? = some h ∧ h.status.ovr = false) ∧
  ∀ (s t : State) (e : Nat) (g h : Engine), s.Inv → s.engines[e]? = some g → step s = .next t →
    t.engines[e]? = some h → g.status.ovr = true → h.status.ovr = false →
      s.nextTurn.1 = .assertReset e ∨
        ∃ ref w rest, s.nextTurn.1 = .host ∧ s.program = .wr ref w :: rest ∧
          ref.resolve s.params = .ok (e, 0x08) ∧ w.getLsbD 3 = true

/-! ### The interrupt (spec/60_exceptions.md) -/

/-- R266: the interrupt output is 1 exactly where one of `STATUS` bits [3:1] meets its enable in `IRQ_EN` bits [2:0]. It is
low after reset. -/
def Obligations.InterruptIsEnabledStatus : Prop :=
  (∀ g : Engine, g.irq = true ↔ (g.status.word >>> 1) &&& irqEnWord g.irqEn ≠ 0#32) ∧
    ∀ (p : Params) (g : Engine), g ∈ (State.resetWith p).engines → g.irq = false

/-- R267: the interrupt is removed only by a write of ones to `STATUS`, a write to `IRQ_EN`, a submission while idle, or
reset. -/
def Obligations.InterruptIsRemovedOnly : Prop :=
  ∀ (s t : State) (e : Nat) (g h : Engine), s.Inv → s.engines[e]? = some g → step s = .next t →
    t.engines[e]? = some h → g.irq = true → h.irq = false →
      s.nextTurn.1 = .assertReset e ∨
        ∃ ref w off rest, s.nextTurn.1 = .host ∧ s.program = .wr ref w :: rest ∧
          ref.resolve s.params = .ok (e, off) ∧
          ((off = 0x08 ∧ w &&& 0x0000000E#32 ≠ 0#32) ∨ (off = 0x0C ∧ w &&& 0x00000007#32 ≠ 0x00000007#32) ∨
            (off = 0x04 ∧ g.status.busy = false))

/-! ### Submission (spec/40_command_lifecycle.md) -/

/-- R110: any word written to `CMD` while `BUSY` = 1 sets `OVR`, and nothing else changes. -/
def Obligations.CommandWhileBusyIsDropped : Prop :=
  ∀ (s : State) (e : Nat) (g : Engine) (w : Word), s.engines[e]? = some g → g.inReset = false →
    g.status.busy = true →
      ∃ t, s.regWrite e w .cmd = .next t ∧
        t.engines = s.engines.set e { g with status := { g.status with ovr := true } } ∧ t.mem = s.mem ∧
        s.KeepsHost t ∧ t.schedule = s.schedule

/-- R114, R264: `Validate` gives the first failing check in the order `ILLEGAL_CMD`, `BAD_R`, `BAD_N`, `ALIGN`, `RANGE`,
`OVERLAP`, in exact arithmetic. -/
def Obligations.ValidationIsTheFirstFailingCheck : Prop :=
  ∀ (rMax : Nat) (w : Word) (l : Latched), l.op = opField w →
    ∀ (L : Nat) (legal rOk nOk aligned inRange apart : Prop),
      (L = if w.toNat % 16 = 1 then 64 else 128 * l.r.toNat) →
      (legal ↔ w.toNat = 1 ∨ w.toNat = 2 ∨ w.toNat = 3) →
      (rOk ↔ w.toNat = 1 ∨ (l.r.toNat ≠ 0 ∧ l.r.toNat ≤ rMax)) →
      (nOk ↔ w.toNat ≠ 3 ∨ (isPow2 l.n = true ∧ 2 ≤ l.n.toNat ∧ l.n.toNat < 2 ^ (16 * l.r.toNat))) →
      (aligned ↔ l.src.toNat % 4 = 0 ∧ l.dst.toNat % 4 = 0 ∧ (w.toNat = 3 → l.v.toNat % 4 = 0)) →
      (inRange ↔ l.src.toNat + L ≤ 2 ^ 32 ∧ l.dst.toNat + L ≤ 2 ^ 32 ∧
        (w.toNat = 3 → l.v.toNat + l.n.toNat * L ≤ 2 ^ 32)) →
      (apart ↔ (l.src = l.dst ∨ l.src.toNat + L ≤ l.dst.toNat ∨ l.dst.toNat + L ≤ l.src.toNat) ∧
        (w.toNat = 3 →
          (l.v.toNat + l.n.toNat * L ≤ l.src.toNat ∨ l.src.toNat + L ≤ l.v.toNat) ∧
            (l.v.toNat + l.n.toNat * L ≤ l.dst.toNat ∨ l.dst.toNat + L ≤ l.v.toNat))) →
      (¬legal → validate rMax w l = some .illegalCmd) ∧
      (legal → ¬rOk → validate rMax w l = some .badR) ∧
      (legal → rOk → ¬nOk → validate rMax w l = some .badN) ∧
      (legal → rOk → nOk → ¬aligned → validate rMax w l = some .align) ∧
      (legal → rOk → nOk → aligned → ¬inRange → validate rMax w l = some .range) ∧
      (legal → rOk → nOk → aligned → inRange → ¬apart → validate rMax w l = some .overlap) ∧
      (legal → rOk → nOk → aligned → inRange → apart → validate rMax w l = none)

/-- R115: `IsPow2`, and the N it leaves legal: 2^1 to 2^31, for r = 1 only to 2^15, for r of at least 2 all of them; N = 15 gives `BAD_N`. -/
def Obligations.LegalNAreThePowersOfTwo : Prop :=
  (∀ n : Word, isPow2 n = true ↔ n ≠ 0#32 ∧ n &&& (n - 1#32) = 0#32) ∧
    (∀ n : Word, isPow2 n = true ∧ 2 ≤ n.toNat ↔ ∃ k, 1 ≤ k ∧ k ≤ 31 ∧ n.toNat = 2 ^ k) ∧
    (∀ k, 1 ≤ k → k ≤ 31 → (2 ^ k < 2 ^ (16 * 1) ↔ k ≤ 15)) ∧
    (∀ (n r : Word), 2 ≤ r.toNat → n.toNat < 2 ^ (16 * r.toNat)) ∧
    ∀ (rMax : Nat) (l : Latched), l.op = 0x3#4 → 1 ≤ l.r.toNat → l.r.toNat ≤ rMax → l.n = 15#32 →
      validate rMax 0x00000003#32 l = some .badN

/-- R112, R111, R70: a `CMD` write of any word that fails validation, on an idle engine: the code is recorded, the
latest command's flags are cleared, the operands are latched; `OVR`, the other registers, the phase and all of
memory are as they were, and so is everything else. -/
def Obligations.RejectedSubmissionOnlyRecordsItsCode : Prop :=
  ∀ (s : State) (e : Nat) (g : Engine) (w : Word) (c : ErrCode), s.Inv → s.engines[e]? = some g → g.ready = true →
    validate s.params.rMax w (g.latch w) = some c →
      ∃ t, s.regWrite e w .cmd = .next t ∧
        t.engines = s.engines.set e
          { g with
            status := { busy := false, done := false, err := true, ovr := g.status.ovr, errCode := c.code }
            lat :=
              { op := w.extractLsb' 0 4, src := g.srcAddr, dst := g.dstAddr, v := g.vAddr, r := g.rParam,
                n := g.nParam } } ∧
        t.mem = s.mem ∧ s.KeepsHost t ∧ t.schedule = s.schedule

/-- R92: submitting a word that is none of the three, while idle, is rejected with `ILLEGAL_CMD`: `STATUS` says so, no
register and no byte of memory changes, the engine stays idle, and neither the other engines nor the host notice. -/
def Obligations.IllegalWordsAreRejected : Prop :=
  ∀ (s : State) (e : Nat) (g : Engine) (w : Word), s.Inv → s.engines[e]? = some g → g.ready = true →
    (w.toNat % 16 ≠ 1 ∧ w.toNat % 16 ≠ 2 ∧ w.toNat % 16 ≠ 3 ∨ w.toNat / 16 ≠ 0) →
      ∃ t h, s.regWrite e w .cmd = .next t ∧ t.engines = s.engines.set e h ∧ h.phase = .idle ∧
        h.readReg s.params .status = (if g.status.ovr then 0x0000010C#32 else 0x00000104#32) ∧ g.KeepsRegs h ∧
        t.mem = s.mem ∧ s.KeepsHost t ∧ t.schedule = s.schedule

/-- R84, R111, R113: a valid submission completes as one step, whatever else runs: `exec` answers a next state, the engine is
busy with the command and its flags cleared, its operands latched; no register, no memory byte and nothing of the host changes.
A running command that conflicts with the new one is tainted with it, every other engine is as it was (log entry 7). -/
def Obligations.ValidSubmissionIsAccepted : Prop :=
  ∀ (i : Instr) (s : State) (g : Engine), s.Inv → s.engines[s.target]? = some g → g.ready = true →
    validate s.params.rMax (encode i) (g.latch (encode i)) = none →
      ∃ t h, exec i s = .next t ∧ t.engines[s.target]? = some h ∧
        h.status = { busy := true, done := false, err := false, ovr := g.status.ovr, errCode := 0#4 } ∧
        h.lat = { op := i.op, src := g.srcAddr, dst := g.dstAddr, v := g.vAddr, r := g.rParam, n := g.nParam } ∧
        h.phase = (match i with | .salsa8 => .salsa | .blockmix => .blockmix | .romix => .build) ∧ h.i = 0 ∧
        g.KeepsRegs h ∧ t.mem = s.mem ∧ s.KeepsHost t ∧ t.schedule = s.schedule ∧
        (h.tainted = true ↔ ∃ o ∈ s.engines, o.running = true ∧ h.lat.conflicts o.lat = true) ∧
        ∀ (f : Nat) (o : Engine), f ≠ s.target → s.engines[f]? = some o →
          t.engines[f]? = some (if o.running = true ∧ h.lat.conflicts o.lat = true then { o with tainted := true } else o)

/-! ### The commands: SALSA8, BLOCKMIX, ROMIX -/

/-- R149: `SALSA8` on every valid pair of addresses, the in-place form included: its submission answers a next state, and
the engine's turns then bring it to completion, with `SALSA208` of the `SRC` Block in `DST`. The frame: every other byte, every
other register and `STATUS` bit, every other engine and the host are as before. Turns are the model's (log entry 6). -/
def Obligations.Salsa8ComputesTheBlock : Prop :=
  ∀ (s : State) (g : Engine), s.Inv → s.engines[s.target]? = some g → g.ready = true →
    s.noConflict (g.latch (encode .salsa8)) = true →
    g.srcAddr.toNat % 4 = 0 → g.dstAddr.toNat % 4 = 0 →
    g.srcAddr.toNat + 64 ≤ 2 ^ 32 → g.dstAddr.toNat + 64 ≤ 2 ^ 32 →
    (g.srcAddr = g.dstAddr ∨ g.srcAddr.toNat + 64 ≤ g.dstAddr.toNat ∨ g.dstAddr.toNat + 64 ≤ g.srcAddr.toNat) →
      ∃ t c k u h,
        exec .salsa8 s = .next t ∧
        t = s.setEngine s.target
          { g with
            status := { busy := true, done := false, err := false, ovr := g.status.ovr, errCode := 0#4 }
            lat := { op := 0x1#4, src := g.srcAddr, dst := g.dstAddr, v := g.vAddr, r := g.rParam, n := g.nParam }
            phase := .salsa, i := 0, tainted := false, scratch := c } ∧
        core.run k (t.withTurns s.target k) = .next u ∧
        u.engines = s.engines.set s.target h ∧ h.phase = .idle ∧ g.KeepsRegs h ∧
        h.status = { busy := false, done := true, err := false, ovr := g.status.ovr, errCode := 0#4 } ∧
        u.mem.readBytes g.dstAddr.toNat 64 = salsa208 (s.mem.readBytes g.srcAddr.toNat 64) ∧
        s.mem.KeepsOutside [⟨g.dstAddr.toNat, 64⟩] u.mem ∧ s.KeepsHost u ∧ u.schedule = s.schedule

/-- R173: `BLOCKMIX` on every valid r and pair of addresses, the in-place form included: as for `SALSA8`, with
`BLOCKMIX(B, r)` of the `SRC` SuperBlock in `DST`. Turns are the model's (log entry 6). -/
def Obligations.BlockmixComputesTheSuperBlock : Prop :=
  ∀ (s : State) (g : Engine) (L : Nat), s.Inv → s.engines[s.target]? = some g → g.ready = true →
    s.noConflict (g.latch (encode .blockmix)) = true →
    1 ≤ g.rParam.toNat → g.rParam.toNat ≤ s.params.rMax → L = 128 * g.rParam.toNat →
    g.srcAddr.toNat % 4 = 0 → g.dstAddr.toNat % 4 = 0 →
    g.srcAddr.toNat + L ≤ 2 ^ 32 → g.dstAddr.toNat + L ≤ 2 ^ 32 →
    (g.srcAddr = g.dstAddr ∨ g.srcAddr.toNat + L ≤ g.dstAddr.toNat ∨ g.dstAddr.toNat + L ≤ g.srcAddr.toNat) →
      ∃ t c k u h,
        exec .blockmix s = .next t ∧
        t = s.setEngine s.target
          { g with
            status := { busy := true, done := false, err := false, ovr := g.status.ovr, errCode := 0#4 }
            lat := { op := 0x2#4, src := g.srcAddr, dst := g.dstAddr, v := g.vAddr, r := g.rParam, n := g.nParam }
            phase := .blockmix, i := 0, tainted := false, scratch := c } ∧
        core.run k (t.withTurns s.target k) = .next u ∧
        u.engines = s.engines.set s.target h ∧ h.phase = .idle ∧ g.KeepsRegs h ∧
        h.status = { busy := false, done := true, err := false, ovr := g.status.ovr, errCode := 0#4 } ∧
        u.mem.readBytes g.dstAddr.toNat L = blockMix (s.mem.readBytes g.srcAddr.toNat L) g.rParam.toNat ∧
        s.mem.KeepsOutside [⟨g.dstAddr.toNat, L⟩] u.mem ∧ s.KeepsHost u ∧ u.schedule = s.schedule

/-- R195, R196, R68: `ROMIX` on every valid r, N and addresses, the in-place form included: as for `BLOCKMIX`, with the output
of `ROMIX_F(B, r, N)` in `DST` and `BLOCKMIX^i(B)` in every table slot `V[i]`. Turns are the model's (log entry 6). -/
def Obligations.RomixComputesTheSuperBlockAndTheTable : Prop :=
  ∀ (s : State) (g : Engine) (L N : Nat), s.Inv → s.engines[s.target]? = some g → g.ready = true →
    s.noConflict (g.latch (encode .romix)) = true →
    1 ≤ g.rParam.toNat → g.rParam.toNat ≤ s.params.rMax → L = 128 * g.rParam.toNat →
    N = g.nParam.toNat → (∃ k, N = 2 ^ k) → 2 ≤ N → N < 2 ^ (16 * g.rParam.toNat) →
    g.srcAddr.toNat % 4 = 0 → g.dstAddr.toNat % 4 = 0 → g.vAddr.toNat % 4 = 0 →
    g.srcAddr.toNat + L ≤ 2 ^ 32 → g.dstAddr.toNat + L ≤ 2 ^ 32 → g.vAddr.toNat + N * L ≤ 2 ^ 32 →
    (g.srcAddr = g.dstAddr ∨ g.srcAddr.toNat + L ≤ g.dstAddr.toNat ∨ g.dstAddr.toNat + L ≤ g.srcAddr.toNat) →
    (g.vAddr.toNat + N * L ≤ g.srcAddr.toNat ∨ g.srcAddr.toNat + L ≤ g.vAddr.toNat) →
    (g.vAddr.toNat + N * L ≤ g.dstAddr.toNat ∨ g.dstAddr.toNat + L ≤ g.vAddr.toNat) →
      ∃ t c k u h,
        exec .romix s = .next t ∧
        t = s.setEngine s.target
          { g with
            status := { busy := true, done := false, err := false, ovr := g.status.ovr, errCode := 0#4 }
            lat := { op := 0x3#4, src := g.srcAddr, dst := g.dstAddr, v := g.vAddr, r := g.rParam, n := g.nParam }
            phase := .build, i := 0, tainted := false, scratch := c } ∧
        core.run k (t.withTurns s.target k) = .next u ∧
        u.engines = s.engines.set s.target h ∧ h.phase = .idle ∧ g.KeepsRegs h ∧
        h.status = { busy := false, done := true, err := false, ovr := g.status.ovr, errCode := 0#4 } ∧
        u.mem.readBytes g.dstAddr.toNat L = (romixF (s.mem.readBytes g.srcAddr.toNat L) g.rParam.toNat N).1 ∧
        (∀ i, i < N → u.mem.readBytes (g.vAddr.toNat + i * L) L =
          blockMixIter (s.mem.readBytes g.srcAddr.toNat L) g.rParam.toNat i) ∧
        s.mem.KeepsOutside [⟨g.dstAddr.toNat, L⟩, ⟨g.vAddr.toNat, N * L⟩] u.mem ∧ s.KeepsHost u ∧
        u.schedule = s.schedule

/-- R123, R93: what a command leaves in `DST`, and a `ROMIX` in `V`, depends on the opcode, on the operands it reads
among r and N, and on the `SRC` bytes at acceptance alone: not on the addresses, the engine, or anything else in the two
systems. -/
def Obligations.ResultsDependOnTheInputAlone : Prop :=
  ∀ (i : Instr) (s₁ s₂ : State) (g₁ g₂ : Engine) (l₁ l₂ : Latched),
    s₁.Inv → s₂.Inv → s₁.engines[s₁.target]? = some g₁ → s₂.engines[s₂.target]? = some g₂ →
    g₁.ready = true → g₂.ready = true → l₁ = g₁.latch (encode i) → l₂ = g₂.latch (encode i) →
    validate s₁.params.rMax (encode i) l₁ = none → validate s₂.params.rMax (encode i) l₂ = none →
    s₁.noConflict l₁ = true → s₂.noConflict l₂ = true →
    (i ≠ .salsa8 → g₁.rParam = g₂.rParam) → (i = .romix → g₁.nParam = g₂.nParam) →
    s₁.mem.readBytes l₁.src.toNat l₁.unitLen = s₂.mem.readBytes l₂.src.toNat l₂.unitLen →
      ∃ k t₁ t₂ u₁ u₂, exec i s₁ = .next t₁ ∧ exec i s₂ = .next t₂ ∧
        core.run k (t₁.withTurns s₁.target k) = .next u₁ ∧ core.run k (t₂.withTurns s₂.target k) = .next u₂ ∧
        (∃ h₁ h₂, u₁.engines[s₁.target]? = some h₁ ∧ u₂.engines[s₂.target]? = some h₂ ∧
          h₁.status.done = true ∧ h₂.status.done = true) ∧
        u₁.mem.readBytes l₁.dst.toNat l₁.unitLen = u₂.mem.readBytes l₂.dst.toNat l₂.unitLen ∧
        (i = .romix → u₁.mem.readBytes l₁.v.toNat (l₁.n.toNat * l₁.unitLen) =
          u₂.mem.readBytes l₂.v.toNat (l₂.n.toNat * l₂.unitLen))

/-! ### Running commands (spec/20_memory.md, spec/40_command_lifecycle.md) -/

/-- R71, R118, R75: whatever agent moves, a running command that no hazard has met either stays on track for the input it was
accepted with, or completes with `DST` and `V` holding what its rule computes from that input, or is aborted by a memory
error, or is abandoned by reset. A step that breaks the hazard rule marks it (log entry 7). -/
def Obligations.RunningCommandStaysOnTrack : Prop :=
  ∀ (s t : State) (e : Nat) (g : Engine) (b : Bytes), s.Inv → s.engines[e]? = some g → g.running = true →
    g.tainted = false → g.OnTrack s.mem b → step s = .next t →
      ∃ h, t.engines[e]? = some h ∧
        ((h.running = true ∧ h.lat = g.lat ∧ (h.tainted = false → h.OnTrack t.mem b)) ∨
          (h.running = false ∧ h.inReset = false ∧ h.status.done = true ∧ h.status.err = false ∧
            t.mem.readBytes g.lat.dst.toNat g.lat.unitLen = g.lat.result b ∧
            (g.lat.op = 0x3#4 → g.lat.slotsHold t.mem b g.lat.n.toNat)) ∨
          (h.running = false ∧ h.inReset = false ∧ h.status.err = true ∧ h.status.errCode = 7#4) ∨
          (h.running = false ∧ h.inReset = true))

/-- R118: the completion of a command, one step: `IDLE`, `BUSY` 0, `DONE` 1, `ERR` and `ERR_CODE` still 0, `OVR` and every
register as they were. Memory is as the last write left it; after a hazard every byte of `DST` and `V` is a free value, and
no other byte differs (R86; log entries 4 and 7). -/
def Obligations.CompletionIsOneStep : Prop :=
  ∀ (s : State) (e : Nat) (g : Engine) (ans : Answer), s.Inv → s.engines[e]? = some g → g.running = true →
    g.scratch.act = .finish →
      ∃ t h, s.engineStep e ans = .next t ∧ t.engines = s.engines.set e h ∧ h.phase = .idle ∧
        h.status = { busy := false, done := true, err := false, ovr := g.status.ovr, errCode := 0#4 } ∧
        g.KeepsRegs h ∧ s.KeepsHost t ∧ (g.tainted = false → t.mem = s.mem) ∧
        (g.tainted = true → ∀ r ∈ g.lat.writeRegions, ∀ a, r.holds a = true → ∃ n, t.mem.read a = Config.freeByte n) ∧
        s.mem.KeepsOutside g.lat.writeRegions t.mem

/-- R119: where memory answers, every turn of a running engine brings it one turn nearer to completion, and the turns left are at
most a number that the opcode, r and N alone give; at 0 the command has ended. The turn count is the model's (log
entry 6). -/
def Obligations.EveryTurnBringsTheCommandNearer : Prop :=
  ∀ (s : State) (e : Nat) (g : Engine), s.Inv → s.engines[e]? = some g → g.running = true →
    g.turnsLeft ≤ g.lat.turns ∧
      ∃ t h, s.engineStep e .ok = .next t ∧ t.engines[e]? = some h ∧ h.turnsLeft + 1 = g.turnsLeft ∧
        (h.turnsLeft = 0 ↔ h.running = false)

/-- R70, R65, R62: the port of a running engine reads only words of `SRC` and (`ROMIX`) `V`, writes only words of `DST` and
(`ROMIX`) `V`, four bytes at a multiple of 4; whatever the memory answers, every byte outside `DST` and `V` stays; and
a host register access, a rejected command among them, changes no byte. -/
def Obligations.CommandsTouchOnlyTheirRegions : Prop :=
  (∀ (s : State) (e : Nat) (g : Engine), s.Inv → s.engines[e]? = some g → g.running = true →
    (∀ a, g.portOp = some (.read a) → a % 4 = 0 ∧
      ((g.lat.src.toNat ≤ a ∧ a + 4 ≤ g.lat.src.toNat + g.lat.unitLen) ∨
        (g.lat.op = 0x3#4 ∧ g.lat.v.toNat ≤ a ∧ a + 4 ≤ g.lat.v.toNat + g.lat.n.toNat * g.lat.unitLen))) ∧
    (∀ a bs, g.portOp = some (.write a bs) → a % 4 = 0 ∧ bs.length = 4 ∧
      ((g.lat.dst.toNat ≤ a ∧ a + 4 ≤ g.lat.dst.toNat + g.lat.unitLen) ∨
        (g.lat.op = 0x3#4 ∧ g.lat.v.toNat ≤ a ∧ a + 4 ≤ g.lat.v.toNat + g.lat.n.toNat * g.lat.unitLen))) ∧
    ∀ ans, ∃ t, s.engineStep e ans = .next t ∧ s.mem.KeepsOutside g.lat.writeRegions t.mem) ∧
  ∀ (s t : State) (e : Nat) (w : Word) (r : Reg), s.Inv → s.regWrite e w r = .next t → t.mem = s.mem

/-- R85: the bytes a command reads and writes from acceptance to completion. The turn count is the model's (log entry 6). -/
def Obligations.BytesMovedPerCommand : Prop :=
  ∀ (i : Instr) (s : State) (g : Engine) (R N : Nat), s.Inv → s.engines[s.target]? = some g → g.ready = true →
    validate s.params.rMax (encode i) (g.latch (encode i)) = none → R = 128 * g.rParam.toNat → N = g.nParam.toNat →
      ∃ t, exec i s = .next t ∧
        State.traffic s.target (g.latch (encode i)).turns t =
          match i with
          | .salsa8 => { reads := 64, writes := 64 }
          | .blockmix => { reads := R, writes := R }
          | .romix => { reads := R + N * R, writes := N * R + R }

/-- R86, R84: a host store that meets a region of a running command marks it and changes no byte outside those stored; while the
command runs, a host read of a byte of `DST` or `V` returns a free value, of any other byte the memory's. (That the marked command
still completes, with only `DST` and `V` unspecified, is CompletionIsOneStep.) The mark is the model's (log entry 7). -/
def Obligations.HazardsMakeContentsUnspecified : Prop :=
  ∀ (s : State) (e : Nat) (g : Engine), s.Inv → s.engines[e]? = some g → g.running = true →
    (∀ (a : Nat) (bs : Bytes), a + bs.length ≤ 2 ^ 32 →
      ∃ t h, s.storeAt a bs = .next t ∧ t.engines[e]? = some h ∧ h.lat = g.lat ∧ h.running = true ∧
        s.mem.KeepsOutside [⟨a, bs.length⟩] t.mem ∧
        ((∃ r ∈ g.lat.regions, ∃ x, r.holds x = true ∧ a ≤ x ∧ x < a + bs.length) → h.tainted = true)) ∧
    (∀ a n k, k < n → (∃ r ∈ g.lat.writeRegions, r.holds (a + k) = true) →
      (s.hostRead a n)[k]? = some (Config.freeByte (s.freeCount + k))) ∧
    ∀ a n k, k < n → (∀ o ∈ s.engines, o.running = true → ∀ r ∈ o.lat.writeRegions, r.holds (a + k) = false) →
      (s.hostRead a n)[k]? = some (s.mem.read (a + k))

/-- R265: a memory error on a transfer aborts the command: one step to `IDLE` with `BUSY` 0, `ERR` 1, `ERR_CODE` 7, `DONE` still
0; every byte of `DST` and `V` is a free value, memory outside them is unchanged, `SRC` too unless `SRC` = `DST`; no further
transfer follows. -/
def Obligations.MemoryErrorAborts : Prop :=
  ∀ (s : State) (e : Nat) (g : Engine), s.Inv → s.engines[e]? = some g → g.running = true → g.portOp ≠ none →
    ∃ t h, s.engineStep e .error = .next t ∧ t.engines = s.engines.set e h ∧ h.phase = .idle ∧
      h.status = { busy := false, done := false, err := true, ovr := g.status.ovr, errCode := 7#4 } ∧
      g.KeepsRegs h ∧ s.KeepsHost t ∧ s.mem.KeepsOutside g.lat.writeRegions t.mem ∧
      (∀ r ∈ g.lat.writeRegions, ∀ a, r.holds a = true → ∃ n, t.mem.read a = Config.freeByte n) ∧
      (g.lat.src ≠ g.lat.dst →
        t.mem.readBytes g.lat.src.toNat g.lat.unitLen = s.mem.readBytes g.lat.src.toNat g.lat.unitLen) ∧
      ∀ ans, t.engineStep e ans = .next t

/-- R272, R84: engines share memory and nothing else: a step or a reset of engine `e` leaves every other engine as it was, and a
register write to `e` leaves every other engine as it was but for the mark of a hazard (log entry 7). -/
def Obligations.EnginesShareOnlyMemory : Prop :=
  ∀ (s t : State) (e f : Nat) (o : Engine), e ≠ f → s.engines[f]? = some o →
    (∀ ans, s.engineStep e ans = .next t → t.engines[f]? = some o) ∧
    (s.takeTurn (.assertReset e) = .next t → t.engines[f]? = some o) ∧
    (s.takeTurn (.releaseReset e) = .next t → t.engines[f]? = some o) ∧
    ∀ w r, s.regWrite e w r = .next t → t.engines[f]? = some o ∨ t.engines[f]? = some { o with tainted := true }

/-! ### Reset (spec/70_reset_and_hazards.md) -/

/-- R290: asserting an engine's reset gives every register its reset value, `IDLE`, and a low interrupt; a running command is
abandoned with every byte of `DST` and `V` a free value, memory outside them (and `SRC` unless `SRC` = `DST`) unchanged, all of
memory if none ran; while reset is asserted the engine makes no transfer, register writes are ignored and reads are free values. -/
def Obligations.ResetAbandonsAndClears : Prop :=
  ∀ (s : State) (e : Nat) (g : Engine), s.Inv → s.engines[e]? = some g →
    ∃ t h, s.takeTurn (.assertReset e) = .next t ∧ t.engines = s.engines.set e h ∧ h.inReset = true ∧
      (∀ r, h.readReg s.params r = resetReads s.params r) ∧ h.phase = .idle ∧ h.irq = false ∧ s.KeepsHost t ∧
      s.mem.KeepsOutside g.lat.writeRegions t.mem ∧ (g.running = false → t.mem = s.mem) ∧
      (g.running = true →
        ∀ r ∈ g.lat.writeRegions, ∀ a, r.holds a = true → ∃ n, t.mem.read a = Config.freeByte n) ∧
      (g.running = true → g.lat.src ≠ g.lat.dst →
        t.mem.readBytes g.lat.src.toNat g.lat.unitLen = s.mem.readBytes g.lat.src.toNat g.lat.unitLen) ∧
      (∀ ans, t.engineStep e ans = .next t) ∧
      (∀ w r, ∃ t', t.regWrite e w r = .next t' ∧ t'.engines = t.engines ∧ t'.mem = t.mem) ∧
      ∀ r, t.regValue h r = Config.freeWord t.freeCount

/-- R292: after reset every engine of every platform is idle, `ID` reads `ID_VALUE`, `RMAX` reads `R_MAX`, every other
register reads 0, `IRQ_EN` masks everything, and an engine does nothing until `CMD` is written; the release of reset itself
starts nothing. -/
def Obligations.NothingStartsAtReset : Prop :=
  (∀ (p : Params) (e : Nat), e < p.numEngines →
    ∃ g, (State.resetWith p).engines[e]? = some g ∧ g.ready = true ∧ g.irqEn = 0#3 ∧ g.irq = false ∧
      (∀ r, g.readReg p r = resetReads p r) ∧
      ∀ ans, (State.resetWith p).engineStep e ans = .next (State.resetWith p)) ∧
  ∀ (s : State) (e : Nat) (g : Engine), s.Inv → s.engines[e]? = some g → g.inReset = true →
    ∃ t h, s.takeTurn (.releaseReset e) = .next t ∧ t.mem = s.mem ∧ t.engines = s.engines.set e h ∧ h.ready = true ∧
      (∀ r, h.readReg s.params r = resetReads s.params r) ∧ ∀ ans, t.engineStep e ans = .next t

/-- R293: the first command after reset, on every platform: a `BLOCKMIX` or `ROMIX` word is rejected with `BAD_R`
(`STATUS` = 0x204), a `SALSA8` word runs with `SRC` = `DST` = 0. -/
def Obligations.FirstCommandAfterReset : Prop :=
  ∀ (p : Params) (e : Nat) (w : Word), p.wf = true → e < p.numEngines →
    ∃ t h, (State.resetWith p).regWrite e w .cmd = .next t ∧ t.engines[e]? = some h ∧
      (w = encode .blockmix ∨ w = encode .romix → h.status.word = 0x00000204#32) ∧
      (w = encode .salsa8 → h.status.word = 0x00000001#32 ∧ h.lat.src = 0#32 ∧ h.lat.dst = 0#32)

/-! ### The invariant -/

/-- Every step of the system, of any agent, keeps the invariant `State.Inv`: parameters legal (R5), memory in canonical form,
`STATUS` as R24, R28, R48 and R263 say, reset as R290 says, running commands valid and within their loops' bounds (R43, R114), and
conflicting commands marked (R84). -/
def Obligations.StepKeepsTheInvariant : Prop :=
  ∀ s t : State, s.Inv → step s = .next t → t.Inv

/-- R272, R292, R293: the invariant holds right after reset on every platform with legal parameters, `State.reset` among them. -/
def Obligations.ResetHasTheInvariant : Prop :=
  (∀ p : Params, p.wf = true → (State.resetWith p).Inv) ∧ State.reset.Inv

/-! ### The computing units (spec/41_salsa208.md, spec/42_blockmix.md, spec/43_romix.md) -/

/-- R140, R142, R7: `add32` wraps at 2^32, and `rotl32` moves bit n of its operand to bit (n + k) mod 32, for every k from 1
to 31, the four constants of the schedule among them. -/
def Obligations.WordOperations : Prop :=
  (∀ a b : Word, (add32 a b).toNat = (a.toNat + b.toNat) % 2 ^ 32) ∧
    ∀ (v : Word) (k n : Nat), 1 ≤ k → k ≤ 31 → n < 32 →
      (rotl32 v k).getLsbD ((n + k) % 32) = v.getLsbD n

/-- R143: a quarter step changes one word, by the rule; in a line each step reads what the steps before it left; and in every
step of the two tables destination and sources are three different words, the rotation one of 7, 9, 13, 18. -/
def Obligations.QuarterStepsFollowTheRule : Prop :=
  (∀ (x : Words) (q : Quarter) (k : Fin 16),
    (quarterStep x q)[k] = if k = q.d then x[q.d] ^^^ rotl32 (add32 x[q.a] x[q.b]) q.k else x[k]) ∧
    (∀ (x : Words) (q : Quarter) (qs : List Quarter), quarterRound x (q :: qs) = quarterRound (quarterStep x q) qs) ∧
    ∀ q ∈ (columnLines ++ rowLines).flatten,
      q.d ≠ q.a ∧ q.d ≠ q.b ∧ q.a ≠ q.b ∧ (q.k = 7 ∨ q.k = 9 ∨ q.k = 13 ∨ q.k = 18)

/-- R147: a double round is the column round, then the row round, and Salsa20/8 applies it four times; the four lines of a
round may be computed in any order. -/
def Obligations.LinesOfARoundCommute : Prop :=
  (∀ x : Words, doubleRound x = rowRound (columnRound x)) ∧
    (∀ x : Words, salsaRounds x = doubleRound (doubleRound (doubleRound (doubleRound x)))) ∧
    (∀ (x : Words) (ls : List (List Quarter)), ls.Perm columnLines → ls.foldl quarterRound x = columnRound x) ∧
    ∀ (x : Words) (ls : List (List Quarter)), ls.Perm rowLines → ls.foldl quarterRound x = rowRound x

/-- R10: the value of four bytes, and that `Words` and `Bytes` are each other's inverse. -/
def Obligations.WordsAndBytesAreInverse : Prop :=
  (∀ b0 b1 b2 b3 : Byte, (le32 b0 b1 b2 b3).toNat =
    b0.toNat + 256 * b1.toNat + 65536 * b2.toNat + 16777216 * b3.toNat) ∧
    (∀ (b : Bytes) (k : Fin 16), (wordsOf b)[k] =
      le32 (b.getD (4 * k.val) 0#8) (b.getD (4 * k.val + 1) 0#8) (b.getD (4 * k.val + 2) 0#8)
        (b.getD (4 * k.val + 3) 0#8)) ∧
    (∀ w : Words, wordsOf (bytesOf w) = w) ∧ ∀ b : Bytes, b.length = 64 → bytesOf (wordsOf b) = b

/-- R148: word k of `SALSA208` of a Block is the word after four double rounds plus the input's word, mod 2^32; and a zero Block
gives a zero Block. -/
def Obligations.Salsa208IsRoundsAndFeedForward : Prop :=
  (∀ (b : Bytes) (k : Fin 16), b.length = 64 →
    (salsa208 b).length = 64 ∧
      (wordsOf (salsa208 b))[k] =
        add32 (doubleRound (doubleRound (doubleRound (doubleRound (wordsOf b)))))[k] (wordsOf b)[k]) ∧
    salsa208 (List.replicate 64 0#8) = List.replicate 64 0#8

/-- R170, R171, R172: the chain of 2r Salsa results of a BlockMix, and the places they take in its output. -/
def Obligations.BlockmixChainsAndInterleaves : Prop :=
  ∀ (b : Bytes) (r : Nat), 1 ≤ r → b.length = 128 * r →
    (blockMix b r).length = 128 * r ∧
      ∃ y : Nat → Bytes,
        y 0 = salsa208 (xorBytes (blk b (2 * r - 1)) (blk b 0)) ∧
        (∀ i, i + 1 < 2 * r → y (i + 1) = salsa208 (xorBytes (y i) (blk b (i + 1)))) ∧
        ∀ i, i < 2 * r → blk (blockMix b r) (if i % 2 = 0 then i / 2 else r + i / 2) = y i

/-- R190: `Integerify` is the little-endian value of four bytes of the last Block, and no other byte matters. -/
def Obligations.IntegerifyReadsFourBytes : Prop :=
  ∀ (x y : Bytes) (r a : Nat), 1 ≤ r → x.length = 128 * r → a = (2 * r - 1) * 64 →
    (integerify x r).toNat =
      (x.getD a 0#8).toNat + 256 * (x.getD (a + 1) 0#8).toNat + 65536 * (x.getD (a + 2) 0#8).toNat +
        16777216 * (x.getD (a + 3) 0#8).toNat ∧
    (y.length = 128 * r → (∀ k, k < 4 → y.getD (a + k) 0#8 = x.getD (a + k) 0#8) → integerify y r = integerify x r)

/-- R191: for a legal N the index is `Integerify` AND (N − 1), and always below N. -/
def Obligations.IndexStaysInsideTheTable : Prop :=
  ∀ (x : Bytes) (r : Nat) (n : Word), isPow2 n = true → 2 ≤ n.toNat →
    mixIndex x r n.toNat = (integerify x r).toNat % n.toNat ∧
      mixIndex x r n.toNat = (integerify x r &&& (n - 1#32)).toNat ∧ mixIndex x r n.toNat < n.toNat

/-- R192, R193: `ROMIX_F`: the table holds the successive BlockMix applications, the first the input itself, and the mix
phase chains N BlockMix applications of the state XOR the slot it indexes. -/
def Obligations.RomixBuildsThenMixes : Prop :=
  ∀ (b : Bytes) (r n : Nat), 1 ≤ n →
    ∃ x : Nat → Bytes,
      (romixF b r n).2.length = n ∧ (romixF b r n).2[0]? = some b ∧
      (∀ i v, i + 1 < n → (romixF b r n).2[i]? = some v → (romixF b r n).2[i + 1]? = some (blockMix v r)) ∧
      (∀ v, (romixF b r n).2[n - 1]? = some v → x 0 = blockMix v r) ∧
      (∀ i v, i < n → (romixF b r n).2[(integerify (x i) r).toNat % n]? = some v →
        x (i + 1) = blockMix (xorBytes (x i) v) r) ∧
      (romixF b r n).1 = x n

/-! ### Memory (spec/20_memory.md) -/

/-- The canonical form of memory: two memories that read the same at every address are the same data (log entry 2 says what an
unlisted address reads as), and every write of bytes inside the address space keeps the form. -/
def Obligations.EqualMemoriesAreEqualData : Prop :=
  (∀ m m' : Memory, m.wf = true → m'.wf = true → (∀ a, m.read a = m'.read a) → m = m') ∧
    ∀ (m : Memory) (a : Nat) (v : Byte), m.wf = true → a < 2 ^ 32 → (m.write a v).wf = true ∧
      (v = m.read a → m.write a v = m)

/-- R60, R97: what a `STB` stores a `LDB` of the same bytes returns, where no command runs; and a `STB` and a `LDB` outside the
2^32 bytes of memory each fault (log entry 16). -/
def Obligations.StoresAreLoaded : Prop :=
  (∀ (s : State) (a : Nat) (bs : Bytes) (rest : List HostStmt), s.mem.wf = true →
    s.program = .stb a bs :: .ldb a bs.length :: rest → (∀ g ∈ s.engines, g.running = false) →
    a + bs.length ≤ 2 ^ 32 →
      ∃ t u, s.hostStep = .next t ∧ t.hostStep = .next u ∧ u.program = rest ∧ u.log = .bytes bs :: s.log ∧
        u.engines = s.engines ∧ s.mem.KeepsOutside [⟨a, bs.length⟩] u.mem) ∧
    (∀ (s : State) (a : Nat) (bs : Bytes) (rest : List HostStmt), s.program = .stb a bs :: rest →
      2 ^ 32 < a + bs.length → s.hostStep = .fault (.outsideMemory a)) ∧
    ∀ (s : State) (a n : Nat) (rest : List HostStmt), s.program = .ldb a n :: rest →
      2 ^ 32 < a + n → s.hostStep = .fault (.outsideMemory a)

/-- R63, R64: the word at address a has the value `LE32` of its four bytes in address order, and byte a + k is its bits
[8k+7 : 8k]. -/
def Obligations.PortWordsAreLittleEndian : Prop :=
  ∀ (m : Memory) (a : Nat),
    wordAt (m.readBytes a 4) 0 = le32 (m.read a) (m.read (a + 1)) (m.read (a + 2)) (m.read (a + 3)) ∧
      ∀ k, k < 4 → (wordAt (m.readBytes a 4) 0).extractLsb' (8 * k) 8 = m.read (a + k)

/-! ### The host's derivations (spec/44_host_kdf.md) -/

/-- R222: the checks of `PBKDF2`, all before any HMAC call, whatever the HMAC. Where `c` is bad and `dkLen` too long at
once, R222 gives both errors and no priority, and the result is one of the two. -/
def Obligations.Pbkdf2ChecksItsArguments : Prop :=
  ∀ (hmac : Hmac) (q : Pbkdf2Req),
    ((¬∃ d : Nat, 1 ≤ d ∧ q.outputLength = .int d) ∨ q.hash = none →
      deriveKeyPbkdf2 hmac q = .error .invalidParameter) ∧
    ∀ (d : Nat) (h : Hash), 1 ≤ d → q.outputLength = .int d → q.hash = some h →
      ((¬∃ c : Nat, 1 ≤ c ∧ q.iterations = .int c) →
        (d ≤ (2 ^ 32 - 1) * h.hLen → deriveKeyPbkdf2 hmac q = .error .invalidParameter) ∧
        ((2 ^ 32 - 1) * h.hLen < d →
          deriveKeyPbkdf2 hmac q = .error .invalidParameter ∨ deriveKeyPbkdf2 hmac q = .error .derivedKeyTooLong)) ∧
      (∀ c : Nat, 1 ≤ c → q.iterations = .int c →
        ((2 ^ 32 - 1) * h.hLen < d → deriveKeyPbkdf2 hmac q = .error .derivedKeyTooLong) ∧
        (d ≤ (2 ^ 32 - 1) * h.hLen → deriveKeyPbkdf2 hmac q = pbkdf2 hmac q.password q.salt c d h)) ∧
      (d < 2 ^ 32 → d ≤ (2 ^ 32 - 1) * h.hLen)

/-- R223, R231: with an HMAC that never fails, the derived key is the first dkLen bytes of F[1] ‖ F[2] ‖ …, F[i] the XOR of the
chain U_1, …, U_c from the salt and the block index; its length is dkLen. -/
def Obligations.Pbkdf2IsTheXorOfItsChains : Prop :=
  ∀ (f : (h : Hash) → Bytes → Bytes → Vector Byte h.hLen) (P S : Bytes) (c d : Nat) (h : Hash), 1 ≤ c → 1 ≤ d →
    ∃ F : Nat → Bytes,
      (∀ i, F i = (List.range (c - 1)).foldl
        (fun acc j => xorBytes acc
          ((fun u => (f h (hmacKey P h) u).toList)^[j + 1] (f h (hmacKey P h) (S ++ bigEndianU32 i)).toList))
        (f h (hmacKey P h) (S ++ bigEndianU32 i)).toList) ∧
      pbkdf2 (fun h k m => some (f h k m)) P S c d h =
        .ok ((((List.range ((d + h.hLen - 1) / h.hLen)).map (fun k => F (k + 1))).flatten).take d) ∧
      ((((List.range ((d + h.hLen - 1) / h.hLen)).map (fun k => F (k + 1))).flatten).take d).length = d

/-- R226, R231: whatever the HMAC, `PBKDF2` either returns a key of dkLen bytes or fails with the HMAC's own failure, which it
does if the first call fails. -/
def Obligations.Pbkdf2PassesFailuresOn : Prop :=
  ∀ (hmac : Hmac) (P S : Bytes) (c d : Nat) (h : Hash), 1 ≤ d →
    ((∃ dk, pbkdf2 hmac P S c d h = .ok dk ∧ dk.length = d) ∨
      pbkdf2 hmac P S c d h = .error .underlyingPrimitiveFailure) ∧
    (hmac h (hmacKey P h) (S ++ bigEndianU32 1) = none →
      pbkdf2 hmac P S c d h = .error .underlyingPrimitiveFailure)

/-- R224, R225: the block index is written big-endian, and an empty password is keyed as a zero-filled block. -/
def Obligations.BlockIndexAndEmptyPassword : Prop :=
  (∀ i : Word, bigEndianU32 i.toNat =
    [i.extractLsb' 24 8, i.extractLsb' 16 8, i.extractLsb' 8 8, i.extractLsb' 0 8]) ∧
    (∀ h : Hash, hmacKey [] h = List.replicate h.blockSize 0#8) ∧
    ∀ (P : Bytes) (h : Hash), P.length ≠ 0 → hmacKey P h = P

/-- R227: the checks of `SCRYPT`, in exact arithmetic, `rMax` being what `RMAX` reads; a request that fails one ends with
`InvalidParameter` before any HMAC call and any engine command. -/
def Obligations.ScryptChecksItsArguments : Prop :=
  (∀ (rMax : Nat) (q : ScryptReq) (m : ScryptNums), scryptNums rMax q = some m ↔
    q.N = .int m.N ∧ q.r = .int m.r ∧ q.p = .int m.p ∧ q.dkLen = .int m.dkLen ∧
      (∃ k, m.N = 2 ^ k) ∧ 1 < m.N ∧ m.N < 2 ^ (16 * m.r) ∧ m.N ≤ 2 ^ 31 ∧ 1 ≤ m.r ∧ 1 ≤ m.p ∧ m.r ≤ rMax ∧
      m.p * m.r ≤ 1073741823 ∧ 1 ≤ m.dkLen ∧ m.dkLen ≤ (2 ^ 32 - 1) * 32) ∧
    ∀ (s : State) (q : ScryptReq), scryptNums s.params.rMax q = none →
      s.runStmt (.deriveKeyScrypt q) = .next { s with log := .failed .invalidParameter :: s.log }

/-- R230: after a command whose `STATUS` shows an error the host reports it and returns no key: `BUS` with its code, every
other code as `InvalidParameter`; what is left of the derivation is dropped, but for the erasing of tables. After `DONE` it goes
on. -/
def Obligations.EngineErrorsReachTheHost : Prop :=
  (∀ (t : Status) (c : ErrCode), statusError (t.failed c).word =
    some (if c = .bus then .platformFailure 7#4 else .invalidParameter)) ∧
    (∀ t : Status, t.done = true → t.err = false → statusError t.word = none) ∧
    ∀ (s : State) (e : Nat) (g : Engine) (err : HostError), s.params.wf = true → e < s.params.numEngines →
      s.engines[e]? = some g → g.inReset = false → statusError g.status.word = some err →
        ∃ t, s.runStmt (.checkStatus (s.params.reg e .status)) = .next t ∧ t.log = .failed err :: s.log ∧
          t.program = dropDerivation s.program ∧ t.engines = s.engines ∧ t.mem = s.mem

/-- R229, R122: the plans of a mixing the host may choose are exactly those that start and later collect each SuperBlock
once, in any order, two SuperBlocks on one engine never at the same time. The form of a plan is the model's (log entry 14). -/
def Obligations.PlansMixEachBlockOnce : Prop :=
  ∀ (slots : List Slot) (plan : List MixMove),
    planOk slots [] [] plan = true ↔
      plan.length = 2 * slots.length ∧
        ∀ (k : Nat) (s : Slot), slots[k]? = some s →
          ∃ i j, i < j ∧ plan[i]? = some (.start k) ∧ plan[j]? = some (.collect k) ∧
            ∀ (l : Nat) (o : Slot) (i' j' : Nat), l ≠ k → slots[l]? = some o → o.engine = s.engine →
              plan[i']? = some (.start l) → plan[j']? = some (.collect l) → j < i' ∨ j' < i

/-- R234, R230: when a derivation ends early, what is left of it is only the erasing of tables, each after a wait for its
engine; every table of a command already started is among them; and an erasing overwrites the table with zeros and no other
byte, where no command runs. The order of these statements is the model's (log entry 14). -/
def Obligations.TablesAreErasedAfterAnError : Prop :=
  (∀ (stmts rest : List HostStmt) (pw : Bytes) (dkLen : Nat), (∀ pw' n, HostStmt.finishScrypt pw' n ∉ stmts) →
    ∃ left, dropDerivation (stmts ++ .finishScrypt pw dkLen :: rest) = left ++ rest ∧
      (∀ st ∈ left, (∃ ref, st = .wait ref 0x00000001#32 0x00000000#32) ∨
        ∃ k ref a n, st = .eraseTable k ref a n ∧ st ∈ stmts) ∧
      ∀ k ref a n, HostStmt.eraseTable k ref a n ∈ stmts → (∀ b l, HostStmt.placeBlock k b l ∉ stmts) →
        ∃ before after, left =
          before ++ .wait ref 0x00000001#32 0x00000000#32 :: .eraseTable k ref a n :: after) ∧
  ∀ (s : State) (k : Nat) (ref : RegRef) (a n : Nat), s.mem.wf = true → (∀ g ∈ s.engines, g.running = false) →
    a + n ≤ 2 ^ 32 →
      ∃ t, s.runStmt (.eraseTable k ref a n) = .next t ∧ t.mem.readBytes a n = List.replicate n 0#8 ∧
        s.mem.KeepsOutside [⟨a, n⟩] t.mem ∧ t.engines = s.engines ∧ s.KeepsHost t

/-- R228, R229, R233: `deriveKeyScrypt` with p = 1, on any engine of the platform that is out of reset and any regions that
keep R65 to R69, with or without erasing V, with the one plan there is for one SuperBlock, the default turns (log entry 3), the
host's HMAC (log entry 13) and the host's own steps (log entry 14): the run ends, and its result is `SCRYPT` as a function. -/
def Obligations.ScryptRunsOnTheEngine : Prop :=
  ∀ (s : State) (g : Engine) (q : ScryptReq) (m : ScryptNums) (slot : Slot) (L : Nat), s.Inv →
    s.program = [.deriveKeyScrypt q] → s.schedule = [] → (∀ o ∈ s.engines, o.running = false) →
    scryptNums s.params.rMax q = some m → m.p = 1 → q.slots = [slot] → q.plan = [.start 0, .collect 0] → L = 128 * m.r →
    s.engines[slot.engine]? = some g → g.inReset = false →
    slot.src.toNat % 4 = 0 → slot.dst.toNat % 4 = 0 → slot.v.toNat % 4 = 0 →
    slot.src.toNat + L ≤ 2 ^ 32 → slot.dst.toNat + L ≤ 2 ^ 32 → slot.v.toNat + m.N * L ≤ 2 ^ 32 →
    (slot.src = slot.dst ∨ slot.src.toNat + L ≤ slot.dst.toNat ∨ slot.dst.toNat + L ≤ slot.src.toNat) →
    (slot.v.toNat + m.N * L ≤ slot.src.toNat ∨ slot.src.toNat + L ≤ slot.v.toNat) →
    (slot.v.toNat + m.N * L ≤ slot.dst.toNat ∨ slot.dst.toNat + L ≤ slot.v.toNat) →
      ∃ k u, core.run k s = .next u ∧ u.final = true ∧
        u.log = resultOf (scrypt Config.hmac s.params.rMax q) :: s.log

end Obligations0
end

