-- ==== Sys2Proof/Laws/Cores.lean ====
section
/-! SUPPORT. The shapes of the computing units' values, and their loops one iteration at a time (spec/41_salsa208.md
R148, spec/42_blockmix.md R170, spec/43_romix.md R192). -/

namespace Sys2Proof.Machine

@[simp] theorem leBytes_length (w : Word) : (leBytes w).length = 4 := rfl

@[simp] theorem bytesOf_length (w : Words) : (bytesOf w).length = 64 := by
  simp [bytesOf, List.length_flatMap]

/-- SALSA208 returns a Block. -/
@[simp] theorem salsa208_length (b : Bytes) : (salsa208 b).length = 64 := by simp [salsa208]

@[simp] theorem xorBytes_length (a b : Bytes) : (xorBytes a b).length = min a.length b.length := by
  simp [xorBytes]

theorem blk_length (b : Bytes) (k : Nat) (h : 64 * k + 64 ≤ b.length) : (blk b k).length = 64 := by
  simp [blk]; omega

/-- R170's loop, one iteration more. -/
theorem bmLoop_succ (b : Bytes) (r n : Nat) : bmLoop b r (n + 1) = bmStep b r n (bmLoop b r n) := by
  simp [bmLoop, List.range_succ]

theorem bmLoop_zero (b : Bytes) (r : Nat) : bmLoop b r 0 = bmInit b r := rfl

/-- The output buffer has 2r Blocks throughout. -/
theorem bmLoop_y_length (b : Bytes) (r n : Nat) : (bmLoop b r n).y.length = 2 * r := by
  induction n with
  | zero => simp [bmLoop_zero, bmInit]
  | succ n ih => simp [bmLoop_succ, bmStep, ih]

/-- Every entry of the output buffer is a Block throughout. -/
theorem bmLoop_y_block (b : Bytes) (r n : Nat) : ∀ x ∈ (bmLoop b r n).y, x.length = 64 := by
  induction n with
  | zero => simp [bmLoop_zero, bmInit]
  | succ n ih =>
    intro x hx
    rw [bmLoop_succ] at hx
    rcases List.mem_or_eq_of_mem_set hx with hx | rfl
    · exact ih x hx
    · exact salsa208_length _

theorem flatten_blocks_length {y : List Bytes} {n : Nat} (hn : y.length = n) (hy : ∀ x ∈ y, x.length = 64) :
    y.flatten.length = 64 * n := by
  induction y generalizing n with
  | nil => simp at hn; simp [← hn]
  | cons x y ih =>
    have := ih rfl fun z hz => hy z (by simp [hz])
    simp only [List.length_cons] at hn
    simp only [List.flatten_cons, List.length_append, this, hy x (by simp)]
    omega

/-- BLOCKMIX returns a SuperBlock. -/
@[simp] theorem blockMix_length (b : Bytes) (r : Nat) : (blockMix b r).length = 128 * r := by
  rw [blockMix, flatten_blocks_length (bmLoop_y_length b r _) (bmLoop_y_block b r _)]
  omega

theorem blockMixIter_length (b : Bytes) (r i : Nat) (h : b.length = 128 * r) :
    (blockMixIter b r i).length = 128 * r := by
  cases i with
  | zero => exact h
  | succ i => exact blockMix_length _ _

/-- R192's build phase, one iteration more. -/
theorem buildLoop_succ (b : Bytes) (r n : Nat) :
    buildLoop b r (n + 1) = (blockMix (buildLoop b r n).1 r, (buildLoop b r n).2 ++ [(buildLoop b r n).1]) := by
  simp [buildLoop, List.range_succ]

/-- R192's build phase in closed form. -/
theorem buildLoop_eq (b : Bytes) (r n : Nat) :
    buildLoop b r n = (blockMixIter b r n, (List.range n).map (blockMixIter b r)) := by
  induction n with
  | zero => rfl
  | succ n ih => simp [buildLoop_succ, ih, List.range_succ, blockMixIter]

theorem buildLoop_slot (b : Bytes) (r n j : Nat) (h : j < n) : (buildLoop b r n).2.getD j [] = blockMixIter b r j := by
  simp [buildLoop_eq, h]

/-- R192's mix phase, one iteration more. -/
theorem mixLoop_succ (v : List Bytes) (r n m : Nat) (x : Bytes) :
    mixLoop v r n (m + 1) x = mixStep v r n (mixLoop v r n m x) := by
  simp [mixLoop, List.range_succ]

theorem mixLoop_length (v : List Bytes) (r n m : Nat) (x : Bytes) (h : x.length = 128 * r) :
    (mixLoop v r n m x).length = 128 * r := by
  cases m with
  | zero => exact h
  | succ m => rw [mixLoop_succ, mixStep, blockMix_length]

/-- The table index is inside the table (R191). -/
theorem mixIndex_lt (x : Bytes) (r n : Nat) (h : 0 < n) : mixIndex x r n < n := Nat.mod_lt _ h

end Sys2Proof.Machine
end

