-- ==== Sys2Proof/Laws/State.lean ====
section
/-! SUPPORT. One lemma per field per named update of State and Engine, so that no proof unfolds an update. -/

namespace Sys2Proof.Machine

section setEngine
variable (s : State) (e : Nat) (g : Engine)

@[simp] theorem State.setEngine_params : (s.setEngine e g).params = s.params := rfl
@[simp] theorem State.setEngine_mem : (s.setEngine e g).mem = s.mem := rfl
@[simp] theorem State.setEngine_engines : (s.setEngine e g).engines = s.engines.set e g := rfl
@[simp] theorem State.setEngine_target : (s.setEngine e g).target = s.target := rfl
@[simp] theorem State.setEngine_program : (s.setEngine e g).program = s.program := rfl
@[simp] theorem State.setEngine_log : (s.setEngine e g).log = s.log := rfl
@[simp] theorem State.setEngine_kdfB : (s.setEngine e g).kdfB = s.kdfB := rfl
@[simp] theorem State.setEngine_schedule : (s.setEngine e g).schedule = s.schedule := rfl
@[simp] theorem State.setEngine_freeCount : (s.setEngine e g).freeCount = s.freeCount := rfl

end setEngine

section result
variable (s : State) (r : HostResult)

@[simp] theorem State.result_params : (s.result r).params = s.params := rfl
@[simp] theorem State.result_mem : (s.result r).mem = s.mem := rfl
@[simp] theorem State.result_engines : (s.result r).engines = s.engines := rfl
@[simp] theorem State.result_target : (s.result r).target = s.target := rfl
@[simp] theorem State.result_program : (s.result r).program = s.program := rfl
@[simp] theorem State.result_log : (s.result r).log = r :: s.log := rfl
@[simp] theorem State.result_kdfB : (s.result r).kdfB = s.kdfB := rfl
@[simp] theorem State.result_schedule : (s.result r).schedule = s.schedule := rfl
@[simp] theorem State.result_freeCount : (s.result r).freeCount = s.freeCount := rfl

end result

section hostWrite
variable (s : State) (a : Nat) (bs : Bytes)

@[simp] theorem State.hostWrite_params : (s.hostWrite a bs).params = s.params := rfl
@[simp] theorem State.hostWrite_mem : (s.hostWrite a bs).mem = s.mem.writeBytes a bs := rfl
@[simp] theorem State.hostWrite_engines : (s.hostWrite a bs).engines =
    taintIf (fun l => regionsMeet [⟨a, bs.length⟩] l.regions) s.engines := rfl
@[simp] theorem State.hostWrite_target : (s.hostWrite a bs).target = s.target := rfl
@[simp] theorem State.hostWrite_program : (s.hostWrite a bs).program = s.program := rfl
@[simp] theorem State.hostWrite_log : (s.hostWrite a bs).log = s.log := rfl
@[simp] theorem State.hostWrite_kdfB : (s.hostWrite a bs).kdfB = s.kdfB := rfl
@[simp] theorem State.hostWrite_schedule : (s.hostWrite a bs).schedule = s.schedule := rfl
@[simp] theorem State.hostWrite_freeCount : (s.hostWrite a bs).freeCount = s.freeCount := rfl

end hostWrite

section unspecify
variable (s : State) (rs : List Region)

@[simp] theorem State.unspecify_params : (s.unspecify rs).params = s.params := by
  induction rs generalizing s with
  | nil => rfl
  | cons r rs ih => exact ih _

@[simp] theorem State.unspecify_engines : (s.unspecify rs).engines = s.engines := by
  induction rs generalizing s with
  | nil => rfl
  | cons r rs ih => exact ih _

@[simp] theorem State.unspecify_target : (s.unspecify rs).target = s.target := by
  induction rs generalizing s with
  | nil => rfl
  | cons r rs ih => exact ih _

@[simp] theorem State.unspecify_program : (s.unspecify rs).program = s.program := by
  induction rs generalizing s with
  | nil => rfl
  | cons r rs ih => exact ih _

@[simp] theorem State.unspecify_log : (s.unspecify rs).log = s.log := by
  induction rs generalizing s with
  | nil => rfl
  | cons r rs ih => exact ih _

@[simp] theorem State.unspecify_kdfB : (s.unspecify rs).kdfB = s.kdfB := by
  induction rs generalizing s with
  | nil => rfl
  | cons r rs ih => exact ih _

@[simp] theorem State.unspecify_schedule : (s.unspecify rs).schedule = s.schedule := by
  induction rs generalizing s with
  | nil => rfl
  | cons r rs ih => exact ih _

end unspecify

section spoil
variable (s : State) (l : Latched) (b : Bool)

@[simp] theorem State.spoil_params : (s.spoil l b).params = s.params := by
  unfold State.spoil; split <;> simp [State.unspecify_params]
@[simp] theorem State.spoil_engines : (s.spoil l b).engines = s.engines := by
  unfold State.spoil; split <;> simp [State.unspecify_engines]
@[simp] theorem State.spoil_target : (s.spoil l b).target = s.target := by
  unfold State.spoil; split <;> simp [State.unspecify_target]
@[simp] theorem State.spoil_program : (s.spoil l b).program = s.program := by
  unfold State.spoil; split <;> simp [State.unspecify_program]
@[simp] theorem State.spoil_log : (s.spoil l b).log = s.log := by
  unfold State.spoil; split <;> simp [State.unspecify_log]
@[simp] theorem State.spoil_kdfB : (s.spoil l b).kdfB = s.kdfB := by
  unfold State.spoil; split <;> simp [State.unspecify_kdfB]
@[simp] theorem State.spoil_schedule : (s.spoil l b).schedule = s.schedule := by
  unfold State.spoil; split <;> simp [State.unspecify_schedule]
@[simp] theorem State.spoil_false : s.spoil l false = s := rfl
@[simp] theorem State.spoil_true : s.spoil l true = s.unspecify l.writeRegions := rfl

end spoil

section drawn
variable (s : State)

@[simp] theorem State.drawn_params : s.drawn.params = s.params := rfl
@[simp] theorem State.drawn_mem : s.drawn.mem = s.mem := rfl
@[simp] theorem State.drawn_engines : s.drawn.engines = s.engines := rfl
@[simp] theorem State.drawn_target : s.drawn.target = s.target := rfl
@[simp] theorem State.drawn_program : s.drawn.program = s.program := rfl
@[simp] theorem State.drawn_log : s.drawn.log = s.log := rfl
@[simp] theorem State.drawn_kdfB : s.drawn.kdfB = s.kdfB := rfl
@[simp] theorem State.drawn_schedule : s.drawn.schedule = s.schedule := rfl
@[simp] theorem State.drawn_freeCount : s.drawn.freeCount = s.freeCount + 1 := rfl

end drawn

section onEngine
variable {s t : State} {e : Nat} {f : Engine → Host.Outcome State Fault Refusal}

/-- An operation on an engine that answers a next state found the engine. -/
theorem State.onEngine_next : s.onEngine e f = .next t ↔ ∃ g, s.engines[e]? = some g ∧ f g = .next t := by
  unfold State.onEngine
  cases s.engines[e]? <;> simp

/-- On an engine that exists, the operation is done on what it holds. -/
theorem State.onEngine_some {g : Engine} (h : s.engines[e]? = some g) : s.onEngine e f = f g := by
  simp [State.onEngine, h]

end onEngine

section taint
variable (g : Engine)

@[simp] theorem Engine.taint_status : g.taint.status = g.status := rfl
@[simp] theorem Engine.taint_irqEn : g.taint.irqEn = g.irqEn := rfl
@[simp] theorem Engine.taint_srcAddr : g.taint.srcAddr = g.srcAddr := rfl
@[simp] theorem Engine.taint_dstAddr : g.taint.dstAddr = g.dstAddr := rfl
@[simp] theorem Engine.taint_vAddr : g.taint.vAddr = g.vAddr := rfl
@[simp] theorem Engine.taint_rParam : g.taint.rParam = g.rParam := rfl
@[simp] theorem Engine.taint_nParam : g.taint.nParam = g.nParam := rfl
@[simp] theorem Engine.taint_lat : g.taint.lat = g.lat := rfl
@[simp] theorem Engine.taint_phase : g.taint.phase = g.phase := rfl
@[simp] theorem Engine.taint_i : g.taint.i = g.i := rfl
@[simp] theorem Engine.taint_scratch : g.taint.scratch = g.scratch := rfl
@[simp] theorem Engine.taint_tainted : g.taint.tainted = true := rfl
@[simp] theorem Engine.taint_inReset : g.taint.inReset = g.inReset := rfl
@[simp] theorem Engine.taint_running : g.taint.running = g.running := rfl

end taint

section accept
variable (g : Engine) (w : Word) (c : Bool)

@[simp] theorem Engine.submitted_status : (g.submitted w).status = g.status.cleared := rfl
@[simp] theorem Engine.submitted_lat : (g.submitted w).lat = g.latch w := rfl
@[simp] theorem Engine.submitted_phase : (g.submitted w).phase = g.phase := rfl
@[simp] theorem Engine.submitted_running : (g.submitted w).running = g.running := rfl
@[simp] theorem Engine.submitted_inReset : (g.submitted w).inReset = g.inReset := rfl
@[simp] theorem Engine.accept_status : (g.accept c).status = g.status.accepted := rfl
@[simp] theorem Engine.accept_lat : (g.accept c).lat = g.lat := rfl
@[simp] theorem Engine.accept_phase : (g.accept c).phase = startPhase g.lat.op := rfl
@[simp] theorem Engine.accept_i : (g.accept c).i = 0 := rfl
@[simp] theorem Engine.accept_tainted : (g.accept c).tainted = c := rfl
@[simp] theorem Engine.accept_inReset : (g.accept c).inReset = g.inReset := rfl
@[simp] theorem Engine.accept_scratch :
    (g.accept c).scratch = { g.scratch with act := .load, k := 0, copy := [] } := rfl
@[simp] theorem Engine.accept_irqEn : (g.accept c).irqEn = g.irqEn := rfl
@[simp] theorem Engine.accept_srcAddr : (g.accept c).srcAddr = g.srcAddr := rfl
@[simp] theorem Engine.accept_dstAddr : (g.accept c).dstAddr = g.dstAddr := rfl
@[simp] theorem Engine.accept_vAddr : (g.accept c).vAddr = g.vAddr := rfl
@[simp] theorem Engine.accept_rParam : (g.accept c).rParam = g.rParam := rfl
@[simp] theorem Engine.accept_nParam : (g.accept c).nParam = g.nParam := rfl

end accept

section status
variable (t : Status) (w : Word) (c : ErrCode)

@[simp] theorem Status.write_busy : (t.write w).busy = t.busy := rfl
@[simp] theorem Status.write_done : (t.write w).done = (t.done && !w.getLsbD 1) := rfl
@[simp] theorem Status.write_err : (t.write w).err = (t.err && !w.getLsbD 2) := rfl
@[simp] theorem Status.write_errCode : (t.write w).errCode = if w.getLsbD 2 then 0#4 else t.errCode := rfl
@[simp] theorem Status.write_ovr : (t.write w).ovr = (t.ovr && !w.getLsbD 3) := rfl
@[simp] theorem Status.failed_busy : (t.failed c).busy = false := rfl
@[simp] theorem Status.failed_done : (t.failed c).done = t.done := rfl
@[simp] theorem Status.failed_err : (t.failed c).err = true := rfl
@[simp] theorem Status.failed_errCode : (t.failed c).errCode = c.code := rfl
@[simp] theorem Status.failed_ovr : (t.failed c).ovr = t.ovr := rfl

end status

end Sys2Proof.Machine
end

