-- ==== Sys2Proof/Laws/HostAgent.lean ====
section
/-! SUPPORT. What the host's shared operations can do: each of them in one lemma (spec/30_encoding.md R94, R97). -/

namespace Sys2Proof.Machine

/-- A command is the submission of its word (R23). -/
theorem exec_submit (i : Instr) (s : State) : exec i s = s.submit (encode i) := by cases i <;> rfl

/-- A register access that answers a next state reached an engine's register. -/
theorem State.access_next {s t : State} {ref : RegRef} {f : Nat → Reg → Host.Outcome State Fault Refusal}
    (h : s.access ref f = .next t) : ∃ e off, ref.resolve s.params = .ok (e,
        off) ∧ f e (Reg.ofOffset off) = .next t := by
  unfold State.access at h
  cases hr : ref.resolve s.params with
  | error why => simp [hr] at h
  | ok x => obtain ⟨e, off⟩ := x; exact ⟨e, off, rfl, by simpa [hr] using h⟩

/-- A register read that answers a next state found its engine. -/
theorem State.regRead_next {s t : State} {e : Nat} {r : Reg} {f : Word → State → State}
    (h : s.regRead e r f = .next t) : ∃ g, s.engines[e]? = some g ∧ t = f (s.regValue g r) s.drawn := by
  obtain ⟨g, hg, h⟩ := State.onEngine_next.1 h
  exact ⟨g, hg, (Host.Outcome.next.inj h).symm⟩

/-- A host read that answers a next state. -/
theorem State.loadAt_next {s t : State} {a n : Nat} {f : Bytes → State → State} (ht : s.loadAt a n f = .next t) :
    t = f (s.hostRead a n) { s with freeCount := s.freeCount + n } := by
  unfold State.loadAt at ht
  split at ht
  · exact (Host.Outcome.next.inj ht).symm
  · simp at ht

/-- A host write that answers a next state is `hostWrite`, inside the address space. -/
theorem State.storeAt_next {s t : State} {a : Nat} {bs : Bytes} (ht : s.storeAt a bs = .next t) :
    a + bs.length ≤ Config.memBytes ∧ t = s.hostWrite a bs := by
  unfold State.storeAt at ht
  split at ht
  · next hin => exact ⟨by simpa [inMemory] using hin, (Host.Outcome.next.inj ht).symm⟩
  · simp at ht

/-- Erasing a table is a host write of zeros inside the address space, or nothing. -/
theorem State.eraseTable_cases (s : State) (a n : Nat) :
    (a + n ≤ Config.memBytes ∧ s.eraseTable a n = s.hostWrite a (List.replicate n 0#8)) ∨
      (Config.memBytes < a + n ∧ s.eraseTable a n = s) := by
  unfold State.eraseTable
  split
  · next h => exact .inl ⟨by simpa [inMemory] using h, rfl⟩
  · next h => exact .inr ⟨by simpa [inMemory] using h, rfl⟩

/-- What follows a derivation stays, whatever is left of the derivation itself. -/
theorem dropFrom_finish (later : List Nat) (pw : Bytes) (n : Nat) (rest : List HostStmt) :
    dropFrom later (.finishScrypt pw n :: rest) = rest := rfl

theorem core_run_succ_of (M : Host.Core) {s t : M.State} {n : Nat} (h : M.step s = .next t) :
    M.run (n + 1) s = M.run n t := by
  simp [Host.Core.run, h]

/-- One step more of a run. -/
theorem core_run_succ {s t : State} {n : Nat} (h : step s = .next t) : core.run (n + 1) s = core.run n t :=
  core_run_succ_of core h

end Sys2Proof.Machine
end

