-- ==== Sys2Proof/Laws/Memory.lean ====
section
/-! SUPPORT. Laws of external memory: every operation keeps the canonical form, a read after a write, and what a
write leaves alone (spec/20_memory.md R61, R62). -/

namespace Sys2Proof.Machine

theorem inMemory_iff {a n : Nat} : inMemory a n = true ↔ a + n ≤ Config.memBytes := by simp [inMemory]

theorem Memory.wf_nil : Memory.wf [] = true := rfl

theorem Memory.wf_cons (a : Nat) (v : Byte) (m : Memory) :
    Memory.wf ((a, v) :: m) = true ↔
      a < Config.memBytes ∧ v ≠ Memory.unlisted ∧ (∀ c ∈ m, a < c.1) ∧ Memory.wf m = true := by
  simp [Memory.wf, and_assoc]

theorem Memory.read_of_lt {m : Memory} {a : Nat} (h : ∀ c ∈ m, a < c.1) : Memory.read m a = Memory.unlisted := by
  induction m with
  | nil => rfl
  | cons c m ih =>
    obtain ⟨b, v⟩ := c
    have hb : a < b := h (b, v) (by simp)
    simp only [Memory.read, Nat.ne_of_gt hb, if_false]
    exact ih fun c hc => h c (by simp [hc])

theorem Memory.mem_put {a : Nat} {v : Byte} {m : Memory} {c : Host.Cell} (h : c ∈ Memory.put a v m) :
    c = (a, v) ∨ c ∈ m := by
  unfold Memory.put at h
  split at h
  · exact .inr h
  · simpa using h

theorem Memory.mem_write {m : Memory} {a : Nat} {v : Byte} {c : Host.Cell} (h : c ∈ Memory.write m a v) :
    c.1 = a ∨ c ∈ m := by
  induction m with
  | nil =>
    rcases Memory.mem_put h with rfl | h
    · exact .inl rfl
    · exact .inr h
  | cons d m ih =>
    obtain ⟨b, u⟩ := d
    simp only [Memory.write] at h
    split at h
    · rcases List.mem_cons.1 h with rfl | h
      · exact .inr (by simp)
      · rcases ih h with h | h
        · exact .inl h
        · exact .inr (by simp [h])
    · split at h
      · rcases Memory.mem_put h with rfl | h
        · exact .inl rfl
        · exact .inr (by simp [h])
      · rcases Memory.mem_put h with rfl | h
        · exact .inl rfl
        · exact .inr h

theorem Memory.put_wf {a : Nat} {v : Byte} {m : Memory} (ha : a < Config.memBytes) (hm : m.wf = true)
    (hlt : ∀ c ∈ m, a < c.1) : (Memory.put a v m).wf = true := by
  unfold Memory.put
  split
  · exact hm
  · exact (Memory.wf_cons a v m).2 ⟨ha, ‹_›, hlt, hm⟩

/-- A write inside the address space keeps the canonical form. -/
theorem Memory.write_wf {m : Memory} {a : Nat} (v : Byte) (ha : a < Config.memBytes) (hm : m.wf = true) :
    (Memory.write m a v).wf = true := by
  induction m with
  | nil => exact Memory.put_wf ha rfl (by simp)
  | cons c m ih =>
    obtain ⟨b, u⟩ := c
    obtain ⟨hb, hu, hlt, hm'⟩ := (Memory.wf_cons b u m).1 hm
    simp only [Memory.write]
    split
    · next hba =>
      refine (Memory.wf_cons b u _).2 ⟨hb, hu, fun c hc => ?_, ih hm'⟩
      rcases Memory.mem_write hc with h | h
      · omega
      · exact hlt c h
    · split
      · next hba => exact Memory.put_wf ha hm' fun c hc => hba ▸ hlt c hc
      · next h1 h2 =>
        refine Memory.put_wf ha hm fun c hc => ?_
        rcases List.mem_cons.1 hc with rfl | hc
        · show a < b
          omega
        · have := hlt c hc
          omega

theorem Memory.read_put_same {a : Nat} {v : Byte} {m : Memory} (hlt : ∀ c ∈ m, a < c.1) :
    Memory.read (Memory.put a v m) a = v := by
  unfold Memory.put
  split
  · next h => rw [h]; exact Memory.read_of_lt hlt
  · simp [Memory.read]

theorem Memory.read_put_other {a b : Nat} {v : Byte} {m : Memory} (h : a ≠ b) :
    Memory.read (Memory.put b v m) a = Memory.read m a := by
  unfold Memory.put
  split
  · rfl
  · simp [Memory.read, Ne.symm h]

/-- A read after a write to the same address gives the byte written. -/
theorem Memory.read_write_same {m : Memory} (a : Nat) (v : Byte) (hm : m.wf = true) :
    Memory.read (Memory.write m a v) a = v := by
  induction m with
  | nil => exact Memory.read_put_same (by simp)
  | cons c m ih =>
    obtain ⟨b, u⟩ := c
    obtain ⟨-, -, hlt, hm'⟩ := (Memory.wf_cons b u m).1 hm
    simp only [Memory.write]
    split
    · next hba =>
      simp only [Memory.read, Nat.ne_of_lt hba, if_false]
      exact ih hm'
    · split
      · next hba => exact Memory.read_put_same fun c hc => hba ▸ hlt c hc
      · next h1 h2 =>
        refine Memory.read_put_same fun c hc => ?_
        rcases List.mem_cons.1 hc with rfl | hc
        · show a < b
          omega
        · have := hlt c hc
          omega

/-- A write leaves every other address alone. -/
theorem Memory.read_write_other {m : Memory} {a b : Nat} (v : Byte) (h : a ≠ b) :
    Memory.read (Memory.write m b v) a = Memory.read m a := by
  induction m with
  | nil => exact Memory.read_put_other h
  | cons c m ih =>
    obtain ⟨d, u⟩ := c
    simp only [Memory.write]
    split
    · simp only [Memory.read, ih]
    · split
      · next hd => rw [Memory.read_put_other h]; simp [Memory.read, hd, Ne.symm h]
      · rw [Memory.read_put_other h]

/-- A write of bytes inside the address space keeps the canonical form. -/
theorem Memory.writeBytes_wf {m : Memory} {a : Nat} {bs : Bytes} (ha : a + bs.length ≤ Config.memBytes)
    (hm : m.wf = true) : (m.writeBytes a bs).wf = true := by
  induction bs generalizing m a with
  | nil => exact hm
  | cons v vs ih =>
    simp only [List.length_cons] at ha
    exact ih (by omega) (Memory.write_wf v (by omega) hm)

/-- A write of bytes leaves every address outside them alone. -/
theorem Memory.read_writeBytes_out {m : Memory} {a : Nat} {bs : Bytes} {x : Nat}
    (hx : x < a ∨ a + bs.length ≤ x) : (m.writeBytes a bs).read x = m.read x := by
  induction bs generalizing m a with
  | nil => rfl
  | cons v vs ih =>
    simp only [List.length_cons] at hx
    simp only [Memory.writeBytes]
    rw [ih (by omega), Memory.read_write_other v (by omega)]

/-- A write of bytes is read back, byte for byte. -/
theorem Memory.read_writeBytes_in {m : Memory} {a : Nat} {bs : Bytes} {k : Nat}
    (hk : k < bs.length) (ha : a + bs.length ≤ Config.memBytes) (hm : m.wf = true) :
    (m.writeBytes a bs).read (a + k) = bs.getD k 0#8 := by
  induction bs generalizing m a k with
  | nil => simp at hk
  | cons v vs ih =>
    simp only [List.length_cons] at hk ha
    have hw := Memory.write_wf v (show a < Config.memBytes by omega) hm
    simp only [Memory.writeBytes]
    cases k with
    | zero =>
      rw [Memory.read_writeBytes_out (.inl (by omega))]
      exact Memory.read_write_same a v hm
    | succ k =>
      have := ih (m := m.write a v) (a := a + 1) (k := k) (by omega) (by omega) hw
      rw [show a + (k + 1) = a + 1 + k by omega, this]
      rfl

@[simp] theorem freeBytes_length (c n : Nat) : (freeBytes c n).length = n := by simp [freeBytes]

@[simp] theorem Memory.readBytes_length (m : Memory) (a n : Nat) : (m.readBytes a n).length = n := by
  simp [Memory.readBytes]

/-- A region with any contents is still canonical memory. -/
theorem Memory.unspecify_wf {m : Memory} {r : Region} (c : Nat) (hr : r.inSpace = true) (hm : m.wf = true) :
    (m.unspecify r c).wf = true :=
  Memory.writeBytes_wf (by simpa [Region.inSpace] using hr) hm

/-- Memory outside a region whose contents became unspecified is as before. -/
theorem Memory.read_unspecify_out {m : Memory} {r : Region} {c x : Nat} (hx : r.holds x = false) :
    (m.unspecify r c).read x = m.read x := by
  refine Memory.read_writeBytes_out ?_
  simp only [Region.holds, Bool.and_eq_false_iff, decide_eq_false_iff_not] at hx
  rw [freeBytes_length]
  omega

theorem Memory.readBytes_congr {m m' : Memory} {a n : Nat} (h : ∀ k, k < n → m'.read (a + k) = m.read (a + k)) :
    m'.readBytes a n = m.readBytes a n := by
  unfold Memory.readBytes
  exact List.map_congr_left fun k hk => h k (List.mem_range.1 hk)

theorem Memory.readBytes_add (m : Memory) (a n k : Nat) :
    m.readBytes a (n + k) = m.readBytes a n ++ m.readBytes (a + n) k := by
  simp only [Memory.readBytes, List.range_add, List.map_append, List.map_map]
  congr 1
  exact List.map_congr_left fun j _ => by simp [Nat.add_assoc]

theorem Memory.readBytes_take (m : Memory) (a n k : Nat) (h : k ≤ n) :
    (m.readBytes a n).take k = m.readBytes a k := by
  obtain ⟨d, rfl⟩ := Nat.exists_eq_add_of_le h
  rw [Memory.readBytes_add, List.take_left' (Memory.readBytes_length m a k)]

theorem Memory.readBytes_getD (m : Memory) (a n k : Nat) (h : k < n) :
    (m.readBytes a n).getD k 0#8 = m.read (a + k) := by
  simp [Memory.readBytes, h]

end Sys2Proof.Machine
end

