-- ==== Sys2Proof/Laws/Regions.lean ====
section
/-! SUPPORT. What the region predicates and a passed validation say in arithmetic (spec/20_memory.md R65 to R69,
spec/40_command_lifecycle.md R114). -/

namespace Sys2Proof.Machine

theorem Region.holds_iff (r : Region) (a : Nat) : r.holds a = true ↔ r.base ≤ a ∧ a < r.base + r.len := by
  simp [Region.holds]

theorem Region.inSpace_iff (r : Region) : r.inSpace = true ↔ r.base + r.len ≤ Config.memBytes := by
  simp [Region.inSpace]

theorem Region.disjoint_iff (a b : Region) :
    a.disjoint b = true ↔ a.base + a.len ≤ b.base ∨ b.base + b.len ≤ a.base := by
  simp [Region.disjoint]

/-- Two regions meet exactly when an address lies in both. -/
theorem Region.meets_iff (a b : Region) : a.meets b = true ↔ ∃ x, a.holds x = true ∧ b.holds x = true := by
  simp only [Region.meets, Bool.and_eq_true, Bool.not_eq_true', Bool.eq_false_iff, ne_eq, Region.disjoint_iff,
    decide_eq_true_eq, Region.holds_iff]
  constructor
  · rintro ⟨⟨h, ha⟩, hb⟩
    exact ⟨max a.base b.base, by omega, by omega⟩
  · rintro ⟨x, hx, hy⟩
    omega

theorem Region.meets_comm (a b : Region) : a.meets b = b.meets a := by
  rw [Bool.eq_iff_iff, Region.meets_iff, Region.meets_iff]
  exact exists_congr fun x => and_comm

theorem regionsMeet_iff (as bs : List Region) :
    regionsMeet as bs = true ↔ ∃ a ∈ as, ∃ b ∈ bs, a.meets b = true := by
  simp [regionsMeet]

theorem regionsMeet_comm (as bs : List Region) : regionsMeet as bs = regionsMeet bs as := by
  rw [Bool.eq_iff_iff, regionsMeet_iff, regionsMeet_iff]
  constructor <;>
  · rintro ⟨a, ha, b, hb, h⟩
    exact ⟨b, hb, a, ha, by rwa [Region.meets_comm]⟩

theorem Latched.conflicts_comm (a b : Latched) : a.conflicts b = b.conflicts a := by
  simp only [Latched.conflicts]
  rw [regionsMeet_comm a.writeRegions, regionsMeet_comm a.regions, Bool.or_comm]

theorem opField_cmdw (op : BitVec 4) : opField (cmdw op) = op := by
  revert op; decide

theorem rsvField_cmdw (op : BitVec 4) : rsvField (cmdw op) = 0#28 := by
  revert op; decide

/-- A passed validation in arithmetic (R114). -/
structure Latched.Valid (rMax : Nat) (l : Latched) : Prop where
  op : l.op = 0x1#4 ∨ l.op = 0x2#4 ∨ l.op = 0x3#4
  r : l.op ≠ 0x1#4 → 1 ≤ l.r.toNat ∧ l.r.toNat ≤ rMax
  n : l.op = 0x3#4 → isPow2 l.n = true ∧ 2 ≤ l.n.toNat ∧ l.n.toNat < 2 ^ (16 * l.r.toNat)
  srcAligned : l.src.toNat % 4 = 0
  dstAligned : l.dst.toNat % 4 = 0
  vAligned : l.op = 0x3#4 → l.v.toNat % 4 = 0
  srcIn : l.src.toNat + l.unitLen ≤ Config.memBytes
  dstIn : l.dst.toNat + l.unitLen ≤ Config.memBytes
  vIn : l.op = 0x3#4 → l.v.toNat + l.n.toNat * l.unitLen ≤ Config.memBytes
  apart : l.src = l.dst ∨ l.src.toNat + l.unitLen ≤ l.dst.toNat ∨ l.dst.toNat + l.unitLen ≤ l.src.toNat
  vSrc : l.op = 0x3#4 →
    l.v.toNat + l.n.toNat * l.unitLen ≤ l.src.toNat ∨ l.src.toNat + l.unitLen ≤ l.v.toNat
  vDst : l.op = 0x3#4 →
    l.v.toNat + l.n.toNat * l.unitLen ≤ l.dst.toNat ∨ l.dst.toNat + l.unitLen ≤ l.v.toNat

theorem Latched.badN_false_iff (l : Latched) :
    l.badN = false ↔ isPow2 l.n = true ∧ 2 ≤ l.n.toNat ∧ l.n.toNat < 2 ^ (16 * l.r.toNat) := by
  simp [Latched.badN, and_assoc, Nat.succ_le_iff]

theorem Latched.misaligned_false_iff (l : Latched) :
    l.misaligned = false ↔
      l.src.toNat % 4 = 0 ∧ l.dst.toNat % 4 = 0 ∧ (l.op = 0x3#4 → l.v.toNat % 4 = 0) := by
  simp [Latched.misaligned, and_assoc]

theorem Latched.outOfRange_false_iff (l : Latched) :
    l.outOfRange = false ↔
      l.src.toNat + l.unitLen ≤ Config.memBytes ∧ l.dst.toNat + l.unitLen ≤ Config.memBytes ∧
        (l.op = 0x3#4 → l.v.toNat + l.n.toNat * l.unitLen ≤ Config.memBytes) := by
  simp only [Latched.outOfRange, Bool.or_eq_false_iff, Bool.not_eq_false', Bool.and_eq_false_iff, Region.inSpace_iff,
    decide_eq_false_iff_not, and_assoc, ← imp_iff_not_or]
  exact Iff.rfl

theorem Latched.overlapping_false_iff (l : Latched) :
    l.overlapping = false ↔
      (l.src = l.dst ∨ l.src.toNat + l.unitLen ≤ l.dst.toNat ∨ l.dst.toNat + l.unitLen ≤ l.src.toNat) ∧
        (l.op = 0x3#4 →
          (l.v.toNat + l.n.toNat * l.unitLen ≤ l.src.toNat ∨ l.src.toNat + l.unitLen ≤ l.v.toNat) ∧
            (l.v.toNat + l.n.toNat * l.unitLen ≤ l.dst.toNat ∨ l.dst.toNat + l.unitLen ≤ l.v.toNat)) := by
  simp only [Latched.overlapping, Bool.or_eq_false_iff, Bool.not_eq_false', Bool.and_eq_false_iff,
    Bool.or_eq_true, Bool.and_eq_true, decide_eq_true_eq, Region.disjoint_iff, decide_eq_false_iff_not,
    ← imp_iff_not_or]
  exact Iff.rfl

/-- The six checks of a submission, each passed (R114). -/
theorem validate_none_iff (rMax : Nat) (w : Word) (l : Latched) :
    validate rMax w l = none ↔
      (rsvField w = 0#28 ∧ (opField w = 0x1#4 ∨ opField w = 0x2#4 ∨ opField w = 0x3#4)) ∧
        (opField w = 0x2#4 ∨ opField w = 0x3#4 → l.r.toNat ≠ 0 ∧ l.r.toNat ≤ rMax) ∧
        (opField w = 0x3#4 → l.badN = false) ∧ l.misaligned = false ∧ l.outOfRange = false ∧
        l.overlapping = false := by
  unfold validate
  split_ifs with h1 h2 h3 h4 h5 h6 <;> simp_all
  · intro h h'
    tauto
  · intro h h'
    omega
  · tauto

theorem validate_none {rMax : Nat} {w : Word} {l : Latched} (hop : l.op = opField w)
    (h : validate rMax w l = none) : l.Valid rMax ∧ rsvField w = 0#28 := by
  obtain ⟨⟨hrsv, ho⟩, hr, hn, ha, hi, hv⟩ := (validate_none_iff rMax w l).1 h
  rw [← hop] at ho hr hn
  obtain ⟨h1, h2, h3⟩ := l.misaligned_false_iff.1 ha
  obtain ⟨h4, h5, h6⟩ := l.outOfRange_false_iff.1 hi
  obtain ⟨h7, h8⟩ := l.overlapping_false_iff.1 hv
  refine ⟨⟨ho, fun h => ?_, fun h => l.badN_false_iff.1 (hn h), h1, h2, h3, h4, h5, h6, h7, fun h => (h8 h).1,
    fun h => (h8 h).2⟩, hrsv⟩
  have := hr (ho.resolve_left h)
  omega

theorem Engine.Ok.valid {rMax : Nat} {g : Engine} (h : g.Ok rMax) (hr : g.running = true) : g.lat.Valid rMax :=
  (validate_none (opField_cmdw _).symm (h.command hr).1).1

theorem Latched.Valid.unitLen_eq {rMax : Nat} {l : Latched} (_ : l.Valid rMax) : l.unitLen = 4 * l.unitWords := by
  unfold Latched.unitWords Latched.unitLen
  split <;> omega

theorem Latched.Valid.unitWords_pos {rMax : Nat} {l : Latched} (h : l.Valid rMax) : 0 < l.unitWords := by
  have := h.r
  unfold Latched.unitWords Latched.unitLen
  split
  · omega
  · have := this ‹_›
    omega

/-- A region a valid command writes is inside the address space. -/
theorem Latched.Valid.writeRegions_inSpace {rMax : Nat} {l : Latched} (h : l.Valid rMax) :
    ∀ r ∈ l.writeRegions, r.inSpace = true := by
  intro r hr
  rw [Region.inSpace_iff]
  unfold Latched.writeRegions at hr
  split at hr
  · rename_i hop
    rcases List.mem_cons.1 hr with rfl | hr
    · exact h.dstIn
    · rw [List.mem_singleton.1 hr]; exact h.vIn hop
  · rw [List.mem_singleton.1 hr]; exact h.dstIn

end Sys2Proof.Machine
end

