-- ==== Sys2Proof/Laws/Sequencer.lean ====
section
/-! SUPPORT. What one step of a running engine's sequencer can do (spec/40_command_lifecycle.md R116): its
registers and latched values stay, its loop stays within bounds, and the turns it still takes go down by one. -/

namespace Sys2Proof.Machine

/-- Everything of an engine but its sequencer and scratch is the same. -/
structure Engine.SameRegs (g h : Engine) : Prop where
  status : h.status = g.status
  irqEn : h.irqEn = g.irqEn
  srcAddr : h.srcAddr = g.srcAddr
  dstAddr : h.dstAddr = g.dstAddr
  vAddr : h.vAddr = g.vAddr
  rParam : h.rParam = g.rParam
  nParam : h.nParam = g.nParam
  lat : h.lat = g.lat
  tainted : h.tainted = g.tainted
  inReset : h.inReset = g.inReset

theorem Engine.SameRegs.refl (g : Engine) : g.SameRegs g := ⟨rfl, rfl, rfl, rfl, rfl, rfl, rfl, rfl, rfl, rfl⟩

theorem mixBlock_sameRegs (g : Engine) {after : Engine → Engine}
    (hafter : g.iterated.gathered.SameRegs (after g.iterated.gathered)) : g.SameRegs (mixBlock after g) := by
  unfold mixBlock
  split
  · exact ⟨rfl, rfl, rfl, rfl, rfl, rfl, rfl, rfl, rfl, rfl⟩
  · obtain ⟨h1, h2, h3, h4, h5, h6, h7, h8, h9, h10⟩ := hafter
    exact ⟨h1, h2, h3, h4, h5, h6, h7, h8, h9, h10⟩

theorem romixBuilt_sameRegs (g : Engine) : g.SameRegs (romixBuilt g) := by
  unfold romixBuilt
  split <;> exact ⟨rfl, rfl, rfl, rfl, rfl, rfl, rfl, rfl, rfl, rfl⟩

theorem romixMixed_sameRegs (g : Engine) : g.SameRegs (romixMixed g) := by
  unfold romixMixed
  split <;> exact ⟨rfl, rfl, rfl, rfl, rfl, rfl, rfl, rfl, rfl, rfl⟩

theorem Engine.mixing_sameRegs (g : Engine) : g.SameRegs g.mixing := by
  unfold Engine.mixing
  split
  · exact ⟨rfl, rfl, rfl, rfl, rfl, rfl, rfl, rfl, rfl, rfl⟩
  · exact mixBlock_sameRegs g ⟨rfl, rfl, rfl, rfl, rfl, rfl, rfl, rfl, rfl, rfl⟩
  · exact mixBlock_sameRegs g (romixBuilt_sameRegs _)
  · exact mixBlock_sameRegs g (romixMixed_sameRegs _)
  · exact Engine.SameRegs.refl g

theorem Engine.compute_sameRegs (g : Engine) : g.SameRegs g.compute := by
  unfold Engine.compute
  split
  · exact ⟨rfl, rfl, rfl, rfl, rfl, rfl, rfl, rfl, rfl, rfl⟩
  · exact g.mixing_sameRegs
  all_goals exact Engine.SameRegs.refl g

theorem Engine.afterRead_sameRegs (g : Engine) (bs : Bytes) : g.SameRegs (g.afterRead bs) := by
  unfold Engine.afterRead
  split
  · exact ⟨rfl, rfl, rfl, rfl, rfl, rfl, rfl, rfl, rfl, rfl⟩
  · unfold Engine.readDone
    split <;> exact ⟨rfl, rfl, rfl, rfl, rfl, rfl, rfl, rfl, rfl, rfl⟩

theorem Engine.afterWrite_sameRegs (g : Engine) : g.SameRegs g.afterWrite := by
  unfold Engine.afterWrite
  split
  · exact ⟨rfl, rfl, rfl, rfl, rfl, rfl, rfl, rfl, rfl, rfl⟩
  · unfold Engine.writeDone
    split <;> exact ⟨rfl, rfl, rfl, rfl, rfl, rfl, rfl, rfl, rfl, rfl⟩

theorem Engine.readDone_salsa {g : Engine} (h : g.phase = .salsa) : g.readDone = salsa8Loaded g := by
  simp only [Engine.readDone, h]

theorem Engine.readDone_blockmix {g : Engine} (h : g.phase = .blockmix) : g.readDone = blockmixLoaded g := by
  simp only [Engine.readDone, h]

theorem Engine.readDone_build {g : Engine} (h : g.phase = .build) : g.readDone = romixLoaded g := by
  simp only [Engine.readDone, h]

theorem Engine.readDone_mix {g : Engine} (h : g.phase = .mix) : g.readDone = romixFetched g := by
  simp only [Engine.readDone, h]

theorem Engine.writeDone_snapshot {g : Engine} (h : g.scratch.act = .snapshot) : g.writeDone = romixSnapped g := by
  simp only [Engine.writeDone, h]

theorem Engine.writeDone_store {g : Engine} (h : g.scratch.act = .store) :
    g.writeDone = { g with scratch := { g.scratch with act := .finish } } := by
  simp only [Engine.writeDone, h]

theorem Engine.mixing_salsa {g : Engine} (h : g.phase = .salsa) : g.mixing = salsa8Compute g := by
  simp only [Engine.mixing, h]

theorem Engine.mixing_blockmix {g : Engine} (h : g.phase = .blockmix) : g.mixing = mixBlock blockmixMixed g := by
  simp only [Engine.mixing, h, blockmixCompute]

theorem Engine.mixing_build {g : Engine} (h : g.phase = .build) : g.mixing = mixBlock romixBuilt g := by
  simp only [Engine.mixing, h, romixBuildCompute]

theorem Engine.mixing_mix {g : Engine} (h : g.phase = .mix) : g.mixing = mixBlock romixMixed g := by
  simp only [Engine.mixing, h, romixMixCompute]

theorem Engine.compute_index {g : Engine} (h : g.scratch.act = .index) : g.compute = romixIndex g := by
  simp only [Engine.compute, h]

theorem Engine.compute_mixing {g : Engine} (h : g.scratch.act = .mixing) : g.compute = g.mixing := by
  simp only [Engine.compute, h]

/-- A step that reads is one of the two `MemRead`s. -/
theorem Engine.portOp_read {g : Engine} {a : Nat} (h : g.portOp = some (.read a)) :
    (g.scratch.act = .load ∧ a = g.lat.src.toNat + 4 * g.scratch.k) ∨
      (g.scratch.act = .fetch ∧ a = g.lat.slotAddr g.scratch.j + 4 * g.scratch.k) := by
  unfold Engine.portOp at h
  cases hact : g.scratch.act <;> simp_all

/-- A step that writes is one of the two `MemWrite`s. -/
theorem Engine.portOp_write {g : Engine} {a : Nat} {bs : Bytes} (h : g.portOp = some (.write a bs)) :
    bs = wordBytes g.scratch.state g.scratch.k ∧
      ((g.scratch.act = .snapshot ∧ a = g.lat.slotAddr g.i + 4 * g.scratch.k) ∨
        (g.scratch.act = .store ∧ a = g.lat.dst.toNat + 4 * g.scratch.k)) := by
  unfold Engine.portOp at h
  cases hact : g.scratch.act <;> simp_all

/-- A step that moves no word is a computation or the completion. -/
theorem Engine.portOp_none {g : Engine} (h : g.portOp = none) :
    g.scratch.act = .index ∨ g.scratch.act = .mixing ∨ g.scratch.act = .finish := by
  unfold Engine.portOp at h
  cases hact : g.scratch.act <;> simp_all

/-- A running command that passed validation, its loop within bounds. -/
structure Engine.Runs (rMax : Nat) (g : Engine) : Prop where
  valid : g.lat.Valid rMax
  fits : g.phase.fits g.lat.op = true
  seq : g.SeqOk

theorem Engine.Ok.runs {rMax : Nat} {g : Engine} (h : g.Ok rMax) (hr : g.running = true) : g.Runs rMax :=
  ⟨h.valid hr, (h.command hr).2.1, (h.command hr).2.2⟩

theorem Engine.Runs.running {rMax : Nat} {g : Engine} (h : g.Runs rMax) : g.running = true := by
  have := h.fits
  unfold Engine.running
  cases hp : g.phase <;> simp_all [Phase.fits]

theorem Engine.Runs.notSalsa {rMax : Nat} {g : Engine} (h : g.Runs rMax) (hp : g.phase ≠ .salsa) :
    1 ≤ g.lat.r.toNat ∧ g.lat.unitLen = 128 * g.lat.r.toNat ∧ g.lat.unitWords = 32 * g.lat.r.toNat := by
  have hf := h.fits
  have hop : g.lat.op ≠ 0x1#4 := by
    cases hq : g.phase <;> simp_all [Phase.fits]
  refine ⟨(h.valid.r hop).1, by simp [Latched.unitLen, hop], ?_⟩
  simp only [Latched.unitWords, Latched.unitLen, hop, if_false]
  omega

theorem Engine.Runs.salsa {rMax : Nat} {g : Engine} (h : g.Runs rMax) (hp : g.phase = .salsa) :
    g.lat.op = 0x1#4 ∧ g.lat.unitLen = 64 ∧ g.lat.unitWords = 16 := by
  have hf := h.fits
  have hop : g.lat.op = 0x1#4 := by simpa [hp, Phase.fits] using hf
  simp [hop, Latched.unitLen, Latched.unitWords]

theorem Engine.Runs.romix {rMax : Nat} {g : Engine} (h : g.Runs rMax) (hp : g.phase = .build ∨ g.phase = .mix) :
    g.lat.op = 0x3#4 ∧ 2 ≤ g.lat.n.toNat := by
  have hf := h.fits
  have hop : g.lat.op = 0x3#4 := by
    rcases hp with hp | hp <;> simpa [hp, Phase.fits] using hf
  exact ⟨hop, (h.valid.n hop).2.1⟩

theorem bmInit_acc_length {b : Bytes} {r : Nat} (hr : 1 ≤ r) (hb : b.length = 128 * r) :
    (bmInit b r).acc.length = 64 := blk_length _ _ (by omega)

/-- A BlockMix has begun within bounds. -/
theorem beginBlockMix_seq {g : Engine} {b : Bytes} (hr : 1 ≤ g.lat.r.toNat) (hb : b.length = g.lat.unitLen)
    (hL : g.lat.unitLen = 128 * g.lat.r.toNat) (hi : g.phase ≠ .blockmix → g.i < g.lat.n.toNat) :
    (beginBlockMix g b).SeqOk := by
  refine ⟨hb, fun _ => ⟨?_, bmInit_acc_length hr (by omega), ?_, ?_, hi⟩⟩
  · show 0 < 2 * g.lat.r.toNat
    omega
  · exact List.length_replicate
  · intro x hx
    rw [List.eq_of_mem_replicate hx]
    exact List.length_replicate

theorem Engine.Runs.notIdle {rMax : Nat} {g : Engine} (h : g.Runs rMax) : g.phase ≠ .idle := by
  have := h.running
  simpa [Engine.running] using this

/-- The bounds after a `MemRead` has returned its last word. -/
theorem Engine.readDone_runs {rMax : Nat} {g : Engine} (hv : g.lat.Valid rMax) (hf : g.phase.fits g.lat.op = true)
    (hlen : g.scratch.copy.length = g.lat.unitLen)
    (hmix : g.phase = .mix → g.i < g.lat.n.toNat ∧ g.scratch.state.length = g.lat.unitLen) :
    g.readDone.Runs rMax := by
  have hw := hv.unitWords_pos
  cases hp : g.phase with
  | idle => simp [hp, Phase.fits] at hf
  | salsa =>
    rw [Engine.readDone_salsa hp]
    exact ⟨hv, hf, hlen, fun hne => absurd hp hne⟩
  | blockmix =>
    have hop : g.lat.op = 0x2#4 := by simpa [hp, Phase.fits] using hf
    have hr := hv.r (by simp [hop])
    rw [Engine.readDone_blockmix hp]
    exact ⟨hv, hf, beginBlockMix_seq hr.1 hlen (by simp [Latched.unitLen, hop]) fun hne => absurd hp hne⟩
  | build =>
    have hop : g.lat.op = 0x3#4 := by simpa [hp, Phase.fits] using hf
    have hn := hv.n hop
    rw [Engine.readDone_build hp]
    exact ⟨hv, hf, hp, by show 0 < g.lat.n.toNat; omega, hw, hlen⟩
  | mix =>
    have hop : g.lat.op = 0x3#4 := by simpa [hp, Phase.fits] using hf
    have hr := hv.r (by simp [hop])
    obtain ⟨hi, hst⟩ := hmix hp
    rw [Engine.readDone_mix hp]
    exact ⟨hv, hf, beginBlockMix_seq hr.1 (by rw [xorBytes_length, hlen, hst, Nat.min_self])
      (by simp [Latched.unitLen, hop]) fun _ => hi⟩

theorem Engine.afterRead_runs {rMax : Nat} {g : Engine} {a : Nat} {bs : Bytes} (h : g.Runs rMax)
    (hop : g.portOp = some (.read a)) (hbs : bs.length = 4) : (g.afterRead bs).Runs rMax := by
  have hu := h.valid.unitLen_eq
  have hs := h.seq
  unfold Engine.afterRead
  rcases Engine.portOp_read hop with ⟨hact, -⟩ | ⟨hact, -⟩
  · simp only [Engine.SeqOk, hact] at hs
    obtain ⟨hp, hk, hc⟩ := hs
    have hc' : (g.received bs).scratch.copy.length = 4 * (g.scratch.k + 1) := by
      simp only [Engine.received, List.length_append, hbs, hc]; omega
    split
    · next hlt =>
      refine ⟨h.valid, h.fits, ?_⟩
      simp only [Engine.SeqOk, show (g.received bs).scratch.act = .load from hact]
      exact ⟨hp, hlt, hc'⟩
    · next hlt =>
      refine Engine.readDone_runs h.valid h.fits ?_ fun hm => absurd hm hp
      rw [hc']
      show _ = g.lat.unitLen
      omega
  · simp only [Engine.SeqOk, hact] at hs
    obtain ⟨hp, hi, hj, hk, hc, hst⟩ := hs
    have hc' : (g.received bs).scratch.copy.length = 4 * (g.scratch.k + 1) := by
      simp only [Engine.received, List.length_append, hbs, hc]; omega
    split
    · next hlt =>
      refine ⟨h.valid, h.fits, ?_⟩
      simp only [Engine.SeqOk, show (g.received bs).scratch.act = .fetch from hact]
      exact ⟨hp, hi, hj, hlt, hc', hst⟩
    · next hlt =>
      refine Engine.readDone_runs h.valid h.fits ?_ fun _ => ⟨hi, hst⟩
      rw [hc']
      show _ = g.lat.unitLen
      omega

theorem Engine.afterWrite_runs {rMax : Nat} {g : Engine} {a : Nat} {bs : Bytes} (h : g.Runs rMax)
    (hop : g.portOp = some (.write a bs)) : g.afterWrite.Runs rMax := by
  have hs := h.seq
  unfold Engine.afterWrite
  rcases (Engine.portOp_write hop).2 with ⟨hact, -⟩ | ⟨hact, -⟩
  · simp only [Engine.SeqOk, hact] at hs
    obtain ⟨hp, hi, hk, hst⟩ := hs
    split
    · next hlt =>
      refine ⟨h.valid, h.fits, ?_⟩
      simp only [Engine.SeqOk, show g.sent.scratch.act = .snapshot from hact]
      exact ⟨hp, hi, hlt, hst⟩
    · obtain ⟨h1, h2, h3⟩ := h.notSalsa (by simp [hp])
      rw [Engine.writeDone_snapshot (g := g.sent) hact]
      exact ⟨h.valid, h.fits, beginBlockMix_seq (g := g.sent) h1 hst h2 fun _ => hi⟩
  · simp only [Engine.SeqOk, hact] at hs
    obtain ⟨hp, hk, hst⟩ := hs
    split
    · next hlt =>
      refine ⟨h.valid, h.fits, ?_⟩
      simp only [Engine.SeqOk, show g.sent.scratch.act = .store from hact]
      exact ⟨hp, hlt, hst⟩
    · rw [Engine.writeDone_store (g := g.sent) hact]
      exact ⟨h.valid, h.fits, hp, hst⟩

theorem blockMixIteration_y {c : Scratch} {r : Nat} (hy : c.y.length = 2 * r) (hb : ∀ b ∈ c.y, b.length = 64) :
    (c.blockMixIteration r).y.length = 2 * r ∧ ∀ b ∈ (c.blockMixIteration r).y, b.length = 64 := by
  refine ⟨by simp [Scratch.blockMixIteration, hy], fun b hmem => ?_⟩
  rcases List.mem_or_eq_of_mem_set hmem with hmem | rfl
  · exact hb b hmem
  · exact bytesOf_length _

/-- One iteration of a BlockMix keeps the bounds, if what follows the last one does. -/
theorem mixBlock_runs {rMax : Nat} {g : Engine} {after : Engine → Engine} (h : g.Runs rMax)
    (hact : g.scratch.act = .mixing) (hp : g.phase ≠ .salsa)
    (hafter : g.iterated.gathered.scratch.state.length = g.lat.unitLen → (after g.iterated.gathered).Runs rMax) :
    (mixBlock after g).Runs rMax := by
  have hs := h.seq
  simp only [Engine.SeqOk, hact] at hs
  obtain ⟨hc, hs⟩ := hs
  obtain ⟨hk, ha, hy, hb, hi⟩ := hs hp
  obtain ⟨h1, h2, h3⟩ := h.notSalsa hp
  obtain ⟨hy', hb'⟩ := blockMixIteration_y (c := g.scratch) (r := g.lat.r.toNat) hy hb
  unfold mixBlock
  split
  · next hlt =>
    refine ⟨h.valid, h.fits, ?_⟩
    simp only [Engine.SeqOk, show g.iterated.scratch.act = .mixing from hact]
    exact ⟨hc, fun _ => ⟨hlt, bytesOf_length _, hy', hb', hi⟩⟩
  · refine hafter ?_
    show ((g.scratch.blockMixIteration g.lat.r.toNat).y.flatten).length = _
    rw [flatten_blocks_length hy' hb']
    omega

theorem Engine.compute_runs {rMax : Nat} {g : Engine} (h : g.Runs rMax) (hop : g.portOp = none)
    (hfin : g.scratch.act ≠ .finish) : g.compute.Runs rMax := by
  have hs := h.seq
  have hw := h.valid.unitWords_pos
  rcases Engine.portOp_none hop with hact | hact | hact
  · simp only [Engine.SeqOk, hact] at hs
    obtain ⟨hp, hi, hst⟩ := hs
    rw [Engine.compute_index hact]
    exact ⟨h.valid, h.fits, hp, hi, mixIndex_lt _ _ _ (by omega), hw, rfl, hst⟩
  · rw [Engine.compute_mixing hact]
    simp only [Engine.SeqOk, hact] at hs
    cases hp : g.phase with
    | idle => exact absurd hp h.notIdle
    | salsa =>
      obtain ⟨h1, h2, h3⟩ := h.salsa hp
      rw [Engine.mixing_salsa hp]
      refine ⟨h.valid, h.fits, by simp [salsa8Compute, hp], hw, ?_⟩
      rw [show (salsa8Compute g).lat.unitLen = 64 from h2]
      exact bytesOf_length _
    | blockmix =>
      rw [Engine.mixing_blockmix hp]
      refine mixBlock_runs h hact (by simp [hp]) fun hcs => ⟨h.valid, h.fits, ?_⟩
      exact ⟨by simp [blockmixMixed, Engine.gathered, Engine.iterated, hp], hw, hcs⟩
    | build =>
      have hi := (hs.2 (by simp [hp])).2.2.2.2 (by simp [hp])
      have hf := h.fits
      simp only [hp, Phase.fits] at hf
      rw [Engine.mixing_build hp]
      refine mixBlock_runs h hact (by simp [hp]) fun hcs => ?_
      unfold romixBuilt
      split
      · next hlt => exact ⟨h.valid, h.fits, hp, hlt, hw, hcs⟩
      · exact ⟨h.valid, hf, rfl, by show 0 < g.lat.n.toNat; omega, hcs⟩
    | mix =>
      rw [Engine.mixing_mix hp]
      refine mixBlock_runs h hact (by simp [hp]) fun hcs => ?_
      unfold romixMixed
      split
      · next hlt => exact ⟨h.valid, h.fits, hp, hlt, hcs⟩
      · exact ⟨h.valid, h.fits, by simp [Engine.gathered, Engine.iterated, hp], hw, hcs⟩
  · exact absurd hact hfin

end Sys2Proof.Machine
end

