-- ==== Sys2Proof/Laws/Invariant.lean ====
section
/-! SUPPORT. How the shared operations act on the parts of `State.Inv`: one engine replaced, commands tainted, contents
unspecified, a submission, an error, a completion, a reset. -/

namespace Sys2Proof.Machine

/-- The invariant looks at parameters, memory and engines only. -/
theorem State.Inv.congr {s t : State} (h : s.Inv) (hp : t.params = s.params) (hm : t.mem = s.mem)
    (he : t.engines = s.engines) : t.Inv :=
  ⟨hp ▸ h.params, hm ▸ h.mem, by rw [he, hp]; exact h.count, by rw [he, hp]; exact h.engines,
    by rw [he]; exact h.hazards⟩

theorem State.Inv.engineOk {s : State} (h : s.Inv) {e : Nat} {g : Engine} (he : s.engines[e]? = some g) :
    g.Ok s.params.rMax := h.engines g (List.mem_of_getElem? he)

/-- One engine replaced by one that is well formed, and that runs the same command if it runs one. -/
theorem State.Inv.replace {s t : State} (h : s.Inv) {e : Nat} {g g' : Engine} (he : s.engines[e]? = some g)
    (hp : t.params = s.params) (hm : t.mem.wf = true) (ht : t.engines = s.engines.set e g')
    (hok : g'.Ok s.params.rMax)
    (hrun : g'.running = true → g.running = true ∧ g'.lat = g.lat ∧ (g.tainted = true → g'.tainted = true)) :
    t.Inv := by
  have hlt : e < s.engines.length := by
    have := List.getElem?_eq_some_iff.1 he
    exact this.1
  refine ⟨hp ▸ h.params, hm, by rw [ht, hp, List.length_set]; exact h.count, fun x hx => ?_, ?_⟩
  · rw [hp]
    rw [ht] at hx
    rcases List.mem_or_eq_of_mem_set hx with hx | rfl
    · exact h.engines x hx
    · exact hok
  · intro a b x y hab hx hy hxr hyr hc
    rw [ht] at hx hy
    by_cases hea : e = a
    · subst hea
      rw [List.getElem?_set_self hlt] at hx
      rw [List.getElem?_set_ne hab] at hy
      obtain rfl := Option.some.inj hx
      obtain ⟨h1, h2, h3⟩ := hrun hxr
      exact h3 (h.hazards e b g y hab he hy h1 hyr (h2 ▸ hc))
    · rw [List.getElem?_set_ne hea] at hx
      by_cases heb : e = b
      · subst heb
        rw [List.getElem?_set_self hlt] at hy
        obtain rfl := Option.some.inj hy
        obtain ⟨h1, h2, -⟩ := hrun hyr
        exact h.hazards a e x g hab hx he hxr h1 (h2 ▸ hc)
      · rw [List.getElem?_set_ne heb] at hy
        exact h.hazards a b x y hab hx hy hxr hyr hc

theorem Engine.Ok.taint {rMax : Nat} {g : Engine} (h : g.Ok rMax) : g.taint.Ok rMax :=
  ⟨h.busy, h.clean, h.noCode, h.code, h.oneOutcome, h.held, h.command⟩

/-- What `taintIf` makes of one engine: the engine, or the engine tainted. -/
theorem taintIf_getElem? (p : Latched → Bool) (gs : List Engine) (e : Nat) :
    (taintIf p gs)[e]? = gs[e]?.map fun g => if g.running && p g.lat then g.taint else g := by
  simp [taintIf]

theorem taintIf_get {p : Latched → Bool} {gs : List Engine} {e : Nat} {x : Engine}
    (h : (taintIf p gs)[e]? = some x) :
    ∃ g, gs[e]? = some g ∧ x.running = g.running ∧ x.lat = g.lat ∧ (g.tainted = true → x.tainted = true) ∧
      (g.running = true → p g.lat = true → x.tainted = true) ∧ (x = g ∨ x = g.taint) := by
  rw [taintIf_getElem?] at h
  obtain ⟨g, hg, rfl⟩ := Option.map_eq_some_iff.1 h
  refine ⟨g, hg, ?_⟩
  split
  · simp
  · next hn => exact ⟨rfl, rfl, id, fun h1 h2 => absurd (by simp [h1, h2]) hn, .inl rfl⟩

theorem taintIf_mem_ok {p : Latched → Bool} {gs : List Engine} {rMax : Nat} (h : ∀ g ∈ gs, g.Ok rMax) :
    ∀ x ∈ taintIf p gs, x.Ok rMax := by
  intro x hx
  obtain ⟨g, hg, rfl⟩ := List.mem_map.1 hx
  split
  · exact (h g hg).taint
  · exact h g hg

/-- Commands tainted, memory written within the address space. -/
theorem State.Inv.tainted {s t : State} (h : s.Inv) {p : Latched → Bool} (hp : t.params = s.params)
    (hm : t.mem.wf = true) (ht : t.engines = taintIf p s.engines) : t.Inv := by
  refine ⟨hp ▸ h.params, hm, by rw [ht, hp, taintIf, List.length_map]; exact h.count, ?_, ?_⟩
  · rw [ht, hp]; exact taintIf_mem_ok h.engines
  · intro a b x y hab hx hy hxr hyr hc
    rw [ht] at hx hy
    obtain ⟨g, hg, h1, h2, h3, -⟩ := taintIf_get hx
    obtain ⟨k, hk, h4, h5, -⟩ := taintIf_get hy
    exact h3 (h.hazards a b g k hab hg hk (h1 ▸ hxr) (h4 ▸ hyr) (by rw [← h2, ← h5]; exact hc))

/-- Unspecified contents inside the address space keep memory canonical. -/
theorem State.unspecify_wf {s : State} {rs : List Region} (hm : s.mem.wf = true)
    (hr : ∀ r ∈ rs, r.inSpace = true) : (s.unspecify rs).mem.wf = true := by
  induction rs generalizing s with
  | nil => exact hm
  | cons r rs ih =>
    exact ih (Memory.unspecify_wf _ (hr r (by simp)) hm) fun x hx => hr x (by simp [hx])

/-- Memory outside the regions is as before. -/
theorem State.read_unspecify_out {s : State} {rs : List Region} {a : Nat} (h : ∀ r ∈ rs, r.holds a = false) :
    (s.unspecify rs).mem.read a = s.mem.read a := by
  induction rs generalizing s with
  | nil => rfl
  | cons r rs ih =>
    rw [State.unspecify, ih fun x hx => h x (by simp [hx])]
    exact Memory.read_unspecify_out (h r (by simp))

theorem ErrCode.code_le (c : ErrCode) : c.code.toNat ≤ 7 := by cases c <;> decide

/-- An engine that stopped with an error is well formed. -/
theorem Engine.Ok.failed {rMax : Nat} {g : Engine} (_ : g.Ok rMax) (hr : g.inReset = false)
    (hd : g.status.done = false) {x : Engine} (c : ErrCode) (hs : x.status = g.status.failed c)
    (hp : x.phase = .idle) (hi : x.inReset = g.inReset) : x.Ok rMax := by
  have hrun : x.running = false := by simp [Engine.running, hp]
  refine ⟨by rw [hs, hrun]; rfl, ?_, ?_, by rw [hs]; exact c.code_le, ?_, ?_, ?_⟩
  · rw [hs]; intro h; exact absurd h (by simp)
  · rw [hs]; intro h; exact absurd h (by simp)
  · rw [hs]; simp [hd]
  · rw [hi, hr]; intro h; exact absurd h (by simp)
  · rw [hrun]; intro h; exact absurd h (by simp)

theorem Engine.Ok.notHeld {rMax : Nat} {g : Engine} (h : g.Ok rMax) (hr : g.running = true) : g.inReset = false := by
  cases hi : g.inReset with
  | false => rfl
  | true =>
    have := (h.held hi).1
    simp [Engine.running, this] at hr

theorem State.spoil_wf {s : State} {l : Latched} {b : Bool} (hm : s.mem.wf = true)
    (hr : b = true → ∀ r ∈ l.writeRegions, r.inSpace = true) : (s.spoil l b).mem.wf = true := by
  cases b with
  | false => exact hm
  | true => exact State.unspecify_wf hm (hr rfl)

/-- Raising an error on a running command (R265). -/
theorem State.Inv.abort {s : State} (h : s.Inv) {e : Nat} {g : Engine} (he : s.engines[e]? = some g)
    (hr : g.running = true) (c : ErrCode) : (s.raiseError e g c).Inv := by
  have hok := h.engineOk he
  have hd := (hok.clean (hok.busy ▸ hr)).1
  unfold State.raiseError
  rw [if_pos hr]
  refine h.replace (g' := g.aborted c (s.spoil g.lat true).freeCount) he (by simp)
    (State.spoil_wf h.mem fun _ => (hok.valid hr).writeRegions_inSpace) (by simp [State.unspecify_engines])
    (hok.failed (hok.notHeld hr) hd c rfl rfl rfl) fun hx => ?_
  simp [Engine.running, Engine.aborted] at hx

/-- Completing a command (R118). -/
theorem State.Inv.complete {s : State} (h : s.Inv) {e : Nat} {g : Engine} (he : s.engines[e]? = some g)
    (hr : g.running = true) : (s.complete e g).Inv := by
  have hok := h.engineOk he
  obtain ⟨hd, her, hc⟩ := hok.clean (hok.busy ▸ hr)
  refine h.replace (g' := g.completed (s.spoil g.lat g.tainted).freeCount) he (by simp [State.complete])
    (State.spoil_wf h.mem fun _ => (hok.valid hr).writeRegions_inSpace) (by simp [State.complete]) ?_ fun hx => ?_
  · refine ⟨rfl, fun h => absurd h (by simp [Engine.completed, Status.completed]), fun _ => hc, ?_, ?_, ?_, ?_⟩
    · simp [Engine.completed, Status.completed, hc]
    · simp [Engine.completed, Status.completed, her]
    · intro hi
      rw [show (g.completed _).inReset = g.inReset from rfl, hok.notHeld hr] at hi
      exact absurd hi (by simp)
    · intro hi
      simp [Engine.running, Engine.completed] at hi
  · simp [Engine.running, Engine.completed] at hx

/-- An engine held in reset is well formed, its internal state whatever it is (R49). -/
theorem Engine.heldInReset_ok (rMax f : Nat) : (Engine.heldInReset f).Ok rMax :=
  ⟨rfl, fun h => absurd h (by simp [Engine.heldInReset, Engine.reset, Status.reset]), fun _ => rfl,
    by simp [Engine.heldInReset, Engine.reset, Status.reset], rfl, fun _ => ⟨rfl, rfl, rfl, rfl, rfl, rfl, rfl, rfl⟩,
    fun h => absurd h (by simp [Engine.running, Engine.heldInReset, Engine.reset])⟩

/-- Asserting reset (R290). -/
theorem State.Inv.assertReset {s : State} (h : s.Inv) {e : Nat} {g : Engine} (he : s.engines[e]? = some g) :
    (s.assertReset e g).Inv := by
  have hok := h.engineOk he
  refine h.replace (g' := Engine.heldInReset (s.spoil g.lat g.running).freeCount) he (by simp [State.assertReset])
    (State.spoil_wf h.mem fun hr => (hok.valid hr).writeRegions_inSpace) (by simp [State.assertReset])
    (Engine.heldInReset_ok _ _) fun hx => ?_
  simp [Engine.running, Engine.heldInReset, Engine.reset] at hx

/-- Releasing reset (R292). -/
theorem State.Inv.releaseReset {s : State} (h : s.Inv) {e : Nat} {g : Engine} (he : s.engines[e]? = some g) :
    (s.releaseReset e g).Inv := by
  have hok := h.engineOk he
  refine h.replace he rfl h.mem rfl ?_ fun hr => ⟨hr, rfl, id⟩
  exact ⟨hok.busy, hok.clean, hok.noCode, hok.code, hok.oneOutcome, fun h => absurd h (by simp), hok.command⟩

/-- A register write to an engine that is not held in reset (R29 to R36). -/
theorem State.Inv.writeReg {s : State} (h : s.Inv) {e : Nat} {g : Engine} (he : s.engines[e]? = some g)
    (hi : g.inReset = false) (w : Word) (r : Reg) : (s.setEngine e (g.writeReg w r)).Inv := by
  have hok := h.engineOk he
  have key : ∀ x : Engine, x.status = g.status → x.inReset = g.inReset → x.phase = g.phase → x.lat = g.lat → x.i = g.i →
      x.scratch = g.scratch → x.Ok s.params.rMax := by
    intro x h1 h2 h3 h4 h5 h6
    have hrun : x.running = g.running := by simp [Engine.running, h3]
    refine ⟨by rw [h1, hrun]; exact hok.busy, by rw [h1]; exact hok.clean, by rw [h1]; exact hok.noCode,
      by rw [h1]; exact hok.code, by rw [h1]; exact hok.oneOutcome, ?_, ?_⟩
    · rw [h2, hi]; intro h; exact absurd h (by simp)
    · rw [hrun, h4, h3]
      intro hr
      obtain ⟨c1, c2, c3⟩ := hok.command hr
      refine ⟨c1, c2, ?_⟩
      unfold Engine.SeqOk at c3 ⊢
      rw [h6, h5, h4, h3]
      exact c3
  refine h.replace he rfl h.mem rfl ?_ ?_
  · cases r <;> try exact key _ rfl rfl rfl rfl rfl rfl
    refine ⟨hok.busy, ?_, ?_, ?_, ?_, ?_, hok.command⟩
    · intro hb
      obtain ⟨h1, h2, h3⟩ := hok.clean hb
      simp [Engine.writeReg, h1, h2, h3]
    · intro her
      simp only [Engine.writeReg, Status.write_err, Status.write_errCode] at her ⊢
      split
      · rfl
      · next hw =>
        refine hok.noCode ?_
        have hw : w.getLsbD 2 = false := by simpa using hw
        simpa only [hw, Bool.not_false, Bool.and_true] using her
    · simp only [Engine.writeReg, Status.write_errCode]
      split
      · decide
      · exact hok.code
    · have := hok.oneOutcome
      simp only [Engine.writeReg, Status.write_done, Status.write_err]
      revert this
      cases g.status.done <;> cases g.status.err <;> simp
    · intro h
      exact absurd h (by simp [Engine.writeReg, hi])
  · intro hr
    cases r <;> exact ⟨hr, rfl, id⟩

/-- A dropped `CMD` write (R110). -/
theorem State.Inv.overrun {s : State} (h : s.Inv) {e : Nat} {g : Engine} (he : s.engines[e]? = some g)
    (hi : g.inReset = false) : (s.setEngine e g.overrun).Inv := by
  have hok := h.engineOk he
  refine h.replace he rfl h.mem rfl ?_ fun hr => ⟨hr, rfl, id⟩
  exact ⟨hok.busy, hok.clean, hok.noCode, hok.code, hok.oneOutcome,
    fun h => absurd h (by simp [Engine.overrun, hi]), hok.command⟩

theorem cmdw_opField {w : Word} (h : rsvField w = 0#28) : cmdw (opField w) = w := by
  unfold cmdw
  rw [← h]
  unfold rsvField opField
  exact BitVec.extractLsb'_append_extractLsb'_eq_extractLsb' (by decide) |>.trans (by simp)

/-- An accepted command starts within bounds (R113). -/
theorem Engine.accept_ok {rMax : Nat} {g : Engine} {w : Word} (_ : g.Ok rMax) (hi : g.inReset = false)
    (hv : validate rMax w (g.latch w) = none) (c : Bool) : ((g.submitted w).accept c).Ok rMax := by
  obtain ⟨hvalid, hrsv⟩ := validate_none rfl hv
  refine ⟨?_, fun _ => ⟨rfl, rfl, rfl⟩, fun _ => rfl, by simp [Status.accepted, Status.cleared], rfl,
    fun h => absurd h (by simp [hi]), fun _ => ?_⟩
  · rcases hvalid.op with h | h | h <;> simp [Engine.running, startPhase, h, Status.accepted]
  · refine ⟨?_, ?_, ?_, hvalid.unitWords_pos, rfl⟩
    · show validate rMax (cmdw (opField w)) (g.latch w) = none
      rw [cmdw_opField hrsv]
      exact hv
    · rcases hvalid.op with h | h | h <;> simp [startPhase, h, Phase.fits]
    · rcases hvalid.op with h | h | h <;> simp [startPhase, h]

/-- A submission, whatever its outcome (R110 to R113). -/
theorem State.Inv.submit {s t : State} (h : s.Inv) {w : Word} (ht : s.submit w = .next t) : t.Inv := by
  obtain ⟨g, he, ht⟩ := State.onEngine_next.1 ht
  have hok := h.engineOk he
  split at ht
  · obtain rfl := Host.Outcome.next.inj ht
    exact h
  next hi =>
  have hi : g.inReset = false := by simpa using hi
  split at ht
  · obtain rfl := Host.Outcome.next.inj ht
    exact h.overrun he hi
  next hb =>
  have hidle : g.running = false := by rw [← hok.busy]; simpa using hb
  have hphase : g.phase = .idle := by simpa [Engine.running] using hidle
  split at ht
  · obtain rfl := Host.Outcome.next.inj ht
    unfold State.raiseError
    rw [if_neg (by simp [hidle])]
    refine h.replace he rfl h.mem rfl ?_ fun hr => absurd hr (by simp [Engine.running, hphase, Engine.rejected])
    have hsub : (g.submitted w).Ok s.params.rMax := by
      refine ⟨hok.busy, fun _ => ⟨rfl, rfl, rfl⟩, fun _ => rfl, by simp [Status.cleared], rfl,
        fun h => absurd h (by simp [hi]), ?_⟩
      intro hr
      simp [hidle] at hr
    exact hsub.failed hi rfl _ rfl hphase rfl
  next hv =>
  obtain rfl := Host.Outcome.next.inj ht
  have hlt : s.target < s.engines.length := (List.getElem?_eq_some_iff.1 he).1
  refine ⟨h.params, h.mem, ?_, ?_, ?_⟩
  · simp only [State.accepted, State.setEngine_engines, List.length_set, taintIf, List.length_map,
      State.setEngine_params]
    exact h.count
  · intro x hx
    rcases List.mem_or_eq_of_mem_set hx with hx | rfl
    · exact taintIf_mem_ok h.engines x hx
    · exact Engine.accept_ok hok hi hv _
  · intro a b x y hab hx hy hxr hyr hc
    simp only [State.accepted, State.setEngine_engines] at hx hy
    have hlt' : s.target < (taintIf (g.latch w).conflicts s.engines).length := by simpa [taintIf] using hlt
    by_cases hea : s.target = a
    · subst hea
      rw [List.getElem?_set_self hlt'] at hx
      rw [List.getElem?_set_ne hab] at hy
      obtain rfl := Option.some.inj hx
      obtain ⟨k, hk, h4, h5, -⟩ := taintIf_get hy
      rw [Engine.accept_tainted, List.any_eq_true]
      refine ⟨k, List.mem_of_getElem? hk, ?_⟩
      rw [← h4, hyr, ← h5]
      simpa using hc
    · rw [List.getElem?_set_ne hea] at hx
      obtain ⟨k, hk, h1, h2, h3, h4, -⟩ := taintIf_get hx
      by_cases heb : s.target = b
      · subst heb
        rw [List.getElem?_set_self hlt'] at hy
        obtain rfl := Option.some.inj hy
        refine h4 (h1 ▸ hxr) ?_
        rw [← h2, Latched.conflicts_comm]
        exact hc
      · rw [List.getElem?_set_ne heb] at hy
        obtain ⟨m, hm, h5, h6, -⟩ := taintIf_get hy
        exact h3 (h.hazards a b k m hab hk hm (h1 ▸ hxr) (h5 ▸ hyr) (by rw [← h2, ← h6]; exact hc))

/-- A running engine's word transfer or computation keeps it well formed. -/
theorem Engine.Ok.progress {rMax : Nat} {g h : Engine} (hok : g.Ok rMax) (hr : g.running = true)
    (hs : g.SameRegs h) (hruns : h.Runs rMax) : h.Ok rMax := by
  have hv := (hok.command hr).1
  refine ⟨by rw [hs.status, hruns.running, hok.busy, hr], by rw [hs.status]; exact hok.clean,
    by rw [hs.status]; exact hok.noCode, by rw [hs.status]; exact hok.code, by rw [hs.status]; exact hok.oneOutcome,
    ?_, fun _ => ⟨by rw [hs.lat]; exact hv, hruns.fits, hruns.seq⟩⟩
  rw [hs.inReset, hok.notHeld hr]
  intro h
  exact absurd h (by simp)

theorem State.Inv.progress {s t : State} (h : s.Inv) {e : Nat} {g k : Engine} (he : s.engines[e]? = some g)
    (hr : g.running = true) (hs : g.SameRegs k) (hruns : k.Runs s.params.rMax) (hp : t.params = s.params)
    (hm : t.mem.wf = true) (ht : t.engines = s.engines.set e k) : t.Inv :=
  h.replace he hp hm ht ((h.engineOk he).progress hr hs hruns) fun _ => ⟨hr, hs.lat, fun ht => by rw [hs.tainted, ht]⟩

/-- A transfer that the memory answers (R61, R62). -/
theorem State.Inv.transfer {s t : State} (h : s.Inv) {e : Nat} {g : Engine} (he : s.engines[e]? = some g)
    (hr : g.running = true) {op : PortOp} (hop : g.portOp = some op) (ht : s.transfer e g op = .next t) : t.Inv := by
  have hruns := (h.engineOk he).runs hr
  unfold State.transfer at ht
  split at ht
  case isFalse => simp at ht
  next hin =>
  cases op with
  | read a =>
    obtain rfl := Host.Outcome.next.inj ht
    exact h.progress he hr (g.afterRead_sameRegs _) (Engine.afterRead_runs hruns hop (by simp)) rfl h.mem rfl
  | write a bs =>
    obtain rfl := Host.Outcome.next.inj ht
    refine h.progress he hr g.afterWrite_sameRegs (Engine.afterWrite_runs hruns hop) rfl ?_ rfl
    refine Memory.writeBytes_wf ?_ h.mem
    have hin : a + 4 ≤ Config.memBytes := inMemory_iff.1 hin
    have hlen : bs.length ≤ 4 := by
      rw [(Engine.portOp_write hop).1, wordBytes, List.length_take]
      omega
    omega

/-- One step of an engine (R116). -/
theorem State.Inv.engineStep {s t : State} (h : s.Inv) {e : Nat} {ans : Answer}
    (ht : s.engineStep e ans = .next t) : t.Inv := by
  obtain ⟨g, he, ht⟩ := State.onEngine_next.1 ht
  split at ht
  case isFalse =>
    obtain rfl := Host.Outcome.next.inj ht
    exact h
  next hr =>
  split at ht
  · next op hop =>
    cases ans with
    | ok => exact h.transfer he hr hop ht
    | silent =>
      obtain rfl := Host.Outcome.next.inj ht
      exact h
    | error =>
      obtain rfl := Host.Outcome.next.inj ht
      exact h.abort he hr .bus
    | strange =>
      have h' : (s.setEngine e g.taint).Inv :=
        h.replace he rfl h.mem rfl (h.engineOk he).taint fun _ => ⟨hr, rfl, fun _ => rfl⟩
      have hlt : e < s.engines.length := (List.getElem?_eq_some_iff.1 he).1
      refine h'.transfer (e := e) (g := g.taint) (t := t) (by simp [hlt]) hr hop ?_
      have ht : s.transfer e g.taint op = .next t := ht
      unfold State.transfer at ht ⊢
      split at ht
      · rw [if_pos ‹_›]
        cases op <;> simpa [State.setEngine] using ht
      · simp at ht
  · next hop =>
    split at ht
    · obtain rfl := Host.Outcome.next.inj ht
      exact h.complete he hr
    · next hfin =>
      obtain rfl := Host.Outcome.next.inj ht
      exact h.progress he hr g.compute_sameRegs (Engine.compute_runs ((h.engineOk he).runs hr) hop hfin) rfl h.mem rfl

end Sys2Proof.Machine
end

