-- ==== Sys2Proof/Laws/PerInstr.lean ====
section
/-! SUPPORT. What is said of every command as syntax (spec/30_encoding.md R90, R91), one lemma per constructor. -/

namespace Sys2Proof.Laws.CommandWord

/-- A command's word has its opcode in `OP`, 0 in `RSV` (R90), and every command is well formed. -/
def Statement (i : Instr) : Prop := opField (encode i) = i.op ∧ rsvField (encode i) = 0#28 ∧ i.wf = true

theorem salsa8 : Statement .salsa8 := by unfold Statement; decide

theorem blockmix : Statement .blockmix := by unfold Statement; decide

theorem romix : Statement .romix := by unfold Statement; decide

end Sys2Proof.Laws.CommandWord
end

