-- ==== Sys2Proof/Laws/Track.lean ====
section
/-! SUPPORT. A running command's own steps keep it on track (`Engine.OnTrack`): what its scratch and its regions hold is
what its rule says (spec/41_salsa208.md R149, spec/42_blockmix.md R173, spec/43_romix.md R195). -/

namespace Sys2Proof.Machine

/-- One word more of a region read. -/
theorem Memory.readBytes_word {m : Memory} {a n k : Nat} (h : 4 * k + 4 ≤ n) :
    (m.readBytes a n).take (4 * k) ++ m.readBytes (a + 4 * k) 4 = (m.readBytes a n).take (4 * (k + 1)) := by
  rw [Memory.readBytes_take m a n _ (by omega), Memory.readBytes_take m a n _ (by omega), ← Memory.readBytes_add]
  rfl

/-- Bytes written and read back. -/
theorem Memory.readBytes_writeBytes {m : Memory} {a : Nat} {bs : Bytes} (ha : a + bs.length ≤ Config.memBytes)
    (hm : m.wf = true) : (m.writeBytes a bs).readBytes a bs.length = bs := by
  apply List.ext_getElem (by simp)
  intro k h1 h2
  have := Memory.read_writeBytes_in (m := m) h2 ha hm
  simp only [Memory.readBytes, List.getElem_map, List.getElem_range, this]
  simp [h2]

/-- Bytes beside those written read as before. -/
theorem Memory.readBytes_writeBytes_out {m : Memory} {a b n : Nat} {bs : Bytes} (h : b + n ≤ a ∨ a + bs.length ≤ b) :
    (m.writeBytes a bs).readBytes b n = m.readBytes b n :=
  Memory.readBytes_congr fun k hk => Memory.read_writeBytes_out (by omega)

theorem wordBytes_length {b : Bytes} {k : Nat} (h : 4 * k + 4 ≤ b.length) : (wordBytes b k).length = 4 := by
  simp [wordBytes]; omega

theorem take_wordBytes {b : Bytes} {k : Nat} : b.take (4 * k) ++ wordBytes b k = b.take (4 * (k + 1)) := by
  rw [wordBytes, show 4 * (k+1) = 4 * k + 4 by omega, List.take_add]

/-- One word more of a byte sequence stored. -/
theorem Memory.write_word {m : Memory} {a k : Nat} {b : Bytes} (hm : m.wf = true) (hk : 4 * k + 4 ≤ b.length)
    (ha : a + 4 * k + 4 ≤ Config.memBytes) (h : m.readBytes a (4 * k) = b.take (4 * k)) :
    (m.writeBytes (a + 4 * k) (wordBytes b k)).readBytes a (4 * (k + 1)) = b.take (4 * (k + 1)) := by
  have hl := wordBytes_length hk
  rw [show 4 * (k + 1) = 4 * k + 4 by omega, Memory.readBytes_add,
    Memory.readBytes_writeBytes_out (by omega), h]
  have := Memory.readBytes_writeBytes (m := m) (a := a + 4 * k) (bs := wordBytes b k) (by omega) hm
  rw [hl] at this
  rw [this]
  exact take_wordBytes

/-- One iteration of R170's loop in the scratch. -/
theorem Scratch.mixes_next {c : Scratch} {x : Bytes} {r : Nat} (h : c.mixes x r) :
    (c.blockMixIteration r).mixes x r := by
  obtain ⟨h1, h2⟩ := h
  refine ⟨h1, ?_⟩
  show _ = bmLoop x r (c.k + 1)
  rw [bmLoop_succ, ← h2, ← h1]
  simp [Scratch.blockMixIteration, bmStep, Scratch.salsaCall, Scratch.salsaResult, salsa208]

/-- After 2r iterations the scratch holds BLOCKMIX of its input. -/
theorem Scratch.mixes_done {c : Scratch} {x : Bytes} {r : Nat} (h : c.mixes x r) (hk : c.k = 2 * r) :
    c.y.flatten = blockMix x r := by
  rw [blockMix, ← hk, ← h.2]

theorem Scratch.mixes_begin (g : Engine) (x : Bytes) :
    (beginBlockMix g x).scratch.mixes x g.lat.r.toNat := ⟨rfl, rfl⟩

theorem Latched.mixState_zero (l : Latched) (b : Bytes) : l.mixState b 0 = blockMixIter b l.r.toNat l.n.toNat := by
  simp [Latched.mixState, mixLoop, buildLoop_eq]

/-- One iteration of R192's mix phase. -/
theorem Latched.mixState_succ (l : Latched) (b : Bytes) (i : Nat) (h : 0 < l.n.toNat) :
    l.mixState b (i + 1) =
      blockMix (xorBytes (l.mixState b i) (blockMixIter b l.r.toNat (l.mixSlot b i))) l.r.toNat := by
  rw [Latched.mixState, mixLoop_succ, mixStep, buildLoop_slot _ _ _ _ (mixIndex_lt _ _ _ h)]
  rfl

theorem Latched.result_romix (l : Latched) (b : Bytes) (h : l.op = 0x3#4) : l.result b = l.mixState b l.n.toNat := by
  simp [Latched.result, h, romixF, Latched.mixState]

theorem Latched.result_blockmix (l : Latched) (b : Bytes) (h : l.op = 0x2#4) : l.result b = blockMix b l.r.toNat := by
  simp [Latched.result, h]

theorem Latched.result_salsa (l : Latched) (b : Bytes) (h : l.op = 0x1#4) : l.result b = salsa208 b := by
  simp [Latched.result, h]

variable {rMax : Nat} {g : Engine} {m : Memory} {b : Bytes}

/-- The end of a `MemRead` keeps the command on track. -/
theorem Engine.readDone_onTrack (hf : g.phase.fits g.lat.op = true)
    (hcopy : g.phase ≠ .mix → g.scratch.copy = b)
    (hmix : g.phase = .mix → g.scratch.state = g.lat.mixState b g.i ∧ g.lat.slotsHold m b g.lat.n.toNat ∧
      g.scratch.copy = blockMixIter b g.lat.r.toNat (g.lat.mixSlot b g.i)) :
    g.readDone.OnTrack m b := by
  cases hp : g.phase with
  | idle => simp [hp, Phase.fits] at hf
  | salsa =>
    rw [Engine.readDone_salsa hp]
    simp only [Engine.OnTrack, salsa8Loaded, hp]
    exact hcopy (by simp [hp])
  | blockmix =>
    rw [Engine.readDone_blockmix hp]
    simp only [Engine.OnTrack, blockmixLoaded, beginBlockMix, hp]
    rw [hcopy (by simp [hp])]
    exact ⟨rfl, rfl⟩
  | build =>
    rw [Engine.readDone_build hp]
    simp only [Engine.OnTrack, romixLoaded]
    exact ⟨hcopy (by simp [hp]), fun i hi => absurd hi (by omega), rfl⟩
  | mix =>
    obtain ⟨h1, h2, h3⟩ := hmix hp
    rw [Engine.readDone_mix hp]
    simp only [Engine.OnTrack, romixFetched, beginBlockMix, hp]
    rw [h1, h3]
    exact ⟨⟨rfl, rfl⟩, h2⟩

/-- A word read keeps the command on track. -/
theorem Engine.afterRead_onTrack {a : Nat} (h : g.Runs rMax) (ht : g.OnTrack m b) (hop : g.portOp = some (.read a)) :
    (g.afterRead (m.readBytes a 4)).OnTrack m b := by
  have hs := h.seq
  have hu := h.valid.unitLen_eq
  unfold Engine.afterRead
  rcases Engine.portOp_read hop with ⟨hact, rfl⟩ | ⟨hact, rfl⟩
  · simp only [Engine.SeqOk, hact] at hs
    simp only [Engine.OnTrack, hact] at ht
    obtain ⟨hp, hk, hc⟩ := hs
    obtain ⟨hb, hcopy⟩ := ht
    have hnew : (g.received (m.readBytes (g.lat.src.toNat + 4 * g.scratch.k) 4)).scratch.copy =
        b.take (4 * (g.scratch.k + 1)) := by
      simp only [Engine.received, hcopy, ← hb]
      exact Memory.readBytes_word (by omega)
    split
    · simp only [Engine.OnTrack, show (g.received _).scratch.act = .load from hact]
      exact ⟨hb, hnew⟩
    · next hlt =>
      refine Engine.readDone_onTrack h.fits (fun _ => ?_) fun hm => absurd hm hp
      rw [hnew, List.take_of_length_le]
      rw [← hb, Memory.readBytes_length]
      omega
  · simp only [Engine.SeqOk, hact] at hs
    simp only [Engine.OnTrack, hact] at ht
    obtain ⟨hp, hi, hj, hk, hc, hst⟩ := hs
    obtain ⟨h1, h2, h3, h4⟩ := ht
    have hslot := h2 g.scratch.j hj
    have hnew : (g.received (m.readBytes (g.lat.slotAddr g.scratch.j + 4 * g.scratch.k) 4)).scratch.copy =
        (blockMixIter b g.lat.r.toNat g.scratch.j).take (4 * (g.scratch.k + 1)) := by
      simp only [Engine.received, h4, ← hslot]
      exact Memory.readBytes_word (by omega)
    split
    · simp only [Engine.OnTrack, show (g.received _).scratch.act = .fetch from hact]
      exact ⟨h1, h2, h3, hnew⟩
    · next hlt =>
      refine Engine.readDone_onTrack h.fits (fun hm => absurd hp hm) fun _ => ⟨h1, h2, ?_⟩
      rw [hnew, List.take_of_length_le]
      · rw [h3]; rfl
      · rw [← hslot, Memory.readBytes_length]
        omega

/-- Table slots lie one after another (R68). -/
theorem Latched.slotAddr_le (l : Latched) {i j : Nat} (h : i < j) : l.slotAddr i + l.unitLen ≤ l.slotAddr j := by
  have h1 : (i + 1) * l.unitLen ≤ j * l.unitLen := Nat.mul_le_mul_right _ h
  rw [Nat.succ_mul] at h1
  unfold Latched.slotAddr
  omega

/-- Every table slot lies inside `V` (R66, R68). -/
theorem Latched.slotAddr_in {l : Latched} {i : Nat} (h : i < l.n.toNat) :
    l.slotAddr i + l.unitLen ≤ l.v.toNat + l.n.toNat * l.unitLen := by
  have := Latched.slotAddr_le l h
  unfold Latched.slotAddr at *
  omega

/-- A word write keeps the command on track. -/
theorem Engine.afterWrite_onTrack {a : Nat} {bs : Bytes} (h : g.Runs rMax) (hm : m.wf = true) (ht : g.OnTrack m b)
    (hop : g.portOp = some (.write a bs)) : g.afterWrite.OnTrack (m.writeBytes a bs) b := by
  have hs := h.seq
  have hu := h.valid.unitLen_eq
  unfold Engine.afterWrite
  obtain ⟨rfl, hcase⟩ := Engine.portOp_write hop
  rcases hcase with ⟨hact, rfl⟩ | ⟨hact, rfl⟩
  · simp only [Engine.SeqOk, hact] at hs
    simp only [Engine.OnTrack, hact] at ht
    obtain ⟨hp, hi, hk, hst⟩ := hs
    obtain ⟨h1, h2, h3⟩ := ht
    obtain ⟨hop3, hn⟩ := h.romix (.inl hp)
    have hin := Latched.slotAddr_in hi
    have hvin := h.valid.vIn hop3
    have hl : (wordBytes g.scratch.state g.scratch.k).length = 4 := wordBytes_length (by omega)
    have hnew := Memory.write_word (b := g.scratch.state) (a := g.lat.slotAddr g.i) hm (by omega) (by omega) h3
    have hslots : g.lat.slotsHold (m.writeBytes (g.lat.slotAddr g.i + 4 * g.scratch.k)
        (wordBytes g.scratch.state g.scratch.k)) b g.i := by
      intro i hi'
      have := Latched.slotAddr_le g.lat hi'
      rw [Memory.readBytes_writeBytes_out (by omega), h2 i hi']
    split
    · simp only [Engine.OnTrack, show g.sent.scratch.act = .snapshot from hact]
      exact ⟨h1, hslots, hnew⟩
    · next hlt =>
      rw [Engine.writeDone_snapshot (g := g.sent) hact]
      simp only [Engine.OnTrack, romixSnapped, beginBlockMix, show g.sent.phase = .build from hp]
      refine ⟨?_, fun i hi' => ?_⟩
      · show Scratch.mixes _ (blockMixIter b g.lat.r.toNat g.i) g.lat.r.toNat
        rw [← h1]
        exact ⟨rfl, rfl⟩
      · show Memory.readBytes _ (g.lat.slotAddr i) g.lat.unitLen = blockMixIter b g.lat.r.toNat i
        have hi' : i < g.i + 1 := hi'
        by_cases hii : i = g.i
        · subst hii
          have : 4 * (g.scratch.k + 1) = g.lat.unitLen := by omega
          rw [this] at hnew
          rw [hnew, h1.symm, List.take_of_length_le (by omega)]
        · exact hslots i (by omega)
  · simp only [Engine.SeqOk, hact] at hs
    simp only [Engine.OnTrack, hact] at ht
    obtain ⟨hp, hk, hst⟩ := hs
    obtain ⟨h1, h2, h3⟩ := ht
    have hdin := h.valid.dstIn
    have hl : (wordBytes g.scratch.state g.scratch.k).length = 4 := wordBytes_length (by omega)
    have hnew := Memory.write_word (b := g.scratch.state) (a := g.lat.dst.toNat) hm (by omega) (by omega) h2
    have hslots : g.lat.op = 0x3#4 → g.lat.slotsHold (m.writeBytes (g.lat.dst.toNat + 4 * g.scratch.k)
        (wordBytes g.scratch.state g.scratch.k)) b g.lat.n.toNat := by
      intro hop3 i hi'
      have h4 := Latched.slotAddr_in hi'
      have h5 := h.valid.vDst hop3
      have h6 : g.lat.v.toNat ≤ g.lat.slotAddr i := by unfold Latched.slotAddr; omega
      rw [Memory.readBytes_writeBytes_out (by omega), h3 hop3 i hi']
    split
    · simp only [Engine.OnTrack, show g.sent.scratch.act = .store from hact]
      exact ⟨h1, hnew, hslots⟩
    · next hlt =>
      rw [Engine.writeDone_store (g := g.sent) hact]
      simp only [Engine.OnTrack]
      refine ⟨?_, hslots⟩
      show Memory.readBytes _ g.lat.dst.toNat g.lat.unitLen = g.lat.result b
      have : 4 * (g.scratch.k + 1) = g.lat.unitLen := by omega
      rw [this] at hnew
      rw [hnew, h1.symm, List.take_of_length_le (by omega)]

/-- A step of a BlockMix keeps the command on track, if what follows its last one does. -/
theorem mixBlock_onTrack {after : Engine → Engine} {x : Bytes} (h : g.Runs rMax) (hp : g.phase ≠ .salsa)
    (hact : g.scratch.act = .mixing) (hx : g.scratch.mixes x g.lat.r.toNat)
    (hmore : g.iterated.scratch.mixes x g.lat.r.toNat → g.iterated.OnTrack m b)
    (hdone : g.iterated.gathered.scratch.state = blockMix x g.lat.r.toNat → (after g.iterated.gathered).OnTrack m b) :
    (mixBlock after g).OnTrack m b := by
  have hs := h.seq
  simp only [Engine.SeqOk, hact] at hs
  have hk := (hs.2 hp).1
  have hnext := Scratch.mixes_next hx
  unfold mixBlock
  split
  · exact hmore hnext
  · next hlt => exact hdone (Scratch.mixes_done hnext (show g.scratch.k + 1 = _ by omega))

/-- A computation keeps the command on track. -/
theorem Engine.compute_onTrack (h : g.Runs rMax) (ht : g.OnTrack m b) (hop : g.portOp = none)
    (hfin : g.scratch.act ≠ .finish) : g.compute.OnTrack m b := by
  have hs := h.seq
  rcases Engine.portOp_none hop with hact | hact | hact
  · simp only [Engine.SeqOk, hact] at hs
    simp only [Engine.OnTrack, hact] at ht
    rw [Engine.compute_index hact]
    simp only [Engine.OnTrack, romixIndex]
    refine ⟨ht.1, ht.2, ?_, by simp⟩
    rw [ht.1]; rfl
  · rw [Engine.compute_mixing hact]
    simp only [Engine.SeqOk, hact] at hs
    simp only [Engine.OnTrack, hact] at ht
    cases hp : g.phase with
    | idle => exact absurd hp h.notIdle
    | salsa =>
      simp only [hp] at ht
      have hop1 := (h.salsa hp).1
      rw [Engine.mixing_salsa hp]
      simp only [Engine.OnTrack, salsa8Compute]
      refine ⟨?_, by simp [Memory.readBytes], fun h3 => absurd h3 (by simp [hop1])⟩
      rw [Latched.result_salsa _ _ hop1, ← ht]
      simp [Scratch.salsaResult, Scratch.salsaCall, salsa208]
    | blockmix =>
      simp only [hp] at ht
      have hop2 : g.lat.op = 0x2#4 := by simpa [hp, Phase.fits] using h.fits
      rw [Engine.mixing_blockmix hp]
      refine mixBlock_onTrack h (by simp [hp]) hact ht (fun hn => ?_) fun hd => ?_
      · simp only [Engine.OnTrack, show g.iterated.scratch.act = .mixing from hact,
          show g.iterated.phase = .blockmix from hp]
        exact hn
      · simp only [Engine.OnTrack, blockmixMixed]
        refine ⟨?_, by simp [Memory.readBytes, Engine.gathered],
            fun h3 => absurd (show g.lat.op = 3#4 from h3) (by simp [hop2])⟩
        rw [hd]
        exact (Latched.result_blockmix g.lat b hop2).symm
    | build =>
      simp only [hp] at ht
      obtain ⟨hop3, hn2⟩ := h.romix (.inl hp)
      have hi := (hs.2 (by simp [hp])).2.2.2.2 (by simp [hp])
      rw [Engine.mixing_build hp]
      refine mixBlock_onTrack h (by simp [hp]) hact ht.1 (fun hn => ?_) fun hd => ?_
      · simp only [Engine.OnTrack, show g.iterated.scratch.act = .mixing from hact,
          show g.iterated.phase = .build from hp]
        exact ⟨hn, ht.2⟩
      · unfold romixBuilt
        split
        · simp only [Engine.OnTrack]
          refine ⟨hd, ht.2, by simp [Memory.readBytes, Engine.gathered]⟩
        · next hlt =>
          have hlt : ¬ g.i + 1 < g.lat.n.toNat := hlt
          have he : g.i + 1 = g.lat.n.toNat := by omega
          simp only [Engine.OnTrack]
          refine ⟨?_, ?_⟩
          · rw [hd]
            refine Eq.trans ?_ (Latched.mixState_zero g.lat b).symm
            rw [← he]; rfl
          · show g.lat.slotsHold m b g.lat.n.toNat
            rw [← he]; exact ht.2
    | mix =>
      simp only [hp] at ht
      obtain ⟨hop3, hn2⟩ := h.romix (.inr hp)
      have hi := (hs.2 (by simp [hp])).2.2.2.2 (by simp [hp])
      rw [Engine.mixing_mix hp]
      refine mixBlock_onTrack h (by simp [hp]) hact ht.1 (fun hn => ?_) fun hd => ?_
      · simp only [Engine.OnTrack, show g.iterated.scratch.act = .mixing from hact,
          show g.iterated.phase = .mix from hp]
        exact ⟨hn, ht.2⟩
      · have hd' : g.iterated.gathered.scratch.state = g.lat.mixState b (g.i + 1) := by
          rw [hd, Latched.mixState_succ _ _ _ (by omega)]
        unfold romixMixed
        split
        · simp only [Engine.OnTrack]
          exact ⟨hd', ht.2⟩
        · next hlt =>
          have hlt : ¬ g.i + 1 < g.lat.n.toNat := hlt
          have he : g.i + 1 = g.lat.n.toNat := by omega
          simp only [Engine.OnTrack]
          refine ⟨?_, by simp [Memory.readBytes, Engine.gathered], fun _ => ht.2⟩
          rw [hd', he]
          exact (Latched.result_romix g.lat b hop3).symm
  · exact absurd hact hfin

/-- Being on track depends on the memory of the command's own regions only. -/
theorem Engine.OnTrack.congr {m m' : Memory} {b : Bytes} (h : g.Runs rMax) (ht : g.OnTrack m b)
    (hm : ∀ a, (∃ r ∈ g.lat.regions, r.holds a = true) → m'.read a = m.read a) : g.OnTrack m' b := by
  have hs := h.seq
  have hu := h.valid.unitLen_eq
  have hsrc : ∀ n, n ≤ g.lat.unitLen →
      m'.readBytes g.lat.src.toNat n = m.readBytes g.lat.src.toNat n := fun n hn =>
    Memory.readBytes_congr fun k hk => hm _ ⟨g.lat.srcRegion, by simp [Latched.regions],
      (Region.holds_iff _ _).2 (by simp only [Latched.srcRegion]; omega)⟩
  have hdst : ∀ n, n ≤ g.lat.unitLen →
      m'.readBytes g.lat.dst.toNat n = m.readBytes g.lat.dst.toNat n := fun n hn =>
    Memory.readBytes_congr fun k hk => hm _ ⟨g.lat.dstRegion,
      by simp [Latched.regions, Latched.writeRegions]; split <;> simp,
      (Region.holds_iff _ _).2 (by simp only [Latched.dstRegion]; omega)⟩
  have hv : g.lat.op = 0x3#4 → ∀ i n, i < g.lat.n.toNat → n ≤ g.lat.unitLen →
      m'.readBytes (g.lat.slotAddr i) n = m.readBytes (g.lat.slotAddr i) n := fun hop i n hi hn =>
    Memory.readBytes_congr fun k hk => hm _ ⟨g.lat.vRegion,
      by simp [Latched.regions, Latched.writeRegions, hop], by
      have := Latched.slotAddr_in hi
      have h1 : g.lat.v.toNat ≤ g.lat.slotAddr i := by unfold Latched.slotAddr; omega
      exact (Region.holds_iff _ _).2 (by simp only [Latched.vRegion]; omega)⟩
  have hsl : g.lat.op = 0x3#4 → ∀ n, n ≤ g.lat.n.toNat → g.lat.slotsHold m b n → g.lat.slotsHold m' b n := by
    intro hop n hn hh i hi
    rw [hv hop i _ (by omega) (Nat.le_refl _)]
    exact hh i hi
  unfold Engine.OnTrack at ht ⊢
  cases hact : g.scratch.act <;> simp only [Engine.SeqOk, hact] at hs ht ⊢
  · exact ⟨by rw [hsrc _ (Nat.le_refl _)]; exact ht.1, ht.2⟩
  · have hop := (h.romix (.inl hs.1)).1
    exact ⟨ht.1, hsl hop _ (by omega) ht.2.1, by rw [hv hop _ _ hs.2.1 (by omega)]; exact ht.2.2⟩
  · have hop := (h.romix (.inr hs.1)).1
    exact ⟨ht.1, hsl hop _ (Nat.le_refl _) ht.2⟩
  · have hop := (h.romix (.inr hs.1)).1
    exact ⟨ht.1, hsl hop _ (Nat.le_refl _) ht.2.1, ht.2.2⟩
  · cases hp : g.phase <;> simp only [hp] at ht ⊢
    · exact ht
    · exact ht
    · have hop := (h.romix (.inl hp)).1
      have := (hs.2 (by simp [hp])).2.2.2.2 (by simp [hp])
      exact ⟨ht.1, hsl hop _ (by omega) ht.2⟩
    · have hop := (h.romix (.inr hp)).1
      exact ⟨ht.1, hsl hop _ (Nat.le_refl _) ht.2⟩
  · exact ⟨ht.1, by rw [hdst _ (by omega)]; exact ht.2.1, fun hop => hsl hop _ (Nat.le_refl _) (ht.2.2 hop)⟩
  · exact ⟨by rw [hdst _ (Nat.le_refl _)]; exact ht.1, fun hop => hsl hop _ (Nat.le_refl _) (ht.2 hop)⟩

end Sys2Proof.Machine
end

