-- ==== Sys2Proof/Laws/TurnsLeft.lean ====
section
/-! SUPPORT. Every turn of a running engine takes one of the turns its command has left (spec/40_command_lifecycle.md
R119). -/

namespace Sys2Proof.Machine

variable {rMax : Nat} {g : Engine}

/-- The turn in which a `MemRead` ends. -/
theorem Engine.readDone_turnsLeft {k : Nat} (hf : g.phase.fits g.lat.op = true)
    (hn' : g.phase = .build → 1 ≤ g.lat.n.toNat)
    (hw : g.lat.unitWords = k + 1)
    (hact : (g.phase ≠ .mix ∧ g.scratch.act = .load) ∨ (g.phase = .mix ∧ g.scratch.act = .fetch)) :
    g.readDone.turnsLeft + 1 = ({ g with scratch := { g.scratch with k := k } } : Engine).turnsLeft := by
  cases hp : g.phase with
  | idle => simp [hp, Phase.fits] at hf
  | salsa =>
    have ha : g.scratch.act = .load := by rcases hact with h | h; exact h.2; simp [hp] at h
    rw [Engine.readDone_salsa hp]
    simp [Engine.turnsLeft, salsa8Loaded, Engine.running, hp, ha]; omega
  | blockmix =>
    have ha : g.scratch.act = .load := by rcases hact with h | h; exact h.2; simp [hp] at h
    rw [Engine.readDone_blockmix hp]
    simp [Engine.turnsLeft, blockmixLoaded, beginBlockMix, Engine.running, hp, ha]; omega
  | build =>
    have ha : g.scratch.act = .load := by rcases hact with h | h; exact h.2; simp [hp] at h
    have := hn' hp
    obtain ⟨n, hn⟩ : ∃ n, g.lat.n.toNat = n + 1 := ⟨g.lat.n.toNat - 1, by omega⟩
    rw [Engine.readDone_build hp]
    simp [Engine.turnsLeft, romixLoaded, Engine.running, hp, ha, Engine.buildTurnsAfter, Engine.mixTurnsAfter, hn,
        Nat.succ_mul]; omega
  | mix =>
    have ha : g.scratch.act = .fetch := by rcases hact with h | h; simp [hp] at h; exact h.2
    rw [Engine.readDone_mix hp]
    simp [Engine.turnsLeft, romixFetched, beginBlockMix, Engine.running, hp, ha, Engine.mixTurnsAfter]; omega

/-- A word read takes one turn of those left. -/
theorem Engine.afterRead_turnsLeft {a : Nat} (bs : Bytes) (h : g.Runs rMax) (hop : g.portOp = some (.read a)) :
    (g.afterRead bs).turnsLeft + 1 = g.turnsLeft := by
  have hs := h.seq
  have hrun := h.running
  unfold Engine.afterRead
  rcases Engine.portOp_read hop with ⟨hact, -⟩ | ⟨hact, -⟩
  · simp only [Engine.SeqOk, hact] at hs
    split
    · have e1 : (g.received bs).running = true := hrun
      simp only [Engine.turnsLeft, hrun, e1, if_true, show (g.received bs).scratch.act = .load from hact, hact]
      have e2 : (g.received bs).phase = g.phase := rfl
      have e3 : (g.received bs).lat = g.lat := rfl
      have e4 : (g.received bs).scratch.k = g.scratch.k + 1 := rfl
      rw [e2]
      cases hp : g.phase <;> simp only [e3, e4, Engine.buildTurnsAfter,
          Engine.mixTurnsAfter] <;> simp_all <;> first | omega | (exact absurd hp h.notIdle)
    · next hlt =>
      have hf := h.fits
      have := Engine.readDone_turnsLeft (g := g.received bs) (k := g.scratch.k) hf
        (fun hp => by have :=
            (h.romix (.inl hp)).2; show 1 ≤ g.lat.n.toNat; omega) (show g.lat.unitWords = _ by omega) (.inl ⟨hs.1,
            hact⟩)
      rw [this]
      rfl
  · simp only [Engine.SeqOk, hact] at hs
    split
    · have e1 : (g.received bs).running = true := hrun
      simp only [Engine.turnsLeft, hrun, e1, if_true, show (g.received bs).scratch.act = .fetch from hact, hact]
      have e3 : (g.received bs).lat = g.lat := rfl
      have e4 : (g.received bs).scratch.k = g.scratch.k + 1 := rfl
      have e5 : (g.received bs).i = g.i := rfl
      simp only [e3, e4, e5, Engine.mixTurnsAfter]
      omega
    · next hlt =>
      have hf := h.fits
      have := Engine.readDone_turnsLeft (g := g.received bs) (k := g.scratch.k) hf
        (fun hp => absurd (hs.1.symm.trans (show g.phase = .build from hp)) (by simp)) (show g.lat.unitWords = _ by
            omega) (.inr ⟨hs.1, hact⟩)
      rw [this]
      rfl

/-- A word write takes one turn of those left. -/
theorem Engine.afterWrite_turnsLeft {a : Nat} {bs : Bytes} (h : g.Runs rMax) (hop : g.portOp = some (.write a bs)) :
    g.afterWrite.turnsLeft + 1 = g.turnsLeft := by
  have hs := h.seq
  have hrun := h.running
  have e1 : g.sent.running = true := hrun
  have e3 : g.sent.lat = g.lat := rfl
  have e4 : g.sent.scratch.k = g.scratch.k + 1 := rfl
  have e5 : g.sent.i = g.i := rfl
  unfold Engine.afterWrite
  rcases (Engine.portOp_write hop).2 with ⟨hact, -⟩ | ⟨hact, -⟩
  · simp only [Engine.SeqOk, hact] at hs
    split
    · simp only [Engine.turnsLeft, hrun, e1, if_true, show g.sent.scratch.act = .snapshot from hact, hact]
      simp only [e3, e4, e5, Engine.buildTurnsAfter, Engine.mixTurnsAfter]
      omega
    · next hlt =>
      rw [Engine.writeDone_snapshot (g := g.sent) hact]
      simp [Engine.turnsLeft, romixSnapped, beginBlockMix, Engine.running, Engine.sent, hs.1, hact,
          Engine.buildTurnsAfter, Engine.mixTurnsAfter]
      omega
  · simp only [Engine.SeqOk, hact] at hs
    split
    · simp only [Engine.turnsLeft, hrun, e1, if_true, show g.sent.scratch.act = .store from hact, hact]
      simp only [e3, e4]
      omega
    · next hlt =>
      rw [Engine.writeDone_store (g := g.sent) hact]
      have : g.phase ≠ .idle := h.notIdle
      simp [Engine.turnsLeft, Engine.running, Engine.sent, hact, this]
      omega

/-- A computation takes one turn of those left. -/
theorem Engine.compute_turnsLeft (h : g.Runs rMax) (hop : g.portOp = none) (hfin : g.scratch.act ≠ .finish) :
    g.compute.turnsLeft + 1 = g.turnsLeft := by
  have hs := h.seq
  have hrun := h.running
  have hni := h.notIdle
  rcases Engine.portOp_none hop with hact | hact | hact
  · simp only [Engine.SeqOk, hact] at hs
    rw [Engine.compute_index hact]
    simp [Engine.turnsLeft, romixIndex, Engine.running, hact, hni, Engine.mixTurnsAfter]
    omega
  · rw [Engine.compute_mixing hact]
    simp only [Engine.SeqOk, hact] at hs
    have ik : g.iterated.scratch.k = g.scratch.k + 1 := rfl
    have il : g.iterated.lat = g.lat := rfl
    have ii : g.iterated.i = g.i := rfl
    have ia : g.iterated.scratch.act = .mixing := hact
    cases hp : g.phase with
    | idle => exact absurd hp hni
    | salsa =>
      rw [Engine.mixing_salsa hp]
      simp [Engine.turnsLeft, salsa8Compute, Engine.running, hp, hact]
      omega
    | blockmix =>
      have ip : g.iterated.phase = .blockmix := hp
      rw [Engine.mixing_blockmix hp]
      have hk := (hs.2 (by simp [hp])).1
      unfold mixBlock
      split
      · simp [Engine.turnsLeft, Engine.running, hp, hact, ip, ia, ik, il]; omega
      · simp [Engine.turnsLeft, Engine.running, blockmixMixed, Engine.gathered, hp, hact, ip, ia, il]; omega
    | build =>
      have ip : g.iterated.phase = .build := hp
      rw [Engine.mixing_build hp]
      have hk := (hs.2 (by simp [hp])).1
      have hi := (hs.2 (by simp [hp])).2.2.2.2 (by simp [hp])
      unfold mixBlock
      split
      · simp [Engine.turnsLeft, Engine.running, hp, hact, ip, ia, ik, il, ii, Engine.buildTurnsAfter,
          Engine.mixTurnsAfter]; omega
      · unfold romixBuilt
        split
        · next hlt =>
          have hlt : g.i + 1 < g.lat.n.toNat := hlt
          obtain ⟨d, hd⟩ : ∃ d, g.lat.n.toNat = g.i + 1 + (d + 1) := ⟨g.lat.n.toNat - (g.i + 2), by omega⟩
          simp [Engine.turnsLeft, Engine.running, Engine.gathered, hp, hact, ip, ia, il, ii,
              Engine.buildTurnsAfter, Engine.mixTurnsAfter]
          rw [hd, show g.i + 1 + (d + 1) - (g.i + 1 + 1) = d by omega,
              show g.i + 1 + (d + 1) - (g.i + 1) = d + 1 by omega, Nat.succ_mul d]
          omega
        · next hlt =>
          have hlt : ¬ g.i + 1 < g.lat.n.toNat := hlt
          have he : g.lat.n.toNat - (g.i + 1) = 0 := by omega
          obtain ⟨d, hd⟩ : ∃ d, g.lat.n.toNat = d + 1 := ⟨g.lat.n.toNat - 1, by omega⟩
          simp [Engine.turnsLeft, Engine.running, Engine.gathered, hp, hact, ip, ia, il, ii,
              Engine.buildTurnsAfter, Engine.mixTurnsAfter, he]
          rw [hd, Nat.add_sub_cancel, Nat.succ_mul d]
          omega
    | mix =>
      have ip : g.iterated.phase = .mix := hp
      rw [Engine.mixing_mix hp]
      have hk := (hs.2 (by simp [hp])).1
      have hi := (hs.2 (by simp [hp])).2.2.2.2 (by simp [hp])
      unfold mixBlock
      split
      · simp [Engine.turnsLeft, Engine.running, hp, hact, ip, ia, ik, il, ii, Engine.mixTurnsAfter]; omega
      · unfold romixMixed
        split
        · next hlt =>
          have hlt : g.i + 1 < g.lat.n.toNat := hlt
          obtain ⟨d, hd⟩ : ∃ d, g.lat.n.toNat = g.i + 1 + (d + 1) := ⟨g.lat.n.toNat - (g.i + 2), by omega⟩
          simp [Engine.turnsLeft, Engine.running, Engine.gathered, hp, hact, ip, ia, il, ii, Engine.mixTurnsAfter]
          rw [hd, show g.i + 1 + (d + 1) - (g.i + 1 + 1) = d by omega,
              show g.i + 1 + (d + 1) - (g.i + 1) = d + 1 by omega, Nat.succ_mul d]
          omega
        · next hlt =>
          have hlt : ¬ g.i + 1 < g.lat.n.toNat := hlt
          have he : g.lat.n.toNat - (g.i + 1) = 0 := by omega
          simp [Engine.turnsLeft, Engine.running, Engine.gathered, hp, hact, ip, ia, il, ii, Engine.mixTurnsAfter, he]
          omega
  · exact absurd hact hfin

/-- A running command takes at least one turn more, exactly one when it is to complete. -/
theorem Engine.Runs.turnsLeft_pos (h : g.Runs rMax) : 1 ≤ g.turnsLeft ∧ (g.turnsLeft = 1 ↔ g.scratch.act = .finish)
    := by
  have hs := h.seq
  have hrun := h.running
  have hni := h.notIdle
  unfold Engine.turnsLeft
  rw [if_pos hrun]
  cases hact : g.scratch.act <;> simp only [Engine.SeqOk, hact] at hs ⊢
  · cases hp : g.phase <;> simp_all [Engine.buildTurnsAfter, Engine.mixTurnsAfter] <;> omega
  · simp [Engine.buildTurnsAfter, Engine.mixTurnsAfter]; omega
  · simp [Engine.mixTurnsAfter]; omega
  · simp [Engine.mixTurnsAfter]; omega
  · cases hp : g.phase with
    | idle => exact absurd hp hni
    | salsa => simp; 
    | blockmix => have := (hs.2 (by simp [hp])).1; simp; omega
    | build => have := (hs.2 (by simp [hp])).1; simp [Engine.buildTurnsAfter, Engine.mixTurnsAfter]; omega
    | mix => have := (hs.2 (by simp [hp])).1; simp [Engine.mixTurnsAfter]; omega
  · simp; omega
  · simp

end Sys2Proof.Machine
end

