-- ==== Sys2Proof/Tests/Slice0.lean ====
section
/-! SUPPORT. The model's own tests: well-formedness, decoding, and single steps against the words and vectors of
spec/95_test_vectors.md (each test names its vector), and for every obligation with hypotheses a state that meets
them. -/

namespace Sys2Proof.Tests

open Sys2Proof.Machine

/-! ### Helpers -/

/-- `n` bytes from a number written in hexadecimal, first byte first. -/
def beBytes : Nat → Nat → Bytes
  | 0, _ => []
  | n + 1, v => BitVec.ofNat 8 (v / 256 ^ n) :: beBytes n v

/-- The base registers of vector L2-21 on an idle engine. -/
def benchEngine : Engine :=
  { Engine.reset with
    srcAddr := 0x00001000#32, dstAddr := 0x00001000#32, vAddr := 0x00010000#32, rParam := 1#32, nParam := 16#32 }

/-- A system with one engine. -/
def oneEngine (g : Engine) : State := { State.reset with engines := [g] }

/-- A system with two engines. -/
def twoEngines (g h : Engine) : State :=
  { State.reset with params := { rMax := 8, regBase := [0, 256] }, engines := [g, h] }

def bench : State := oneEngine benchEngine

/-- `STATUS` of engine 0 after an outcome. -/
def statusOf : Host.Outcome State Fault Refusal → Option Word
  | .next t => t.engines[0]?.map (fun g => g.status.word)
  | .fault _ => none
  | .refused _ => none

/-- `STATUS` after the word `w` is written to `CMD` of an idle engine `g`. -/
def submitted (g : Engine) (w : Word) : Option Word := statusOf ((oneEngine g).regWrite 0 w .cmd)

/-! ### Well-formedness: each check refuses an ill-formed term -/

theorem test_params_ok : Params.wf { rMax := 8, regBase := [0, 256] } = true := by decide
theorem test_params_no_rmax : Params.wf { rMax := 0, regBase := [0] } = false := by decide
theorem test_params_rmax_too_large : Params.wf { rMax := 33554433, regBase := [0] } = false := by decide
theorem test_params_no_engine : Params.wf { rMax := 8, regBase := [] } = false := by decide
theorem test_params_windows_meet : Params.wf { rMax := 8, regBase := [0, 255] } = false := by decide
theorem test_stmt_no_window : HostStmt.problem Params.default (.rd ⟨256, 4⟩) = some .noWindow := by decide
theorem test_stmt_byte_access : HostStmt.problem Params.default (.wr ⟨4, 1⟩ 1#32) = some .accessSize := by decide
theorem test_stmt_wide_access : HostStmt.problem Params.default (.rd ⟨8, 8⟩) = some .accessSize := by decide
theorem test_stmt_misaligned : HostStmt.problem Params.default (.wait ⟨9, 4⟩ 1#32 0#32) = some .misaligned := by decide
theorem test_stmt_no_engine : HostStmt.wf Params.default (.waitIrq 1) = false := by decide

/-- A scrypt request with the numbers of vector L1-2. -/
def scryptReq (slots : List Slot) : ScryptReq :=
  { password := [], salt := [], N := .int 16, r := .int 1, p := .int 1, dkLen := .int 64, slots := slots,
    plan := [.start 0, .collect 0], eraseV := false }

def slot0 : Slot := { engine := 0, src := 0x3000#32, dst := 0x3000#32, v := 0x4000#32 }

theorem test_stmt_placement : HostStmt.problem Params.default (.deriveKeyScrypt (scryptReq [])) = some .placement := by
  decide
theorem test_stmt_slot_engine :
    HostStmt.problem Params.default (.deriveKeyScrypt (scryptReq [{ slot0 with engine := 1 }])) = some .noEngine := by
  decide
theorem test_stmt_ok : HostStmt.wf Params.default (.deriveKeyScrypt (scryptReq [slot0])) = true := by decide

def slot1 : Slot := { engine := 0, src := 0x6000#32, dst := 0x6000#32, v := 0x7000#32 }

/-- Two SuperBlocks on one engine, the second first: in turn, and at the same time. -/
theorem test_plan_in_turn : planOk [slot0, slot1] [] [] [.start 1, .collect 1, .start 0, .collect 0] = true := by decide
theorem test_plan_one_engine : planOk [slot0, slot1] [] [] [.start 1, .start 0, .collect 1, .collect 0] = false := by
  decide
theorem test_plan_two_engines :
    planOk [slot0, { slot1 with engine := 1 }] [] [] [.start 1, .start 0, .collect 0, .collect 1] = true := by decide
theorem test_stmt_order :
    HostStmt.problem Params.default (.deriveKeyScrypt { scryptReq [slot0] with plan := [.start 0] }) = some .order := by
  decide

/-! ### Decoding: words written out bit by bit from R90 and R91 -/

theorem test_decode_salsa8 : decode 0b00000000000000000000000000000001#32 = .ok .salsa8 := by decide
theorem test_decode_blockmix : decode 0b00000000000000000000000000000010#32 = .ok .blockmix := by decide
theorem test_decode_romix : decode 0b00000000000000000000000000000011#32 = .ok .romix := by decide
theorem test_decode_zero : decode 0x00000000#32 = .error (.reservedOpcode 0#4) := by decide
theorem test_decode_top_bit : decode 0x80000001#32 = .error .reservedBits := by decide
theorem test_table_word : decodeTableWord 32 2 = some .blockmix := by decide

/-! ### Word operations and SALSA208 (L2-1 to L2-5, L1-4) -/

theorem test_add32 : add32 0x219a877e#32 0x291d0276#32 = 0x4ab789f4#32 ∧ add32 0xffffffff#32 1#32 = 0#32 := by decide
theorem test_rotl32 :
    rotl32 0x80000001#32 7 = 0x000000c0#32 ∧ rotl32 0x12345678#32 9 = 0x68acf024#32 ∧
      rotl32 0xdeadbeef#32 13 = 0xb7ddfbd5#32 ∧ rotl32 0x00000001#32 18 = 0x00040000#32 := by decide

/-- The input Block of vector L1-4. -/
def blockL14 : Bytes :=
  beBytes 64 0x7e879a214f3ec9867ca940e641718f26baee555b8c61c1b50df846116dcd3b1dee24f319df9b3d8514121e4b5ac5aa3276021d2909c74829edebc68db8b8c25e

theorem test_quarter_step : (quarterStep (wordsOf blockL14) ⟨4, 0, 12, 7⟩)[4] = 0x0091149f#32 := by decide +kernel
theorem test_double_round : (doubleRound (wordsOf blockL14))[15] = 0x10a42604#32 := by decide +kernel
theorem test_salsa208 : salsa208 blockL14 =
    beBytes 64 0xa41f859c6608cc993b81cacb020cef05044b2181a2fd337dfd7b1c6396682f29b4393168e3c9e6bcfe6bc5b7a06d96bae424cc102c91745c24ad673dc7618f81 := by
  decide +kernel

/-- L2-17: r = 2, bytes 00 to ff. -/
theorem test_integerify : integerify ((List.range 256).map (BitVec.ofNat 8)) 2 = 0xc3c2c1c0#32 := by decide +kernel

/-- L2-15: the order of the output Blocks for r = 2. -/
theorem test_output_order : (List.range 4).map (outPos 2) = [0, 2, 1, 3] := by decide

/-! ### Submission (L2-21, rows by number) -/

theorem test_row1_salsa8 : submitted benchEngine 0x00000001#32 = some 0x00000001#32 := by decide
theorem test_row4_illegal : submitted benchEngine 0x0000000f#32 = some 0x00000104#32 := by decide
theorem test_row9_blockmix : submitted { benchEngine with rParam := 8#32 } 0x00000002#32 = some 0x00000001#32 := by decide
theorem test_row8_bad_r : submitted { benchEngine with rParam := 9#32 } 0x00000002#32 = some 0x00000204#32 := by decide
theorem test_row16_romix : submitted { benchEngine with nParam := 32768#32 } 0x00000003#32 = some 0x00000001#32 := by decide
theorem test_row17_bad_n : submitted { benchEngine with nParam := 65536#32 } 0x00000003#32 = some 0x00000304#32 := by decide
theorem test_row19_range :
    submitted { benchEngine with rParam := 2#32, nParam := 0x80000000#32 } 0x00000003#32 = some 0x00000504#32 := by decide
theorem test_row24_top_of_memory :
    submitted { benchEngine with srcAddr := 0xffffffc0#32, dstAddr := 0xffffffc0#32 } 0x00000001#32 =
      some 0x00000001#32 := by decide
theorem test_row31_overlap : submitted { benchEngine with vAddr := 0x00000804#32 } 0x00000003#32 = some 0x00000604#32 := by
  decide
theorem test_row35_align_first :
    submitted { benchEngine with srcAddr := 0xffffffc2#32, dstAddr := 0xffffffc2#32 } 0x00000001#32 =
      some 0x00000404#32 := by decide

/-! ### STATUS and the interrupt (L2-22, L2-23, R266) -/

/-- `STATUS` = 0x0000000a. -/
def statusDoneOvr : Status := { Status.reset with done := true, ovr := true }
/-- `STATUS` = 0x00000304. -/
def statusBadN : Status := { Status.reset with err := true, errCode := 3#4 }

theorem test_w1c_done : (statusDoneOvr.write 0x00000002#32).word = 0x00000008#32 := by decide
theorem test_w1c_ignored : (statusDoneOvr.write 0xfffffff1#32).word = 0x0000000a#32 := by decide
theorem test_w1c_err : (statusBadN.write 0x00000004#32).word = 0x00000000#32 := by decide
theorem test_w1c_code_read_only : (statusBadN.write 0x00000300#32).word = 0x00000304#32 := by decide
theorem test_irq_err : Engine.irq { Engine.reset with status := statusBadN, irqEn := 2#3 } = true := by decide
theorem test_irq_masked : Engine.irq { Engine.reset with status := statusBadN, irqEn := 5#3 } = false := by decide

/-! ### Steps -/

/-- The first command after reset is submitted by the very next step (R293). -/
theorem test_first_salsa8 : statusOf (step (State.reset.withFetchWord 32 1)) = some 0x00000001#32 := by decide
theorem test_first_blockmix : statusOf (step (State.reset.withFetchWord 32 2)) = some 0x00000204#32 := by decide
theorem test_first_romix : statusOf (step (State.reset.withFetchWord 32 3)) = some 0x00000204#32 := by decide
theorem test_empty_program_idles : step State.reset = .next State.reset := rfl
theorem test_register_window_byte_access :
    step { State.reset with program := [.wr ⟨4, 1⟩ 1#32] } = .refused (.hostStatement .accessSize) := rfl
theorem test_store_at_the_end :
    step { State.reset with program := [.stb 4294967296 [1#8]] } = .fault (.outsideMemory 4294967296) := rfl
theorem test_store_unlisted_value : (State.reset.hostWrite 16 [0#8, 5#8]).mem = [(17, 5#8)] := by decide

/-! ### Engines for the witnesses -/

/-- A status of a running command. -/
def statusBusy : Status := { Status.reset with busy := true }

/-- The scratch before the part `a` of a command, with a Block of zeros wherever one is held. -/
def scratchAt (a : Act) : Scratch :=
  { Scratch.empty with act := a, state := List.replicate 64 0#8 }

/-- An engine that runs `SALSA8` from 0x1000 to 0x1000 and is at part `a`. -/
def runningEngine (a : Act) : Engine :=
  { benchEngine with
    status := statusBusy, lat := benchEngine.latch 1#32, phase := .salsa, scratch := scratchAt a }

/-- An engine whose interrupt is raised by `DONE`. -/
def doneEngine : Engine := { benchEngine with status := { Status.reset with done := true, ovr := true }, irqEn := 1#3 }

/-- An engine whose reset is asserted. -/
def heldEngine : Engine := { Engine.reset with inReset := true }

theorem idle_ok {g : Engine} (hb : g.status.busy = false) (hc : g.status.err = false → g.status.errCode = 0#4)
    (h7 : g.status.errCode.toNat ≤ 7) (ho : (g.status.done && g.status.err) = false) (hp : g.phase = .idle)
    (hi : g.inReset = false) : g.Ok 8 := by
  have hr : g.running = false := by simp [Engine.running, hp]
  exact ⟨by rw [hb, hr], fun h => by simp [hb] at h, hc, h7, ho, fun h => by simp [hi] at h, fun h => by simp [hr] at h⟩

theorem bench_ok : benchEngine.Ok 8 := idle_ok rfl (fun _ => rfl) (by decide) rfl rfl rfl

theorem done_ok : doneEngine.Ok 8 := idle_ok rfl (fun _ => rfl) (by decide) rfl rfl rfl

theorem held_ok : heldEngine.Ok 8 :=
  ⟨rfl, fun h => absurd h (by decide), fun _ => rfl, by decide, rfl, fun _ => ⟨rfl, rfl, rfl, rfl, rfl, rfl, rfl, rfl⟩,
    fun h => absurd h (by decide)⟩

theorem running_ok {a : Act} (hs : (runningEngine a).SeqOk) : (runningEngine a).Ok 8 :=
  ⟨rfl, fun _ => ⟨rfl, rfl, rfl⟩, fun _ => rfl, by cases a <;> decide, rfl, fun h => absurd h (by simp [runningEngine, benchEngine,
    Engine.reset]), fun _ => ⟨by cases a <;> decide, rfl, hs⟩⟩

theorem load_ok : (runningEngine .load).Ok 8 := running_ok ⟨by decide, by decide, by decide⟩

theorem store_ok : (runningEngine .store).Ok 8 := running_ok ⟨by decide, by decide, by decide⟩

theorem finish_ok : (runningEngine .finish).Ok 8 := running_ok ⟨by decide, by decide⟩

/-- The invariant of a system with one engine is that engine's. -/
theorem one_inv {s : State} {g : Engine} (hp : s.params = Params.default) (hm : s.mem.wf = true) (hs : s.engines = [g])
    (h : g.Ok 8) : s.Inv := by
  refine ⟨by rw [hp]; decide, hm, by rw [hs, hp]; rfl, ?_, ?_⟩
  · intro x hx
    rw [hs, List.mem_singleton] at hx
    rw [hx, hp]
    exact h
  · intro e f x y hne hx hy
    obtain ⟨h1, -⟩ := List.getElem?_eq_some_iff.1 hx
    obtain ⟨h2, -⟩ := List.getElem?_eq_some_iff.1 hy
    rw [hs, List.length_singleton] at h1 h2
    exact absurd (by omega) hne

theorem bench_inv : bench.Inv := one_inv rfl rfl rfl bench_ok

/-! ### Witnesses: states that meet the hypotheses of the obligations -/

theorem witness_StepRunsTheDecodedCommand :
    (bench.withFetchWord 32 3).nextTurn.1 = .host ∧
      (bench.withFetchWord 32 3).program = .wr ⟨4, 4⟩ 3#32 :: [] ∧
      RegRef.resolve Params.default ⟨4, 4⟩ = .ok (0, 0x04) ∧ decode 3#32 = .ok .romix := by
  decide

theorem witness_RegistersStandAtTheirOffsets :
    Params.wf { rMax := 33554432, regBase := [256, 0] } = true ∧
      0 < Params.numEngines { rMax := 33554432, regBase := [256, 0] } ∧ 252 < 256 ∧ 252 % 4 = 0 ∧
      RegRef.resolve { rMax := 33554432, regBase := [256, 0] } ⟨508, 4⟩ = .ok (0, 252) ∧ 0x28 ≤ 0x28 := by
  decide

theorem witness_OtherAccessesAreRefused :
    bench.params.wf = true ∧ 0 < bench.params.numEngines ∧ 255 < 256 ∧ (4 ≠ 4 ∨ 255 % 4 ≠ 0) ∧ (8 ≠ 4 ∨ 0 % 4 ≠ 0) := by
  decide

theorem witness_RegisterWritesReadBack :
    (oneEngine (runningEngine .load)).engines[0]? = some (runningEngine .load) ∧
      (runningEngine .load).inReset = false ∧ Reg.reserved ≠ .cmd ∧ Reg.reserved ≠ .status := by
  decide

theorem witness_StatusBitsAreClearedByOnes :
    (oneEngine doneEngine).engines[0]? = some doneEngine ∧ doneEngine.inReset = false := by
  decide

theorem witness_ReadsHaveNoSideEffect :
    bench.params.wf = true ∧ bench.engines[0]? = some benchEngine ∧ 0 < bench.params.numEngines ∧
      { bench with program := [.rd (bench.params.reg 0 .rmax)] }.program = .rd (bench.params.reg 0 .rmax) :: [] := by
  decide

/-- One wait that is met, one that is not. -/
theorem witness_WaitRepeatsUntilMet :
    bench.params.wf = true ∧ bench.engines[0]? = some benchEngine ∧ 0 < bench.params.numEngines ∧
      bench.regValue benchEngine .status &&& 1#32 = 0#32 ∧ bench.regValue benchEngine .status &&& 1#32 ≠ 1#32 := by
  decide

theorem witness_BusyStatusReads :
    (oneEngine (runningEngine .load)).Inv ∧
      (oneEngine (runningEngine .load)).engines[0]? = some (runningEngine .load) ∧
      (runningEngine .load).status.busy = true :=
  ⟨one_inv rfl rfl rfl load_ok, rfl, rfl⟩

theorem witness_BusyRises :
    (bench.withFetchWord 32 1).Inv ∧ (bench.withFetchWord 32 1).engines[0]? = some benchEngine ∧
      benchEngine.status.busy = false ∧
      ∃ t h, step (bench.withFetchWord 32 1) = .next t ∧ t.engines[0]? = some h ∧ h.status.busy = true :=
  ⟨one_inv rfl rfl rfl bench_ok, rfl, rfl, _, _, rfl, rfl, rfl⟩

theorem witness_BusyFallsByCompletion :
    (oneEngine (runningEngine .finish)).Inv ∧ (runningEngine .finish).status.busy = true ∧
      ∃ t h, step (oneEngine (runningEngine .finish)) = .next t ∧ t.engines[0]? = some h ∧ h.status.busy = false :=
  ⟨one_inv rfl rfl rfl finish_ok, rfl, _, _, rfl, rfl, rfl⟩

theorem witness_BusyFallsByError :
    State.Inv { oneEngine (runningEngine .load) with schedule := [.engine 0 .error] } ∧
      (runningEngine .load).status.busy = true ∧
      ∃ t h, step { oneEngine (runningEngine .load) with schedule := [.engine 0 .error] } = .next t ∧
        t.engines[0]? = some h ∧ h.status.busy = false :=
  ⟨one_inv rfl rfl rfl load_ok, rfl, _, _, rfl, rfl, rfl⟩

theorem witness_BusyFallsByReset :
    State.Inv { oneEngine (runningEngine .load) with schedule := [.assertReset 0] } ∧
      (runningEngine .load).status.busy = true ∧
      ∃ t h, step { oneEngine (runningEngine .load) with schedule := [.assertReset 0] } = .next t ∧
        t.engines[0]? = some h ∧ h.status.busy = false :=
  ⟨one_inv rfl rfl rfl load_ok, rfl, _, _, rfl, rfl, rfl⟩

theorem witness_OverrunIsSet :
    (oneEngine (runningEngine .load)).engines[0]? = some (runningEngine .load) ∧ (runningEngine .load).inReset = false ∧
      (runningEngine .load).status.busy = true := by
  decide

/-- A host program that writes `w` to the register of engine 0 at offset `off`, in a system whose engine is `doneEngine`. -/
def doneWrite (off : Nat) (w : Word) : State := { oneEngine doneEngine with program := [.wr ⟨off, 4⟩ w] }

theorem witness_OverrunIsCleared :
    (doneWrite 8 8#32).Inv ∧ (doneWrite 8 8#32).engines[0]? = some doneEngine ∧ doneEngine.status.ovr = true ∧
      ∃ t h, step (doneWrite 8 8#32) = .next t ∧ t.engines[0]? = some h ∧ h.status.ovr = false :=
  ⟨one_inv rfl rfl rfl done_ok, rfl, rfl, _, _, rfl, rfl, rfl⟩

theorem witness_OverrunIsClearedByWriteAndReset :
    (oneEngine doneEngine).engines[0]? = some doneEngine ∧ doneEngine.inReset = false ∧ (8#32).getLsbD 3 = true := by
  decide

theorem witness_InterruptIsEnabledStatus : Engine.reset ∈ (State.resetWith Params.default).engines := by decide

theorem witness_InterruptIsRemovedByStatus :
    (doneWrite 8 2#32).Inv ∧ (doneWrite 8 2#32).engines[0]? = some doneEngine ∧ doneEngine.irq = true ∧
      ∃ t h, step (doneWrite 8 2#32) = .next t ∧ t.engines[0]? = some h ∧ h.irq = false :=
  ⟨one_inv rfl rfl rfl done_ok, rfl, rfl, _, _, rfl, rfl, rfl⟩

theorem witness_InterruptIsRemovedByEnable :
    (doneWrite 12 2#32).Inv ∧ (doneWrite 12 2#32).engines[0]? = some doneEngine ∧ doneEngine.irq = true ∧
      ∃ t h, step (doneWrite 12 2#32) = .next t ∧ t.engines[0]? = some h ∧ h.irq = false :=
  ⟨one_inv rfl rfl rfl done_ok, rfl, rfl, _, _, rfl, rfl, rfl⟩

theorem witness_InterruptIsRemovedBySubmission :
    (doneWrite 4 0#32).Inv ∧ (doneWrite 4 0#32).engines[0]? = some doneEngine ∧ doneEngine.irq = true ∧
      ∃ t h, step (doneWrite 4 0#32) = .next t ∧ t.engines[0]? = some h ∧ h.irq = false :=
  ⟨one_inv rfl rfl rfl done_ok, rfl, rfl, _, _, rfl, rfl, rfl⟩

theorem witness_CommandWhileBusyIsDropped :
    (oneEngine (runningEngine .load)).engines[0]? = some (runningEngine .load) ∧ (runningEngine .load).inReset = false ∧
      (runningEngine .load).status.busy = true ∧
      statusOf ((oneEngine (runningEngine .load)).regWrite 0 0#32 .cmd) = some 0x00000009#32 := by
  decide

/-- Latched values that fail each check of R114 in turn, every check before it passed: the last row passes all. -/
theorem witness_ValidationIsTheFirstFailingCheck :
    validate 8 4#32 (benchEngine.latch 4#32) = some .illegalCmd ∧
      validate 8 3#32 ({ benchEngine with rParam := 9#32 }.latch 3#32) = some .badR ∧
      validate 8 3#32 ({ benchEngine with nParam := 65536#32 }.latch 3#32) = some .badN ∧
      validate 8 3#32 ({ benchEngine with vAddr := 0x10001#32 }.latch 3#32) = some .align ∧
      validate 8 3#32 ({ benchEngine with vAddr := 0xfffff804#32 }.latch 3#32) = some .range ∧
      validate 8 3#32 ({ benchEngine with vAddr := 0x804#32 }.latch 3#32) = some .overlap ∧
      validate 8 3#32 ({ benchEngine with vAddr := 0x800#32 }.latch 3#32) = none ∧
      (benchEngine.latch 3#32).op = opField 3#32 := by
  decide

theorem witness_LegalNAreThePowersOfTwo :
    1 ≤ 31 ∧ 31 ≤ 31 ∧ 2 ≤ (2#32).toNat ∧
      ({ benchEngine with nParam := 15#32 } : Engine).latch 3#32 = ⟨3#4, 0x1000#32, 0x1000#32, 0x10000#32, 1#32, 15#32⟩ := by
  decide

theorem witness_RejectedSubmissionOnlyRecordsItsCode :
    bench.Inv ∧ bench.engines[0]? = some benchEngine ∧ benchEngine.ready = true ∧
      validate bench.params.rMax 0x13#32 (benchEngine.latch 0x13#32) = some .illegalCmd :=
  ⟨bench_inv, rfl, rfl, by decide⟩

theorem witness_IllegalWordsAreRejected :
    bench.Inv ∧ bench.engines[0]? = some benchEngine ∧ benchEngine.ready = true ∧
      ((0x13#32).toNat % 16 ≠ 1 ∧ (0x13#32).toNat % 16 ≠ 2 ∧ (0x13#32).toNat % 16 ≠ 3 ∨ (0x13#32).toNat / 16 ≠ 0) ∧
      ((0x4#32).toNat % 16 ≠ 1 ∧ (0x4#32).toNat % 16 ≠ 2 ∧ (0x4#32).toNat % 16 ≠ 3 ∨ (0x4#32).toNat / 16 ≠ 0) :=
  ⟨bench_inv, rfl, rfl, by decide, by decide⟩

theorem witness_ValidSubmissionIsAccepted :
    bench.Inv ∧ bench.engines[bench.target]? = some benchEngine ∧ benchEngine.ready = true ∧
      ∀ i, validate bench.params.rMax (encode i) (benchEngine.latch (encode i)) = none :=
  ⟨bench_inv, rfl, rfl, fun i => by cases i <;> decide⟩

/-- In place, at the top of memory. -/
theorem witness_Salsa8ComputesTheBlock :
    (oneEngine { benchEngine with srcAddr := 0xffffffc0#32, dstAddr := 0xffffffc0#32 }).Inv ∧
      (oneEngine { benchEngine with srcAddr := 0xffffffc0#32, dstAddr := 0xffffffc0#32 }).noConflict
        (benchEngine.latch (encode .salsa8)) = true ∧
      benchEngine.ready = true ∧ (0xffffffc0#32).toNat % 4 = 0 ∧ (0xffffffc0#32).toNat + 64 ≤ 2 ^ 32 :=
  ⟨one_inv rfl rfl rfl (idle_ok rfl (fun _ => rfl) (by decide) rfl rfl rfl), by decide, rfl, by decide, by decide⟩

/-- In place. -/
theorem witness_BlockmixComputesTheSuperBlock :
    bench.Inv ∧ bench.engines[bench.target]? = some benchEngine ∧ benchEngine.ready = true ∧
      bench.noConflict (benchEngine.latch (encode .blockmix)) = true ∧ 1 ≤ benchEngine.rParam.toNat ∧
      benchEngine.rParam.toNat ≤ bench.params.rMax ∧ benchEngine.srcAddr.toNat % 4 = 0 ∧
      benchEngine.srcAddr.toNat + 128 * benchEngine.rParam.toNat ≤ 2 ^ 32 ∧ benchEngine.srcAddr = benchEngine.dstAddr :=
  ⟨bench_inv, rfl, rfl, by decide, by decide, by decide, by decide, by decide, rfl⟩

/-- In place, V above. -/
theorem witness_RomixComputesTheSuperBlockAndTheTable :
    bench.Inv ∧ bench.engines[bench.target]? = some benchEngine ∧ benchEngine.ready = true ∧
      bench.noConflict (benchEngine.latch (encode .romix)) = true ∧ (∃ k, benchEngine.nParam.toNat = 2 ^ k) ∧
      2 ≤ benchEngine.nParam.toNat ∧ benchEngine.nParam.toNat < 2 ^ (16 * benchEngine.rParam.toNat) ∧
      benchEngine.vAddr.toNat % 4 = 0 ∧ benchEngine.vAddr.toNat + 16 * 128 ≤ 2 ^ 32 ∧
      benchEngine.srcAddr.toNat + 128 ≤ benchEngine.vAddr.toNat ∧ benchEngine.srcAddr = benchEngine.dstAddr :=
  ⟨bench_inv, rfl, rfl, by decide, ⟨4, by decide⟩, by decide, by decide, by decide, by decide, by decide, rfl⟩

/-- Two systems that differ in the addresses, with the same (empty) input. -/
theorem witness_ResultsDependOnTheInputAlone :
    bench.Inv ∧ (oneEngine { benchEngine with dstAddr := 0x2000#32, vAddr := 0x20000#32 }).Inv ∧
      ({ benchEngine with dstAddr := 0x2000#32, vAddr := 0x20000#32 } : Engine).ready = true ∧
      validate 8 3#32 ({ benchEngine with dstAddr := 0x2000#32, vAddr := 0x20000#32 }.latch 3#32) = none ∧
      bench.noConflict (benchEngine.latch 3#32) = true :=
  ⟨bench_inv, one_inv rfl rfl rfl (idle_ok rfl (fun _ => rfl) (by decide) rfl rfl rfl), rfl, by decide, by decide⟩

theorem witness_RunningCommandStaysOnTrack :
    (oneEngine (runningEngine .load)).Inv ∧ (runningEngine .load).running = true ∧ (runningEngine .load).tainted = false ∧
      (runningEngine .load).OnTrack [] (Memory.readBytes [] 0x1000 64) ∧
      ∃ t, step (oneEngine (runningEngine .load)) = .next t :=
  ⟨one_inv rfl rfl rfl load_ok, rfl, rfl, ⟨rfl, rfl⟩, _, rfl⟩

/-- The second engine is tainted. -/
theorem witness_CompletionIsOneStep :
    (oneEngine (runningEngine .finish)).Inv ∧ (oneEngine (runningEngine .finish).taint).Inv ∧
      (runningEngine .finish).tainted = false ∧ (runningEngine .finish).taint.tainted = true ∧
      (runningEngine .finish).taint.scratch.act = .finish ∧
      (oneEngine (runningEngine .finish)).engines[0]? = some (runningEngine .finish) ∧
      (runningEngine .finish).running = true ∧ (runningEngine .finish).scratch.act = .finish :=
  ⟨one_inv rfl rfl rfl finish_ok, one_inv rfl rfl rfl finish_ok.taint, rfl, rfl, rfl, rfl, rfl, rfl⟩

/-- A running command: also for HazardsMakeContentsUnspecified, whose store and read are at its first and last bytes. -/
theorem witness_EveryTurnBringsTheCommandNearer :
    (oneEngine (runningEngine .load)).Inv ∧
      (oneEngine (runningEngine .load)).engines[0]? = some (runningEngine .load) ∧
      (runningEngine .load).running = true ∧ (runningEngine .load).turnsLeft = 34 :=
  ⟨one_inv rfl rfl rfl load_ok, rfl, rfl, rfl⟩

/-- A command that reads, and one that writes. -/
theorem witness_CommandsTouchOnlyTheirRegions :
    (oneEngine (runningEngine .load)).Inv ∧ (runningEngine .load).portOp = some (.read 0x1000) ∧
      (oneEngine (runningEngine .store)).Inv ∧
      (runningEngine .store).portOp = some (.write 0x1000 [0#8, 0#8, 0#8, 0#8]) ∧
      ∃ t, bench.regWrite 0 0#32 .cmd = .next t :=
  ⟨one_inv rfl rfl rfl load_ok, rfl, one_inv rfl rfl rfl store_ok, rfl, _, rfl⟩

theorem witness_BytesMovedPerCommand :
    bench.Inv ∧ bench.engines[bench.target]? = some benchEngine ∧ benchEngine.ready = true ∧
      ∀ i, validate bench.params.rMax (encode i) (benchEngine.latch (encode i)) = none :=
  ⟨bench_inv, rfl, rfl, fun i => by cases i <;> decide⟩

theorem witness_HazardsMakeContentsUnspecified :
    (oneEngine (runningEngine .load)).Inv ∧ (runningEngine .load).running = true ∧ 0x103f + 1 ≤ 2 ^ 32 ∧
      (∃ r ∈ (runningEngine .load).lat.regions, ∃ x, r.holds x = true ∧ 0x103f ≤ x ∧ x < 0x103f + 1) ∧
      (∃ r ∈ (runningEngine .load).lat.writeRegions, r.holds (0x1000 + 63) = true) ∧
      ∀ o ∈ (oneEngine (runningEngine .load)).engines, o.running = true →
        ∀ r ∈ o.lat.writeRegions, r.holds (0x1000 + 64) = false :=
  ⟨one_inv rfl rfl rfl load_ok, rfl, by decide,
    ⟨⟨0x1000, 64⟩, by decide, 0x103f, by decide, by decide, by decide⟩, by decide, by decide⟩

theorem witness_MemoryErrorAborts :
    (oneEngine (runningEngine .store)).Inv ∧
      (oneEngine (runningEngine .store)).engines[0]? = some (runningEngine .store) ∧
      (runningEngine .store).running = true ∧ (runningEngine .store).portOp ≠ none :=
  ⟨one_inv rfl rfl rfl store_ok, rfl, rfl, by decide⟩

theorem witness_EnginesShareOnlyMemory :
    0 ≠ 1 ∧ (twoEngines (runningEngine .load) benchEngine).engines[1]? = some benchEngine ∧
      (∃ t, (twoEngines (runningEngine .load) benchEngine).engineStep 0 .ok = .next t) ∧
      (∃ t, (twoEngines (runningEngine .load) benchEngine).takeTurn (.assertReset 0) = .next t) ∧
      (∃ t, (twoEngines heldEngine benchEngine).takeTurn (.releaseReset 0) = .next t) ∧
      ∃ t, (twoEngines benchEngine (runningEngine .load)).regWrite 0 1#32 .cmd = .next t :=
  ⟨by decide, rfl, ⟨_, rfl⟩, ⟨_, rfl⟩, ⟨_, rfl⟩, _, rfl⟩

theorem witness_ResetAbandonsAndClears :
    (oneEngine (runningEngine .store)).Inv ∧
      (oneEngine (runningEngine .store)).engines[0]? = some (runningEngine .store) :=
  ⟨one_inv rfl rfl rfl store_ok, rfl⟩

theorem witness_NothingStartsAtReset :
    0 < Params.default.numEngines ∧ (oneEngine heldEngine).Inv ∧ (oneEngine heldEngine).engines[0]? = some heldEngine ∧
      heldEngine.inReset = true :=
  ⟨by decide, one_inv rfl rfl rfl held_ok, rfl, rfl⟩

theorem witness_FirstCommandAfterReset :
    Params.wf { rMax := 1, regBase := [0, 256] } = true ∧ 1 < Params.numEngines { rMax := 1, regBase := [0, 256] } ∧
      encode .salsa8 = 1#32 := by
  decide

theorem witness_StepKeepsTheInvariant :
    (bench.withFetchWord 32 3).Inv ∧ ∃ t, step (bench.withFetchWord 32 3) = .next t :=
  ⟨one_inv rfl rfl rfl bench_ok, _, rfl⟩

theorem witness_ResetHasTheInvariant : Params.wf { rMax := 33554432, regBase := [0, 256, 512] } = true := by decide

theorem witness_WordOperations : 1 ≤ 31 ∧ 31 ≤ 31 ∧ 31 < 32 := by decide

theorem witness_QuarterStepsFollowTheRule : (⟨15, 14, 13, 18⟩ : Quarter) ∈ (columnLines ++ rowLines).flatten := by decide

theorem witness_LinesOfARoundCommute : columnLines.Perm columnLines ∧ rowLines.reverse.Perm rowLines :=
  ⟨List.Perm.refl _, List.reverse_perm _⟩

theorem witness_OneBlock : (List.replicate 64 0#8 : Bytes).length = 64 := by decide

/-- For BlockmixChainsAndInterleaves and IntegerifyReadsFourBytes. -/
theorem witness_OneSuperBlock : 1 ≤ 1 ∧ (List.replicate 128 0#8 : Bytes).length = 128 * 1 ∧ 64 = (2 * 1 - 1) * 64 := by
  simp

theorem witness_IndexStaysInsideTheTable : isPow2 0x80000000#32 = true ∧ 2 ≤ (0x80000000#32).toNat := by decide

theorem witness_RomixBuildsThenMixes : 1 ≤ 1 := by decide

theorem witness_EqualMemoriesAreEqualData :
    Memory.wf [(0, 1#8), (4294967295, 2#8)] = true ∧ 4294967295 < 2 ^ 32 ∧
      Memory.read [(0, 1#8), (4294967295, 2#8)] 4294967295 = 2#8 := by
  decide +kernel

/-- At the top of memory, and one byte past it, to store and to load. -/
theorem witness_StoresAreLoaded :
    bench.mem.wf = true ∧ (∀ g ∈ bench.engines, g.running = false) ∧ 4294967295 + [7#8].length ≤ 2 ^ 32 ∧
      2 ^ 32 < 4294967295 + [7#8, 8#8].length ∧ 2 ^ 32 < 4294967295 + 2 := by
  decide +kernel

theorem witness_PortWordsAreLittleEndian : 3 < 4 := by decide

/-- A request of vector L1-1's form, a dkLen one past the bound, and counts that are none. -/
theorem witness_Pbkdf2ChecksItsArguments :
    1 ≤ 1 ∧ 1 ≤ 32 ∧ HostNum.int 1 = .int (1 : Nat) ∧ (2 ^ 32 - 1) * Hash.sha256.hLen < 137438953441 ∧
      32 ≤ (2 ^ 32 - 1) * Hash.sha256.hLen ∧ (¬∃ d : Nat, 1 ≤ d ∧ HostNum.int 0 = .int d) ∧
      ¬∃ c : Nat, 1 ≤ c ∧ HostNum.nonInteger = .int c := by
  have h1 : (2 ^ 32 - 1) * Hash.sha256.hLen = 137438953440 := by decide
  rw [h1]
  refine ⟨by omega, by omega, rfl, by omega, by omega, ?_, ?_⟩
  · rintro ⟨d, h2, h3⟩
    have := HostNum.int.inj h3
    omega
  · rintro ⟨c, -, h3⟩
    cases h3

theorem witness_Pbkdf2IsTheXorOfItsChains : 1 ≤ 1 ∧ 1 ≤ 33 := by decide

/-- An HMAC whose first call fails. -/
theorem witness_Pbkdf2PassesFailuresOn :
    1 ≤ 1 ∧ (fun _ _ _ => none : Hmac) .sha1 (hmacKey [] .sha1) (bigEndianU32 1) = none := ⟨by decide, rfl⟩

theorem witness_BlockIndexAndEmptyPassword : ([0#8] : Bytes).length ≠ 0 := by decide

/-- Vector L1-3: N = 15. -/
theorem witness_ScryptChecksItsArguments :
    scryptNums 8 { scryptReq [slot0] with N := .int 15 } = none ∧
      scryptNums 8 (scryptReq [slot0]) = some ⟨16, 1, 1, 64⟩ := by
  decide

theorem witness_EngineErrorsReachTheHost :
    bench.params.wf = true ∧ 0 < bench.params.numEngines ∧
      (oneEngine { benchEngine with status := statusBadN }).engines[0]? = some { benchEngine with status := statusBadN } ∧
      benchEngine.inReset = false ∧ statusError statusBadN.word = some .invalidParameter := by
  decide

theorem witness_EngineErrorsReachTheHostAfterDone : statusDoneOvr.done = true ∧ statusDoneOvr.err = false := by decide

theorem witness_PlansMixEachBlockOnce :
    [slot0, slot1][1]? = some slot1 ∧ 0 ≠ 1 ∧ slot0.engine = slot1.engine ∧
      ([.start 1, .collect 1, .start 0, .collect 0] : List MixMove)[2]? = some (.start 0) := by
  decide

/-- SuperBlock 0 failed; the command of SuperBlock 1 runs, that of SuperBlock 2 is not started: only the tables of the first two
are erased. -/
theorem test_tables_erased_after_an_error :
    dropDerivation
        ([.takeBlock 0 0 64, .eraseTable 0 ⟨8, 4⟩ 0 64, .placeBlock 2 0 64, .eraseTable 1 ⟨264, 4⟩ 64 64,
          .eraseTable 2 ⟨8, 4⟩ 128 64] ++ [.finishScrypt [] 1, .ldb 0 1]) =
      [.wait ⟨8, 4⟩ 1#32 0#32, .eraseTable 0 ⟨8, 4⟩ 0 64, .wait ⟨264, 4⟩ 1#32 0#32, .eraseTable 1 ⟨264, 4⟩ 64 64, .ldb 0 1] := by
  decide

theorem witness_TablesAreErasedAfterAnError :
    (∀ pw n, HostStmt.finishScrypt pw n ∉ [HostStmt.eraseTable 0 ⟨8, 4⟩ 0 64]) ∧
      HostStmt.eraseTable 0 ⟨8, 4⟩ 0 64 ∈ [HostStmt.eraseTable 0 ⟨8, 4⟩ 0 64] ∧
      (∀ b l, HostStmt.placeBlock 0 b l ∉ [HostStmt.eraseTable 0 ⟨8, 4⟩ 0 64]) ∧ bench.mem.wf = true ∧
      (∀ g ∈ bench.engines, g.running = false) ∧ 4294967232 + 64 ≤ 2 ^ 32 :=
  ⟨by simp, by simp, by simp, rfl, by decide, by decide⟩

/-- The parameters of vector L1-2, on program P3's regions. -/
theorem witness_ScryptRunsOnTheEngine :
    State.Inv { bench with program := [.deriveKeyScrypt (scryptReq [slot0])] } ∧
      (scryptReq [slot0]).plan = [.start 0, .collect 0] ∧
      (∀ o ∈ bench.engines, o.running = false) ∧
      scryptNums bench.params.rMax (scryptReq [slot0]) = some ⟨16, 1, 1, 64⟩ ∧
      bench.engines[slot0.engine]? = some benchEngine ∧ benchEngine.inReset = false ∧ slot0.src.toNat % 4 = 0 ∧
      slot0.v.toNat % 4 = 0 ∧ slot0.src.toNat + 128 ≤ 2 ^ 32 ∧ slot0.v.toNat + 16 * 128 ≤ 2 ^ 32 ∧
      slot0.src = slot0.dst ∧ slot0.src.toNat + 128 ≤ slot0.v.toNat :=
  ⟨one_inv rfl rfl rfl bench_ok, rfl, by decide, by decide, rfl, rfl, by decide, by decide, by decide, by decide, rfl,
    by decide⟩

end Sys2Proof.Tests
end

section
/-! PROOFS. Words and bytes (spec/00_scope.md R10): the value of `LE32`, and `Words` and `Bytes` as each other's inverse. -/

namespace Sys2Proof.Machine

/-- A byte appended on the right is the least significant one. -/
theorem toNat_append_byte {n : Nat} (x : BitVec n) (b : Byte) : (x ++ b).toNat = 256 * x.toNat + b.toNat := by
  rw [BitVec.toNat_append, ← Nat.shiftLeft_add_eq_or_of_lt b.isLt, Nat.shiftLeft_eq, Nat.mul_comm]

theorem le32_toNat (b0 b1 b2 b3 : Byte) :
    (le32 b0 b1 b2 b3).toNat = b0.toNat + 256 * b1.toNat + 65536 * b2.toNat + 16777216 * b3.toNat := by
  simp only [le32, toNat_append_byte]
  omega

/-- The bytes of a word are its base-256 digits. -/
theorem extractLsb'_byte_toNat (w : Word) (n : Nat) : (w.extractLsb' n 8).toNat = w.toNat / 2 ^ n % 256 := by
  simp [BitVec.extractLsb'_toNat, Nat.shiftRight_eq_div_pow]

@[simp] theorem leBytes_le32 (b0 b1 b2 b3 : Byte) : leBytes (le32 b0 b1 b2 b3) = [b0, b1, b2, b3] := by
  simp only [leBytes, List.cons.injEq, and_true, ← BitVec.toNat_inj, extractLsb'_byte_toNat, le32_toNat]
  omega

/-- `LE32` puts the four bytes of a word together again. -/
theorem le32_bytes (w : Word) :
    le32 (w.extractLsb' 0 8) (w.extractLsb' 8 8) (w.extractLsb' 16 8) (w.extractLsb' 24 8) = w := by
  apply BitVec.eq_of_toNat_eq
  simp only [le32_toNat, extractLsb'_byte_toNat]
  omega

@[simp] theorem wordsOf_getElem (b : Bytes) (k : Nat) (h : k < 16) : (wordsOf b)[k] = wordAt b (4 * k) := by
  simp [wordsOf]

theorem wordAt_leBytes_append_zero (w : Word) (b : Bytes) : wordAt (leBytes w ++ b) 0 = w := le32_bytes w

theorem wordAt_leBytes_append_add (w : Word) (b : Bytes) (a : Nat) : wordAt (leBytes w ++ b) (a + 4) = wordAt b a := rfl

/-- Word `k` of the bytes of a list of words is that word. -/
theorem wordAt_flatMap_leBytes (ws : List Word) (k : Nat) (h : k < ws.length) :
    wordAt (ws.flatMap leBytes) (4 * k) = ws[k] := by
  induction ws generalizing k with
  | nil => simp at h
  | cons w ws ih =>
    rw [List.flatMap_cons]
    cases k with
    | zero => exact wordAt_leBytes_append_zero w _
    | succ k => exact (wordAt_leBytes_append_add w _ (4 * k)).trans (ih k (by simpa using h))

@[simp] theorem wordsOf_bytesOf (w : Words) : wordsOf (bytesOf w) = w := by
  ext k hk
  rw [wordsOf_getElem, bytesOf, wordAt_flatMap_leBytes w.toList k (by simpa using hk)]
  simp

/-- The bytes of the word at an offset inside a byte sequence are the four bytes there. -/
theorem leBytes_wordAt (b : Bytes) (a : Nat) (h : a + 4 ≤ b.length) : leBytes (wordAt b a) = (b.drop a).take 4 := by
  have hstep (i : Nat) (hi : i < a + 4) : b.drop i = b.getD i 0#8 :: b.drop (i + 1) := by
    rw [List.drop_eq_getElem_cons (by omega), List.getD_eq_getElem]
  rw [wordAt, leBytes_le32, hstep a (by omega), hstep (a + 1) (by omega), hstep (a + 2) (by omega),
    hstep (a + 3) (by omega)]
  rfl

theorem wordAt_drop (b : Bytes) (n a : Nat) : wordAt (b.drop n) a = wordAt b (n + a) := by
  simp [wordAt, Nat.add_assoc]

/-- The bytes of the `n` words of a byte sequence of `n` words are the sequence. -/
theorem flatMap_leBytes_wordAt (n : Nat) (b : Bytes) (h : b.length = 4 * n) :
    (List.ofFn fun k : Fin n => wordAt b (4 * k.val)).flatMap leBytes = b := by
  induction n generalizing b with
  | zero => simpa using h
  | succ n ih =>
    have hrest : (List.ofFn fun k : Fin n => wordAt b (4 * k.succ.val)).flatMap leBytes = b.drop 4 := by
      simpa [wordAt_drop, Nat.mul_add, Nat.add_comm] using ih (b.drop 4) (by simp; omega)
    have hfirst : leBytes (wordAt b 0) = b.take 4 := leBytes_wordAt b 0 (by omega)
    rw [List.ofFn_succ, List.flatMap_cons, hrest]
    exact hfirst ▸ List.take_append_drop 4 b

theorem bytesOf_wordsOf {b : Bytes} (h : b.length = 64) : bytesOf (wordsOf b) = b := by
  rw [bytesOf, wordsOf, Vector.toList_ofFn]
  exact flatMap_leBytes_wordAt 16 b h

/-- Settles O43: R10's value of four bytes, the words of a byte sequence, and both inverse directions. -/
theorem wordsAndBytesAreInverse : Obligations.WordsAndBytesAreInverse :=
  ⟨le32_toNat, fun b k => wordsOf_getElem b k k.isLt, wordsOf_bytesOf, fun _ => bytesOf_wordsOf⟩

end Sys2Proof.Machine
end

section
/-! PROOFS. Register accesses (spec/10_state.md R20, R21, R39): the window an access reaches, the registers' offsets,
accesses that are refused, and reads. -/

namespace Sys2Proof

theorem basesApart_iff_pairwise (bs : List Nat) : basesApart bs = true ↔ bs.Pairwise (windowsApart · ·) := by
  induction bs with
  | nil => simp [basesApart]
  | cons b bs ih => simp [basesApart, ih]

theorem windowsApart_iff (a b : Nat) :
    windowsApart a b = true ↔ a + Config.regWindow ≤ b ∨ b + Config.regWindow ≤ a := by
  simp [windowsApart]

theorem Params.wf_basesApart {p : Params} (hp : p.wf = true) : basesApart p.regBase = true := by
  simp only [Params.wf, Bool.and_eq_true] at hp
  exact hp.2

theorem Params.base_eq_getElem {p : Params} {e : Nat} (he : e < p.regBase.length) : p.base e = p.regBase[e] := by
  simp [Params.base, he]

/-- Windows do not meet, so an address inside engine `e`'s window selects engine `e` (R76). -/
theorem Params.findIdx?_window {p : Params} {e off : Nat} (hp : p.wf = true) (he : e < p.numEngines)
    (hoff : off < 256) :
    p.regBase.findIdx? (fun b => b ≤ p.base e + off && p.base e + off < b + Config.regWindow) = some e := by
  have he : e < p.regBase.length := he
  have hapart := List.pairwise_iff_getElem.1 ((basesApart_iff_pairwise _).1 (Params.wf_basesApart hp))
  refine List.findIdx?_eq_some_iff_getElem.2 ⟨he, ?_, fun j hj => ?_⟩
  · simp [Params.base_eq_getElem he, Config.regWindow, hoff]
  · have hje := (windowsApart_iff _ _).1 (hapart j e (by omega) he hj)
    simp only [Config.regWindow] at hje
    simp only [Params.base_eq_getElem he, Config.regWindow, Bool.and_eq_true, decide_eq_true_eq]
    omega

/-- Which accesses of a window are `REGX` transactions, and what they reach (R20, R21). -/
theorem RegRef.resolve_window {p : Params} {e off : Nat} (size : Nat) (hp : p.wf = true) (he : e < p.numEngines)
    (hoff : off < 256) :
    RegRef.resolve p { addr := p.base e + off, size := size } =
      if size ≠ 4 then .error .accessSize else if off % 4 ≠ 0 then .error .misaligned else .ok (e, off) := by
  simp only [RegRef.resolve, Params.findIdx?_window hp he hoff, Nat.add_sub_cancel_left]

theorem Reg.offset_lt (r : Reg) : r.offset < 256 := by cases r <;> decide

theorem Reg.offset_aligned (r : Reg) : r.offset % 4 = 0 := by cases r <;> rfl

@[simp] theorem Reg.ofOffset_offset (r : Reg) : Reg.ofOffset r.offset = r := by cases r <;> rfl

/-- Each register of R20's table stands at one offset only. -/
theorem Reg.offset_ofOffset {off : Nat} (h : Reg.ofOffset off ≠ .reserved) : (Reg.ofOffset off).offset = off := by
  unfold Reg.ofOffset at h ⊢
  split_ifs at h ⊢ <;> simp_all [Reg.offset]

theorem Params.resolve_reg {p : Params} {e : Nat} (r : Reg) (hp : p.wf = true) (he : e < p.numEngines) :
    (p.reg e r).resolve p = .ok (e, r.offset) := by
  simp [Params.reg, RegRef.resolve_window 4 hp he r.offset_lt, r.offset_aligned]

namespace Machine

theorem State.access_error {s : State} {ref : RegRef} {why : StmtProblem} (h : ref.resolve s.params = .error why)
    (f : Nat → Reg → Host.Outcome State Fault Refusal) : s.access ref f = .refused (.hostStatement why) := by
  simp [State.access, h]

theorem State.access_ok {s : State} {ref : RegRef} {e off : Nat} (h : ref.resolve s.params = .ok (e, off))
    (f : Nat → Reg → Host.Outcome State Fault Refusal) : s.access ref f = f e (Reg.ofOffset off) := by
  simp [State.access, h]

/-- What a register of an engine out of reset reads as (R20). -/
theorem State.regValue_of_released (s : State) {g : Engine} (r : Reg) (h : g.inReset = false) :
    s.regValue g r = g.readReg s.params r := by
  simp [State.regValue, h]

/-- A read of a register hands its value on and draws from the free values (R39). -/
theorem State.regRead_eq {s : State} {e : Nat} {g : Engine} (hg : s.engines[e]? = some g) (r : Reg)
    (f : Word → State → State) : s.regRead e r f = .next (f (s.regValue g r) s.drawn) :=
  State.onEngine_some hg

/-- An access of a register of an engine the platform has reaches that register (R20, R94). -/
theorem State.access_reg {s : State} {e : Nat} (r : Reg) (hp : s.params.wf = true) (he : e < s.params.numEngines)
    (f : Nat → Reg → Host.Outcome State Fault Refusal) : s.access (s.params.reg e r) f = f e r := by
  rw [State.access_ok (Params.resolve_reg r hp he), Reg.ofOffset_offset]

theorem State.hostStep_cons {s : State} {st : HostStmt} {rest : List HostStmt} (h : s.program = st :: rest) :
    s.hostStep = { s with program := rest }.runStmt st := by
  rw [State.hostStep, h]

/-- `RD` records what the register reads as (R97). -/
theorem State.runStmt_rd_reg {s : State} {e : Nat} {g : Engine} (r : Reg) (hp : s.params.wf = true)
    (he : e < s.params.numEngines) (hg : s.engines[e]? = some g) :
    s.runStmt (.rd (s.params.reg e r)) = .next (s.drawn.result (.value (s.regValue g r))) := by
  rw [State.runStmt, State.access_reg r hp he, State.regRead_eq hg]

/-- Settles O6: an access of a window that is not an aligned word resolves to a problem, with which every statement's
access is refused. -/
theorem otherAccessesAreRefused : Obligations.OtherAccessesAreRefused := by
  intro s e off size w mask val hp he hoff hbad
  obtain ⟨why, hwhy⟩ : ∃ why,
      RegRef.resolve s.params { addr := s.params.base e + off, size := size } = .error why := by
    rw [RegRef.resolve_window size hp he hoff]
    split_ifs with hsize halign
    · exact ⟨_, rfl⟩
    · exact ⟨_, rfl⟩
    · omega
  refine ⟨why, ?_, ?_, ?_⟩ <;> rw [State.runStmt, State.access_error hwhy]

/-- Settles O10: the access resolves to the register, and a read of it only records its value. -/
theorem readsHaveNoSideEffect : Obligations.ReadsHaveNoSideEffect := by
  intro s e g r rest hp hg he hprog
  have hstep := (State.hostStep_cons hprog).trans
    (State.runStmt_rd_reg (s := { s with program := rest }) r hp he hg)
  exact ⟨_, hstep, rfl, rfl, rfl, rfl, rfl, rfl, rfl, rfl, s.regValue_of_released r⟩

end Machine
end Sys2Proof
end

section
/-! PROOFS. What one step of the system does to one engine: a register write (spec/10_state.md R29 to R38,
spec/40_command_lifecycle.md R110 to R113), a turn of the engine (R116, R118), a step of any agent (R270). -/

namespace Sys2Proof.Machine

/-! ### One engine replaced, commands tainted -/

@[simp] theorem taintIf_false (gs : List Engine) : taintIf (fun _ => false) gs = gs := by
  simp [taintIf]

theorem set_getElem?_self {gs : List Engine} {e : Nat} {g : Engine} (h : gs[e]? = some g) : gs.set e g = gs := by
  obtain ⟨hlt, rfl⟩ := List.getElem?_eq_some_iff.1 h
  exact List.set_getElem_self hlt

/-- Where commands were tainted, an engine is what it was, or that tainted. -/
theorem eq_or_eq_taint_of_taintIf {gs : List Engine} {p : Latched → Bool} {e : Nat} {g h : Engine}
    (hg : gs[e]? = some g) (hh : (taintIf p gs)[e]? = some h) : h = g ∨ h = g.taint := by
  obtain ⟨x, hx, -, -, -, -, hh⟩ := taintIf_get hh
  obtain rfl : x = g := Option.some.inj (hx.symm.trans hg)
  exact hh

/-! ### A register write of the host -/

theorem decode_ok_fields {w : Word} {i : Instr} (h : decode w = .ok i) : rsvField w = 0#28 ∧ opField w = i.op := by
  unfold decode at h
  split_ifs at h with hrsv hop hop hop <;>
  · obtain rfl := Except.ok.inj h
    exact ⟨not_not.1 hrsv, hop⟩

/-- The word of a command is the only one that decodes to it (R91). -/
theorem encode_of_decode {w : Word} {i : Instr} (h : decode w = .ok i) : encode i = w := by
  obtain ⟨hrsv, hop⟩ := decode_ok_fields h
  rw [encode, ← hop, cmdw_opField hrsv]

/-- A host write to `CMD` is the submission of its word, command or not (R92, R96). -/
theorem State.regWrite_cmd (s : State) (e : Nat) (w : Word) :
    s.regWrite e w .cmd = { s with target := e }.submit w := by
  cases hd : decode w with
  | ok i => simp only [State.regWrite, hd, exec_submit, encode_of_decode hd]
  | error err => simp only [State.regWrite, hd]

/-- A host write to a register other than `CMD` (R290). -/
theorem State.regWrite_of_ne_cmd (s : State) (e : Nat) (w : Word) {r : Reg} (hr : r ≠ .cmd) :
    s.regWrite e w r =
      s.onEngine e fun g => if g.inReset then .next s else .next (s.setEngine e (g.writeReg w r)) := by
  cases r
  case cmd => exact absurd rfl hr
  all_goals rfl

theorem State.regWrite_register {s : State} {e : Nat} {g : Engine} (w : Word) {r : Reg} (hr : r ≠ .cmd)
    (hg : s.engines[e]? = some g) (hi : g.inReset = false) :
    s.regWrite e w r = .next (s.setEngine e (g.writeReg w r)) := by
  rw [s.regWrite_of_ne_cmd e w hr, State.onEngine_some hg]
  simp [hi]

/-- A submission while busy is dropped with `OVR` set (R110). -/
theorem State.submit_of_busy {s : State} {g : Engine} (w : Word) (hg : s.engines[s.target]? = some g)
    (hi : g.inReset = false) (hb : g.status.busy = true) :
    s.submit w = .next (s.setEngine s.target g.overrun) := by
  rw [State.submit, State.onEngine_some hg]
  simp [hi, hb]

/-- What a host write of `w` to a register makes of the engine `g` (R29 to R38, R110 to R113, R290), `R_MAX` being
`rMax`. -/
inductive Engine.RegWrite (rMax : Nat) (w : Word) (g : Engine) : Reg → Engine → Prop
  | ignored (r : Reg) : g.inReset = true → RegWrite rMax w g r g
  | register {r : Reg} : r ≠ .cmd → g.inReset = false → RegWrite rMax w g r (g.writeReg w r)
  | overrun : g.inReset = false → g.status.busy = true → RegWrite rMax w g .cmd g.overrun
  | rejected {c : ErrCode} : g.inReset = false → g.status.busy = false → validate rMax w (g.latch w) = some c →
      RegWrite rMax w g .cmd ((g.submitted w).rejected c)
  | accepted {conflict : Bool} : g.inReset = false → g.status.busy = false → validate rMax w (g.latch w) = none →
      RegWrite rMax w g .cmd ((g.submitted w).accept conflict)

theorem State.raiseError_idle (s : State) (e : Nat) {g : Engine} (c : ErrCode) (h : g.running = false) :
    s.raiseError e g c = s.setEngine e (g.rejected c) := by
  simp [State.raiseError, h]

/-- A submission changes the engine addressed, and taints running commands it conflicts with (R84). -/
theorem State.submit_engines {s t : State} {w : Word} (hinv : s.Inv) (ht : s.submit w = .next t) :
    ∃ g h p, s.engines[s.target]? = some g ∧ g.RegWrite s.params.rMax w .cmd h ∧
      t.engines = (taintIf p s.engines).set s.target h := by
  obtain ⟨g, hg, ht⟩ := State.onEngine_next.1 ht
  refine ⟨g, ?_⟩
  cases hi : g.inReset with
  | true =>
    simp only [hi, if_true, Host.Outcome.next.injEq] at ht
    exact ⟨g, fun _ => false, hg, .ignored _ hi, by rw [← ht, taintIf_false, set_getElem?_self hg]⟩
  | false =>
  cases hb : g.status.busy with
  | true =>
    simp only [hi, hb, if_true, Bool.false_eq_true, if_false, Host.Outcome.next.injEq] at ht
    exact ⟨_, fun _ => false, hg, .overrun hi hb, by simp [← ht]⟩
  | false =>
  have hidle : g.running = false := (hinv.engineOk hg).busy ▸ hb
  simp only [hi, hb, Bool.false_eq_true, if_false] at ht
  cases hv : validate s.params.rMax w (g.latch w) with
  | some c =>
    simp only [hv, s.raiseError_idle s.target (g := g.submitted w) c hidle, Host.Outcome.next.injEq] at ht
    exact ⟨_, fun _ => false, hg, .rejected hi hb hv, by simp [← ht]⟩
  | none =>
    simp only [hv, Host.Outcome.next.injEq] at ht
    exact ⟨_, (g.latch w).conflicts, hg, .accepted hi hb hv, by rw [← ht]; rfl⟩

/-- A host write to a register of engine `e` changes that engine, and taints running commands a submission conflicts
with. -/
theorem State.regWrite_engines {s t : State} {e : Nat} {w : Word} {r : Reg} (hinv : s.Inv)
    (ht : s.regWrite e w r = .next t) :
    ∃ g h p, s.engines[e]? = some g ∧ g.RegWrite s.params.rMax w r h ∧ t.engines = (taintIf p s.engines).set e h := by
  by_cases hr : r = .cmd
  · subst hr
    rw [State.regWrite_cmd] at ht
    exact State.submit_engines (s := { s with target := e }) (hinv.congr rfl rfl rfl) ht
  · rw [State.regWrite_of_ne_cmd s e w hr] at ht
    obtain ⟨g, hg, ht⟩ := State.onEngine_next.1 ht
    refine ⟨g, ?_⟩
    cases hi : g.inReset with
    | true =>
      simp only [hi, if_true, Host.Outcome.next.injEq] at ht
      exact ⟨g, fun _ => false, hg, .ignored _ hi, by rw [← ht, taintIf_false, set_getElem?_self hg]⟩
    | false =>
      simp only [hi, Bool.false_eq_true, if_false, Host.Outcome.next.injEq] at ht
      exact ⟨_, fun _ => false, hg, .register hr hi, by simp [← ht]⟩

/-! ### A turn of an engine -/

/-- What a turn of its own makes of the engine `g`, the memory answering `ans` (R116). -/
inductive Engine.OwnTurn (ans : Answer) (g : Engine) : Engine → Prop
  /-- An engine that runs no command, or whose memory does not answer (R292, U11). -/
  | waits : g.running = false ∨ ans = .silent → OwnTurn ans g g
  /-- A transfer or a computation: only the sequencer and the scratch move on. -/
  | moves {h : Engine} : g.running = true → g.SameRegs h → OwnTurn ans g h
  /-- A transfer a device answered (R87). -/
  | strange {h : Engine} : g.running = true → ans = .strange → g.taint.SameRegs h → OwnTurn ans g h
  | aborted (f : Nat) : g.running = true → ans = .error → g.portOp ≠ none → OwnTurn ans g (g.aborted .bus f)
  | completed (f : Nat) : g.running = true → g.scratch.act = .finish → OwnTurn ans g (g.completed f)

theorem State.transfer_engines {s t : State} {e : Nat} {g : Engine} {op : PortOp} (ht : s.transfer e g op = .next t) :
    ∃ h, g.SameRegs h ∧ t.engines = s.engines.set e h := by
  unfold State.transfer at ht
  split at ht
  · cases op with
    | read a =>
      obtain rfl := Host.Outcome.next.inj ht
      exact ⟨_, g.afterRead_sameRegs _, rfl⟩
    | write a bs =>
      obtain rfl := Host.Outcome.next.inj ht
      exact ⟨_, g.afterWrite_sameRegs, rfl⟩
  · simp at ht

/-- An abort changes no engine but its own (R265). -/
theorem State.raiseError_running_engines (s : State) (e : Nat) {g : Engine} (c : ErrCode) (h : g.running = true) :
    (s.raiseError e g c).engines = s.engines.set e (g.aborted c (s.spoil g.lat true).freeCount) := by
  rw [State.raiseError, if_pos h]
  simp

/-- A reset changes no engine but its own (R290). -/
theorem State.assertReset_engines (s : State) (e : Nat) (g : Engine) :
    (s.assertReset e g).engines = s.engines.set e (Engine.heldInReset (s.spoil g.lat g.running).freeCount) := by
  simp [State.assertReset]

/-- A completion changes no engine but its own (R118). -/
theorem State.complete_engines (s : State) (e : Nat) (g : Engine) :
    (s.complete e g).engines = s.engines.set e (g.completed (s.spoil g.lat g.tainted).freeCount) := by
  simp [State.complete]

theorem State.answered_engines {s t : State} {e : Nat} {g : Engine} {op : PortOp} {ans : Answer}
    (hr : g.running = true) (hop : g.portOp = some op) (ht : s.answered e g op ans = .next t)
    (hg : s.engines[e]? = some g) : ∃ h, g.OwnTurn ans h ∧ t.engines = s.engines.set e h := by
  cases ans with
  | ok =>
    obtain ⟨h, hs, ht⟩ := State.transfer_engines ht
    exact ⟨h, .moves hr hs, ht⟩
  | strange =>
    obtain ⟨h, hs, ht⟩ := State.transfer_engines ht
    exact ⟨h, .strange hr rfl hs, ht⟩
  | silent =>
    obtain rfl := Host.Outcome.next.inj ht
    exact ⟨g, .waits (.inr rfl), (set_getElem?_self hg).symm⟩
  | error =>
    obtain rfl := Host.Outcome.next.inj ht
    exact ⟨_, .aborted _ hr rfl (by simp [hop]), s.raiseError_running_engines e .bus hr⟩

/-- A turn of engine `e` changes no other engine (R272). -/
theorem State.engineStep_engines {s t : State} {e : Nat} {ans : Answer} (ht : s.engineStep e ans = .next t) :
    ∃ g h, s.engines[e]? = some g ∧ g.OwnTurn ans h ∧ t.engines = s.engines.set e h := by
  obtain ⟨g, hg, ht⟩ := State.onEngine_next.1 ht
  suffices h : ∃ h, g.OwnTurn ans h ∧ t.engines = s.engines.set e h by
    obtain ⟨h, hturn, ht⟩ := h
    exact ⟨g, h, hg, hturn, ht⟩
  split at ht
  case isFalse hr =>
    obtain rfl := Host.Outcome.next.inj ht
    exact ⟨g, .waits (.inl (by simpa using hr)), (set_getElem?_self hg).symm⟩
  next hr =>
  split at ht
  · next op hop => exact State.answered_engines hr hop ht hg
  · next hop =>
    split at ht
    · next hfin =>
      obtain rfl := Host.Outcome.next.inj ht
      exact ⟨_, .completed _ hr hfin, s.complete_engines e g⟩
    · obtain rfl := Host.Outcome.next.inj ht
      exact ⟨_, .moves hr g.compute_sameRegs, rfl⟩

/-! ### A statement of the host that is no `WR` -/

/-- A register read changes no engine (R39). -/
theorem State.access_regRead_engines {s t : State} {ref : RegRef} {f : Word → State → State}
    (ht : (s.access ref fun e r => s.regRead e r f) = .next t) (hf : ∀ v u, (f v u).engines = u.engines) :
    t.engines = s.engines := by
  obtain ⟨e, off, -, ht⟩ := State.access_next ht
  obtain ⟨g, -, rfl⟩ := State.regRead_next ht
  exact hf _ _

theorem State.startScrypt_engines {s t : State} {hmac : Hmac} {q : ScryptReq} (ht : s.startScrypt hmac q = .next t) :
    t.engines = s.engines := by
  unfold State.startScrypt at ht
  split at ht
  · exact Host.Outcome.next.inj ht ▸ rfl
  split at ht
  · simp at ht
  split at ht <;> exact Host.Outcome.next.inj ht ▸ rfl

/-- A statement that is no `WR` changes nothing of an engine but its taint (R39, R86). -/
theorem State.runStmt_engines {s t : State} {st : HostStmt} (hst : ∀ ref w, st ≠ .wr ref w)
    (ht : s.runStmt st = .next t) : ∃ p, t.engines = taintIf p s.engines := by
  have hsame (h : t.engines = s.engines) : ∃ p, t.engines = taintIf p s.engines := ⟨fun _ => false, by simp [h]⟩
  have hstore {a : Nat} {bs : Bytes} (h : t = s.hostWrite a bs) : ∃ p, t.engines = taintIf p s.engines :=
    ⟨_, by rw [h, State.hostWrite_engines]⟩
  cases st <;> simp only [State.runStmt] at ht
  case wr ref w => exact absurd rfl (hst ref w)
  case rd ref => exact hsame (State.access_regRead_engines ht fun _ _ => rfl)
  case wait ref mask val => exact hsame (State.access_regRead_engines ht fun _ _ => by split <;> rfl)
  case checkStatus ref => exact hsame (State.access_regRead_engines ht fun _ _ => by split <;> rfl)
  case waitIrq e =>
    split at ht
    · simp at ht
    obtain ⟨g, -, ht⟩ := State.onEngine_next.1 ht
    split at ht <;> exact hsame (Host.Outcome.next.inj ht ▸ rfl)
  case stb a bs => exact hstore (State.storeAt_next ht).2
  case placeBlock k a len => exact hstore (State.storeAt_next ht).2
  case ldb a n => exact hsame (State.loadAt_next ht ▸ rfl)
  case takeBlock k a len => exact hsame (State.loadAt_next ht ▸ rfl)
  case deriveKeyPbkdf2 q => exact hsame (Host.Outcome.next.inj ht ▸ rfl)
  case deriveKeyScrypt q => exact hsame (State.startScrypt_engines ht)
  case eraseTable k ref a n =>
    obtain rfl := Host.Outcome.next.inj ht
    rcases s.eraseTable_cases a n with ⟨-, h⟩ | ⟨-, h⟩
    · exact hstore h
    · exact hsame (congrArg State.engines h)
  case finishScrypt pw n => exact hsame (Host.Outcome.next.inj ht ▸ rfl)

/-! ### A step of any agent -/

/-- What a step may make of engine `e`, which holds `g` (R116, R270): `p` are the parameters, `prog` is the host's
program, `turn` says whose step it is. -/
inductive Engine.Change (p : Params) (prog : List HostStmt) (turn : Turn) (e : Nat) (g : Engine) : Engine → Prop
  /-- A step that does not concern the engine. -/
  | same : Change p prog turn e g g
  /-- Another agent's step that is a hazard for its command (R84, R86). -/
  | taint : Change p prog turn e g g.taint
  | regWrite {ref : RegRef} {w : Word} {rest : List HostStmt} {off : Nat} {h : Engine} : turn = .host →
      prog = .wr ref w :: rest → ref.resolve p = .ok (e, off) → g.RegWrite p.rMax w (Reg.ofOffset off) h →
      Change p prog turn e g h
  | engineTurn {ans : Answer} {h : Engine} : turn = .engine e ans → g.OwnTurn ans h → Change p prog turn e g h
  | assertReset (f : Nat) : turn = .assertReset e → Change p prog turn e g (Engine.heldInReset f)
  | releaseReset : turn = .releaseReset e → Change p prog turn e g { g with inReset := false }

/-- Where commands were tainted and then engine `k`, which held `x`, was replaced by `y`, only what became of `x` is
left to say. -/
theorem Engine.Change.of_set {p : Params} {prog : List HostStmt} {turn : Turn} {gs gs' : List Engine}
    {q : Latched → Bool} {k e : Nat} {x y g h : Engine} (hx : gs[k]? = some x) (hgs : gs' = (taintIf q gs).set k y)
    (hg : gs[e]? = some g) (hh : gs'[e]? = some h) (hxy : k = e → x.Change p prog turn k y) :
    g.Change p prog turn e h := by
  subst hgs
  rw [List.getElem?_set] at hh
  split_ifs at hh with hke hlt
  · subst hke
    obtain rfl : x = g := Option.some.inj (hx.symm.trans hg)
    exact Option.some.inj hh ▸ hxy rfl
  · rcases eq_or_eq_taint_of_taintIf hg hh with rfl | rfl
    · exact .same
    · exact .taint

theorem State.hostStep_change {s t : State} {e : Nat} {g h : Engine} (hinv : s.Inv) (ht : s.hostStep = .next t)
    (hg : s.engines[e]? = some g) (hh : t.engines[e]? = some h) : g.Change s.params s.program .host e h := by
  cases hprog : s.program with
  | nil =>
    rw [State.hostStep, hprog] at ht
    obtain rfl := Host.Outcome.next.inj ht
    exact Option.some.inj (hg.symm.trans hh) ▸ .same
  | cons st rest =>
    rw [State.hostStep_cons hprog] at ht
    by_cases hst : ∃ ref w, st = .wr ref w
    · obtain ⟨ref, w, rfl⟩ := hst
      obtain ⟨k, off, hres, ht⟩ := State.access_next ht
      obtain ⟨x, y, q, hx, hxy, heng⟩ :=
        State.regWrite_engines (s := { s with program := rest }) (hinv.congr rfl rfl rfl) ht
      exact .of_set hx heng hg hh fun _ => .regWrite rfl rfl hres hxy
    · obtain ⟨q, heng⟩ := State.runStmt_engines (fun ref w h => hst ⟨ref, w, h⟩) ht
      rw [heng] at hh
      rcases eq_or_eq_taint_of_taintIf hg hh with rfl | rfl
      · exact .same
      · exact .taint

theorem State.takeTurn_change {s t : State} {turn : Turn} {e : Nat} {g h : Engine} (hinv : s.Inv)
    (ht : s.takeTurn turn = .next t) (hg : s.engines[e]? = some g) (hh : t.engines[e]? = some h) :
    g.Change s.params s.program turn e h := by
  have hone {k : Nat} {x y : Engine} (hx : s.engines[k]? = some x) (heng : t.engines = s.engines.set k y)
      (hxy : x.Change s.params s.program turn k y) : g.Change s.params s.program turn e h :=
    .of_set (q := fun _ => false) hx (by rw [heng, taintIf_false]) hg hh fun _ => hxy
  cases turn with
  | host => exact State.hostStep_change hinv ht hg hh
  | engine k ans =>
    obtain ⟨x, y, hx, hxy, heng⟩ := State.engineStep_engines ht
    exact hone hx heng (.engineTurn rfl hxy)
  | assertReset k =>
    obtain ⟨x, hx, ht⟩ := State.onEngine_next.1 ht
    obtain rfl := Host.Outcome.next.inj ht
    exact hone hx (s.assertReset_engines k x) (.assertReset _ rfl)
  | releaseReset k =>
    obtain ⟨x, hx, ht⟩ := State.onEngine_next.1 ht
    obtain rfl := Host.Outcome.next.inj ht
    exact hone hx rfl (.releaseReset rfl)

@[simp] theorem State.nextTurn_engines (s : State) : s.nextTurn.2.engines = s.engines := by
  unfold State.nextTurn; split <;> rfl

@[simp] theorem State.nextTurn_params (s : State) : s.nextTurn.2.params = s.params := by
  unfold State.nextTurn; split <;> rfl

@[simp] theorem State.nextTurn_mem (s : State) : s.nextTurn.2.mem = s.mem := by
  unfold State.nextTurn; split <;> rfl

@[simp] theorem State.nextTurn_program (s : State) : s.nextTurn.2.program = s.program := by
  unfold State.nextTurn; split <;> rfl

/-- One step of the system from the invariant, seen from one engine. -/
theorem step_change {s t : State} {e : Nat} {g h : Engine} (hinv : s.Inv) (ht : step s = .next t)
    (hg : s.engines[e]? = some g) (hh : t.engines[e]? = some h) : g.Change s.params s.program s.nextTurn.1 e h := by
  have hinv' : s.nextTurn.2.Inv := hinv.congr s.nextTurn_params s.nextTurn_mem s.nextTurn_engines
  simpa using State.takeTurn_change hinv' ht (by rwa [State.nextTurn_engines]) hh

end Sys2Proof.Machine
end

section
/-! PROOFS. `STATUS` (spec/10_state.md R24 to R29, R48): what a host write clears, what it reads as while busy, and what
sets and clears `OVR`. -/

namespace Sys2Proof.Machine

/-! ### The word -/

theorem Status.word_of_busy {t : Status} (hb : t.busy = true) (hd : t.done = false) (he : t.err = false)
    (hc : t.errCode = 0#4) : t.word = if t.ovr then 0x00000009#32 else 0x00000001#32 := by
  rw [Status.word, hb, hd, he, hc]
  cases t.ovr <;> rfl

/-- The bits of `STATUS` (R24 to R28, R38). -/
theorem Status.getLsbD_word (t : Status) (i : Nat) :
    t.word.getLsbD i =
      if i = 0 then t.busy else if i = 1 then t.done else if i = 2 then t.err else if i = 3 then t.ovr
      else if i < 8 then false else t.errCode.getLsbD (i - 8) := by
  simp only [Status.word, BitVec.getLsbD_append]
  match i with
  | 0 | 1 | 2 | 3 => simp
  | i + 4 =>
    by_cases hlow : i < 4
    · simp [hlow]
    · by_cases hcode : i < 8
      · simp [hlow, show i - 4 < 4 by omega, show 4 ≤ i by omega]
      · simp [hlow, show ¬ i - 4 < 4 by omega, show 4 ≤ i - 4 by omega]

/-- The bits that a write of `w` to `STATUS` clears (R29). -/
theorem getLsbD_clearMask (w : Word) {i : Nat} (hi : i < 32) :
    ((w &&& 0x0000000E#32) ||| if w.getLsbD 2 then 0x00000F00#32 else 0#32).getLsbD i =
      if i = 1 ∨ i = 2 ∨ i = 3 then w.getLsbD i else (8 ≤ i && i < 12 && w.getLsbD 2) := by
  have hflags : (0x0000000E#32).getLsbD i = decide (i = 1 ∨ i = 2 ∨ i = 3) := by interval_cases i <;> rfl
  have hcode : (0x00000F00#32).getLsbD i = (8 ≤ i && i < 12) := by interval_cases i <;> rfl
  rw [BitVec.getLsbD_or, BitVec.getLsbD_and, hflags]
  split_ifs <;> simp_all
  omega

/-- What a write of `w` to `STATUS` leaves (R29). -/
theorem Status.write_word (t : Status) (w : Word) :
    (t.write w).word = t.word &&& ~~~((w &&& 0x0000000E#32) ||| if w.getLsbD 2 then 0x00000F00#32 else 0#32) := by
  refine BitVec.eq_of_getLsbD_eq fun i hi => ?_
  rw [BitVec.getLsbD_and, BitVec.getLsbD_not, getLsbD_clearMask w hi, Status.getLsbD_word, Status.getLsbD_word]
  simp only [Status.write]
  split_ifs <;> simp_all
  intro hcode
  have := BitVec.lt_of_getLsbD hcode
  omega

/-- Settles O8: the `STATUS` after the write is `Status.write`'s, and every later event sets its own bit. -/
theorem statusBitsAreClearedByOnes : Obligations.StatusBitsAreClearedByOnes := by
  intro s e g w hg hi
  exact ⟨g.status.write w, State.regWrite_register w (by decide) hg hi, g.status.write_word w, rfl,
    fun c => ⟨rfl, rfl⟩, rfl⟩

/-- Settles O12: the invariant's R48 at the engine. -/
theorem busyStatusReads : Obligations.BusyStatusReads := by
  intro s e g hinv hg hb
  obtain ⟨hdone, herr, hcode⟩ := (hinv.engineOk hg).clean hb
  exact Status.word_of_busy hb hdone herr hcode

/-! ### `OVR` -/

/-- A turn of the engine leaves `OVR` alone (R27). -/
theorem Engine.OwnTurn.ovr {ans : Answer} {g h : Engine} (ht : g.OwnTurn ans h) : h.status.ovr = g.status.ovr := by
  cases ht with
  | waits _ => rfl
  | moves _ hs => rw [hs.status]
  | strange _ _ hs => rw [hs.status, Engine.taint_status]
  | aborted f _ _ _ => rfl
  | completed f _ _ => rfl

theorem Engine.writeReg_status (g : Engine) (w : Word) {r : Reg} (hr : r ≠ .status) :
    (g.writeReg w r).status = g.status := by
  cases r
  case status => exact absurd rfl hr
  all_goals rfl

/-- Of the host's register writes only one to `STATUS` with bit 3 = 1 clears `OVR` (R27, R29). -/
theorem Engine.RegWrite.ovr_cleared {rMax : Nat} {w : Word} {g h : Engine} {r : Reg} (hw : g.RegWrite rMax w r h)
    (hg : g.status.ovr = true) (hh : h.status.ovr = false) : r = .status ∧ w.getLsbD 3 = true := by
  cases hw with
  | ignored _ _ => simp [hg] at hh
  | @register r _ _ =>
    by_cases hr : r = .status
    · subst hr
      refine ⟨rfl, ?_⟩
      simpa [Engine.writeReg, hg] using hh
    · rw [g.writeReg_status w hr, hg] at hh
      cases hh
  | overrun _ _ => cases hh
  | rejected _ _ _ => exact absurd (hg.symm.trans hh) (by decide)
  | accepted _ _ _ => exact absurd (hg.symm.trans hh) (by decide)

/-- Of all steps only a reset and a write to `STATUS` with bit 3 = 1 clear `OVR` (R27). -/
theorem Engine.Change.ovr_cleared {p : Params} {prog : List HostStmt} {turn : Turn} {e : Nat} {g h : Engine}
    (hc : g.Change p prog turn e h) (hg : g.status.ovr = true) (hh : h.status.ovr = false) :
    turn = .assertReset e ∨ ∃ ref w rest, turn = .host ∧ prog = .wr ref w :: rest ∧
      ref.resolve p = .ok (e, 0x08) ∧ w.getLsbD 3 = true := by
  cases hc with
  | same => simp [hg] at hh
  | taint => simp [hg] at hh
  | releaseReset _ => simp [hg] at hh
  | assertReset f hturn => exact .inl hturn
  | engineTurn _ ht => simp [ht.ovr, hg] at hh
  | @regWrite ref w rest off _ hturn hprog hres hw =>
    obtain ⟨hr, hbit⟩ := hw.ovr_cleared hg hh
    have hoff : (Reg.ofOffset off).offset = off := Reg.offset_ofOffset (by simp [hr])
    exact .inr ⟨ref, w, rest, hturn, hprog, by rw [hres, ← hoff, hr]; rfl, hbit⟩

theorem State.setEngine_getElem?_self {s : State} {e : Nat} {g : Engine} (hg : s.engines[e]? = some g) (h : Engine) :
    (s.setEngine e h).engines[e]? = some h := by
  simp [(List.getElem?_eq_some_iff.1 hg).1]

/-- Settles O14: an overrun sets `OVR`, a write of bit 3 and a reset clear it, and the last clause reads off what one
step can do to one engine (`step_change`). -/
theorem overrunIsSetAndCleared : Obligations.OverrunIsSetAndCleared := by
  refine ⟨?set, ?write, ?reset, ?only⟩
  case set =>
    intro s e g w hg hi hb
    exact ⟨_, _, (s.regWrite_cmd e w).trans (State.submit_of_busy w hg hi hb), State.setEngine_getElem?_self hg _,
      rfl⟩
  case write =>
    intro s e g w hg hi hbit
    refine ⟨_, _, State.regWrite_register w (by decide) hg hi, State.setEngine_getElem?_self hg _, ?_⟩
    simp [Engine.writeReg, hbit]
  case reset =>
    intro s e g hg
    exact ⟨_, _, State.onEngine_some hg, State.setEngine_getElem?_self (by simpa using hg) _, rfl⟩
  case only =>
    intro s t e g h hinv hg hstep hh hovr hclear
    exact (step_change hinv hstep hg hh).ovr_cleared hovr hclear

end Sys2Proof.Machine
end

section
/-! PROOFS. What a command and a register write do to memory (spec/20_memory.md R61, R62, R65, R70): the words its port
moves, the frame of an engine's turn, and the frame of a register write. -/

namespace Sys2Proof.Machine

/-! ### Words of a region -/

/-- The word at `a` lies in the region. -/
def Region.HoldsWord (r : Region) (a : Nat) : Prop := r.base ≤ a ∧ a + 4 ≤ r.base + r.len

theorem Region.HoldsWord.inMemory {r : Region} {a : Nat} (ha : r.HoldsWord a) (hr : r.inSpace = true) :
    inMemory a 4 = true :=
  inMemory_iff.2 (ha.2.trans (r.inSpace_iff.1 hr))

/-- Word `k` of a unit at an aligned address is an aligned word of the unit (R61, R65). -/
theorem Latched.Valid.unitWord {rMax : Nat} {l : Latched} (h : l.Valid rMax) {b k : Nat} (hb : b % 4 = 0)
    (hk : k < l.unitWords) : (b + 4 * k) % 4 = 0 ∧ Region.HoldsWord ⟨b, l.unitLen⟩ (b + 4 * k) := by
  have hu := h.unitLen_eq
  exact ⟨by omega, by dsimp only; omega, by dsimp only; omega⟩

/-- Table slots are aligned (R65, R68). -/
theorem Latched.Valid.slotAddr_aligned {rMax : Nat} {l : Latched} (h : l.Valid rMax) (hop : l.op = 0x3#4) (i : Nat) :
    l.slotAddr i % 4 = 0 := by
  have hv := h.vAligned hop
  rw [Latched.slotAddr, h.unitLen_eq, Nat.mul_left_comm]
  omega

/-- Word `k` of a table slot is an aligned word of `V` (R68). -/
theorem Latched.Valid.slotWord {rMax : Nat} {l : Latched} (h : l.Valid rMax) (hop : l.op = 0x3#4) {i k : Nat}
    (hi : i < l.n.toNat) (hk : k < l.unitWords) :
    (l.slotAddr i + 4 * k) % 4 = 0 ∧ l.vRegion.HoldsWord (l.slotAddr i + 4 * k) := by
  obtain ⟨hal, hlo, hhi⟩ := h.unitWord (h.slotAddr_aligned hop i) hk
  have hslot := Latched.slotAddr_in hi
  have hv : l.v.toNat ≤ l.slotAddr i := Nat.le_add_right _ _
  exact ⟨hal, hv.trans hlo, hhi.trans hslot⟩

theorem Latched.mem_writeRegions {l : Latched} {r : Region} :
    r ∈ l.writeRegions ↔ r = l.dstRegion ∨ l.op = 0x3#4 ∧ r = l.vRegion := by
  unfold Latched.writeRegions
  split <;> simp [*]

/-! ### The words a running engine's port moves -/

/-- A word the port reads is a word of `SRC` or, for `ROMIX`, of `V` (R70). -/
theorem Engine.Runs.readWord {rMax : Nat} {g : Engine} (h : g.Runs rMax) {a : Nat} (hop : g.portOp = some (.read a)) :
    a % 4 = 0 ∧ (g.lat.srcRegion.HoldsWord a ∨ g.lat.op = 0x3#4 ∧ g.lat.vRegion.HoldsWord a) := by
  have hs := h.seq
  rcases Engine.portOp_read hop with ⟨hact, rfl⟩ | ⟨hact, rfl⟩ <;> simp only [Engine.SeqOk, hact] at hs
  · obtain ⟨-, hk, -⟩ := hs
    exact (h.valid.unitWord h.valid.srcAligned hk).imp_right .inl
  · obtain ⟨hmix, -, hj, hk, -⟩ := hs
    have hromix := (h.romix (.inr hmix)).1
    exact (h.valid.slotWord hromix hj hk).imp_right fun hw => .inr ⟨hromix, hw⟩

/-- A word the port writes is a word of `DST` or, for `ROMIX`, of `V` (R70). -/
theorem Engine.Runs.writeWord {rMax : Nat} {g : Engine} (h : g.Runs rMax) {a : Nat} {bs : Bytes}
    (hop : g.portOp = some (.write a bs)) :
    a % 4 = 0 ∧ bs.length = 4 ∧
      (g.lat.dstRegion.HoldsWord a ∨ g.lat.op = 0x3#4 ∧ g.lat.vRegion.HoldsWord a) := by
  have hs := h.seq
  have hu := h.valid.unitLen_eq
  obtain ⟨rfl, hcase⟩ := Engine.portOp_write hop
  rcases hcase with ⟨hact, rfl⟩ | ⟨hact, rfl⟩ <;> simp only [Engine.SeqOk, hact] at hs
  · obtain ⟨hbuild, hi, hk, hlen⟩ := hs
    have hromix := (h.romix (.inl hbuild)).1
    obtain ⟨hal, hw⟩ := h.valid.slotWord hromix hi hk
    exact ⟨hal, wordBytes_length (by omega), .inr ⟨hromix, hw⟩⟩
  · obtain ⟨-, hk, hlen⟩ := hs
    obtain ⟨hal, hw⟩ := h.valid.unitWord h.valid.dstAligned hk
    exact ⟨hal, wordBytes_length (by omega), .inl hw⟩

theorem Engine.Runs.writeWord_region {rMax : Nat} {g : Engine} (h : g.Runs rMax) {a : Nat} {bs : Bytes}
    (hop : g.portOp = some (.write a bs)) : ∃ r ∈ g.lat.writeRegions, r.HoldsWord a := by
  obtain ⟨-, -, hw | ⟨hromix, hw⟩⟩ := h.writeWord hop
  · exact ⟨_, Latched.mem_writeRegions.2 (.inl rfl), hw⟩
  · exact ⟨_, Latched.mem_writeRegions.2 (.inr ⟨hromix, rfl⟩), hw⟩

/-- The port of a running engine stays inside the address space (R60, R69). -/
theorem Engine.Runs.portOp_inMemory {rMax : Nat} {g : Engine} (h : g.Runs rMax) {op : PortOp}
    (hop : g.portOp = some op) : inMemory op.addr 4 = true := by
  cases op with
  | read a =>
    obtain ⟨-, hw | ⟨hromix, hw⟩⟩ := h.readWord hop
    · exact hw.inMemory (g.lat.srcRegion.inSpace_iff.2 h.valid.srcIn)
    · exact hw.inMemory (g.lat.vRegion.inSpace_iff.2 (h.valid.vIn hromix))
  | write a bs =>
    obtain ⟨r, hr, hw⟩ := h.writeWord_region hop
    exact hw.inMemory (h.valid.writeRegions_inSpace r hr)

theorem Engine.Runs.taint {rMax : Nat} {g : Engine} (h : g.Runs rMax) : g.taint.Runs rMax := ⟨h.valid, h.fits, h.seq⟩

/-! ### Memory outside the regions of a command -/

theorem Memory.KeepsOutside.refl (m : Memory) (rs : List Region) : m.KeepsOutside rs m := fun _ _ => rfl

/-- A word written into one of the regions keeps every byte outside them. -/
theorem Memory.writeBytes_keepsOutside (m : Memory) {rs : List Region} {r : Region} {a : Nat} {bs : Bytes} (hr : r ∈ rs)
    (hlen : bs.length = 4) (hw : r.HoldsWord a) : m.KeepsOutside rs (m.writeBytes a bs) := by
  intro x hx
  have hout : ¬(r.base ≤ x ∧ x < r.base + r.len) := by simp [← r.holds_iff, hx r hr]
  obtain ⟨hlo, hhi⟩ := hw
  exact Memory.read_writeBytes_out (by omega)

theorem State.spoil_keepsOutside (s : State) (l : Latched) (b : Bool) :
    s.mem.KeepsOutside l.writeRegions (s.spoil l b).mem := by
  cases b with
  | false => exact .refl _ _
  | true => exact fun _ hx => State.read_unspecify_out hx

/-- An abort keeps every byte outside `DST` and `V` (R265). -/
theorem State.raiseError_keepsOutside (s : State) (e : Nat) {g : Engine} (c : ErrCode) (hr : g.running = true) :
    s.mem.KeepsOutside g.lat.writeRegions (s.raiseError e g c).mem := by
  rw [State.raiseError, if_pos hr]
  exact s.spoil_keepsOutside g.lat true

/-- A completion keeps every byte outside `DST` and `V` (R118). -/
theorem State.complete_keepsOutside (s : State) (e : Nat) (g : Engine) :
    s.mem.KeepsOutside g.lat.writeRegions (s.complete e g).mem :=
  s.spoil_keepsOutside g.lat g.tainted

/-- A transfer of a running command is made, and keeps every byte outside `DST` and `V`. -/
theorem State.transfer_keepsOutside (s : State) (e : Nat) {rMax : Nat} {g : Engine} {op : PortOp} (h : g.Runs rMax)
    (hop : g.portOp = some op) :
    ∃ t, s.transfer e g op = .next t ∧ s.mem.KeepsOutside g.lat.writeRegions t.mem := by
  have hin := h.portOp_inMemory hop
  cases op with
  | read a => exact ⟨_, if_pos hin, .refl _ _⟩
  | write a bs =>
    obtain ⟨r, hr, hw⟩ := h.writeWord_region hop
    exact ⟨_, if_pos hin, s.mem.writeBytes_keepsOutside hr (h.writeWord hop).2.1 hw⟩

theorem State.answered_keepsOutside (s : State) (e : Nat) {rMax : Nat} {g : Engine} {op : PortOp} (h : g.Runs rMax)
    (hop : g.portOp = some op) (ans : Answer) :
    ∃ t, s.answered e g op ans = .next t ∧ s.mem.KeepsOutside g.lat.writeRegions t.mem := by
  cases ans with
  | ok => exact s.transfer_keepsOutside e h hop
  | strange => exact s.transfer_keepsOutside e h.taint hop
  | silent => exact ⟨_, rfl, .refl _ _⟩
  | error => exact ⟨_, rfl, s.raiseError_keepsOutside e .bus h.running⟩

/-! ### A turn of a running engine -/

section engineStep
variable {s : State} {e : Nat} {g : Engine} (ans : Answer) (hg : s.engines[e]? = some g) (hr : g.running = true)
include hg hr

theorem State.engineStep_transfer {op : PortOp} (hop : g.portOp = some op) :
    s.engineStep e ans = s.answered e g op ans := by
  rw [State.engineStep, State.onEngine_some hg, if_pos hr, hop]

theorem State.engineStep_finish (hop : g.portOp = none) (hfin : g.scratch.act = .finish) :
    s.engineStep e ans = .next (s.complete e g) := by
  rw [State.engineStep, State.onEngine_some hg, if_pos hr, hop]
  exact if_pos hfin

theorem State.engineStep_compute (hop : g.portOp = none) (hfin : g.scratch.act ≠ .finish) :
    s.engineStep e ans = .next (s.setEngine e g.compute) := by
  rw [State.engineStep, State.onEngine_some hg, if_pos hr, hop]
  exact if_neg hfin

/-- Whatever the memory answers, a running engine takes its turn and keeps every byte outside `DST` and `V` (R70). -/
theorem State.engineStep_keepsOutside {rMax : Nat} (h : g.Runs rMax) :
    ∃ t, s.engineStep e ans = .next t ∧ s.mem.KeepsOutside g.lat.writeRegions t.mem := by
  cases hop : g.portOp with
  | some op =>
    rw [State.engineStep_transfer ans hg hr hop]
    exact s.answered_keepsOutside e h hop ans
  | none =>
    by_cases hfin : g.scratch.act = .finish
    · exact ⟨_, State.engineStep_finish ans hg hr hop hfin, s.complete_keepsOutside e g⟩
    · exact ⟨_, State.engineStep_compute ans hg hr hop hfin, .refl _ _⟩

end engineStep

/-! ### A register write of the host -/

/-- A submission changes nothing but engines: a rejected one finds its engine idle, so no region is spoiled (R112). -/
theorem State.submit_frame {s t : State} {w : Word} (hinv : s.Inv) (ht : s.submit w = .next t) :
    t = { s with engines := t.engines } := by
  obtain ⟨g, hg, ht⟩ := State.onEngine_next.1 ht
  split at ht
  · exact Host.Outcome.next.inj ht ▸ rfl
  split at ht
  · exact Host.Outcome.next.inj ht ▸ rfl
  next hb =>
  have hidle : g.running = false := by simpa [← (hinv.engineOk hg).busy] using hb
  split at ht
  · rw [s.raiseError_idle _ (g := g.submitted w) _ hidle] at ht
    exact Host.Outcome.next.inj ht ▸ rfl
  · exact Host.Outcome.next.inj ht ▸ rfl

/-- A register write changes nothing but engines and the engine `CMD` was last written of. -/
theorem State.regWrite_frame {s t : State} {e : Nat} {w : Word} {r : Reg} (hinv : s.Inv)
    (ht : s.regWrite e w r = .next t) : t = { s with engines := t.engines, target := t.target } := by
  by_cases hr : r = .cmd
  · subst hr
    rw [State.regWrite_cmd] at ht
    have hframe := State.submit_frame (s := { s with target := e }) (hinv.congr rfl rfl rfl) ht
    rw [hframe]
  · rw [State.regWrite_of_ne_cmd s e w hr] at ht
    obtain ⟨g, -, ht⟩ := State.onEngine_next.1 ht
    split at ht <;> exact Host.Outcome.next.inj ht ▸ rfl

theorem State.regWrite_mem {s t : State} {e : Nat} {w : Word} {r : Reg} (hinv : s.Inv)
    (ht : s.regWrite e w r = .next t) : t.mem = s.mem := by
  rw [State.regWrite_frame hinv ht]

/-- Settles O30: the invariant's bounds on the loop place every word the port moves, and so every turn's frame. -/
theorem commandsTouchOnlyTheirRegions : Obligations.CommandsTouchOnlyTheirRegions := by
  refine ⟨fun s e g hinv hg hr => ?_, fun s t e w r hinv ht => State.regWrite_mem hinv ht⟩
  have hruns := (hinv.engineOk hg).runs hr
  exact ⟨fun a => hruns.readWord, fun a bs => hruns.writeWord, fun ans =>
    State.engineStep_keepsOutside ans hg hr hruns⟩

end Sys2Proof.Machine
end

section
/-! PROOFS. The command word (spec/30_encoding.md R90 to R92, R96): its fields as numbers, the words that decode to a
command, and the submission of a word that is none. -/

namespace Sys2Proof.Machine

/-! ### The fields of a command word -/

theorem opField_toNat (w : Word) : (opField w).toNat = w.toNat % 16 := by
  simp [opField]

theorem rsvField_toNat (w : Word) : (rsvField w).toNat = w.toNat / 16 := by
  rw [rsvField, BitVec.extractLsb'_toNat, Nat.shiftRight_eq_div_pow]
  omega

theorem opField_eq_iff (w : Word) (op : BitVec 4) : opField w = op ↔ w.toNat % 16 = op.toNat := by
  rw [← BitVec.toNat_inj, opField_toNat]

theorem rsvField_eq_zero_iff (w : Word) : rsvField w = 0#28 ↔ w.toNat / 16 = 0 := by
  rw [← BitVec.toNat_inj, rsvField_toNat, BitVec.toNat_zero]

theorem ofNat_opField (w : Word) : BitVec.ofNat 4 (w.toNat % 16) = opField w := by
  rw [← opField_toNat, BitVec.ofNat_toNat, BitVec.setWidth_eq]

/-! ### Decoding -/

@[simp] theorem decode_encode (i : Instr) : decode (encode i) = .ok i := by cases i <;> rfl

theorem decode_eq_ok_iff (w : Word) (i : Instr) : decode w = .ok i ↔ w = encode i :=
  ⟨fun h => (encode_of_decode h).symm, fun h => h ▸ decode_encode i⟩

/-- Settles O1: decoding and encoding are inverse, so a command's word is the only one that decodes to it. -/
theorem commandWordsAreTheThree : Obligations.CommandWordsAreTheThree :=
  ⟨⟨rfl, rfl, rfl⟩, decode_eq_ok_iff⟩

/-- Settles O2: the decoder's tests on the two fields, as numbers. -/
theorem decodingIsTotal : Obligations.DecodingIsTotal := by
  intro w
  rw [ofNat_opField]
  simp only [decode, ne_eq, rsvField_eq_zero_iff, opField_eq_iff]
  rfl

/-! ### The submission of an illegal word -/

/-- A word with a bit of `RSV` set, or an opcode of no command, fails the first check (R92, R114). -/
theorem validate_illegalCmd (rMax : Nat) (w : Word) (l : Latched)
    (h : w.toNat % 16 ≠ 1 ∧ w.toNat % 16 ≠ 2 ∧ w.toNat % 16 ≠ 3 ∨ w.toNat / 16 ≠ 0) :
    validate rMax w l = some .illegalCmd := by
  refine if_pos ?_
  simpa [rsvField_eq_zero_iff, opField_eq_iff, and_assoc, -Nat.div_eq_zero_iff] using h.symm

theorem Engine.running_eq_false_iff (g : Engine) : g.running = false ↔ g.phase = .idle := by
  simp [Engine.running]

theorem Engine.ready_iff (g : Engine) :
    g.ready = true ↔ g.running = false ∧ g.status.busy = false ∧ g.inReset = false := by
  simp [Engine.ready, and_assoc]

/-- A submission that fails validation, on an idle engine, replaces that engine and nothing else (R112). -/
theorem State.submit_of_rejected {s : State} {g : Engine} {w : Word} {c : ErrCode}
    (hg : s.engines[s.target]? = some g) (hready : g.ready = true)
    (hv : validate s.params.rMax w (g.latch w) = some c) :
    s.submit w = .next (s.setEngine s.target ((g.submitted w).rejected c)) := by
  obtain ⟨hidle, hbusy, hreset⟩ := g.ready_iff.1 hready
  rw [State.submit, State.onEngine_some hg]
  simp [hreset, hbusy, hv, State.raiseError_idle, hidle]

theorem Engine.submitted_rejected_keepsRegs (g : Engine) (w : Word) (c : ErrCode) :
    g.KeepsRegs ((g.submitted w).rejected c) :=
  ⟨rfl, rfl, rfl, rfl, rfl, rfl⟩

/-- `STATUS` after a submission was rejected with `ILLEGAL_CMD` on an idle engine (R92, R112). -/
theorem Status.word_of_illegalCmd {t : Status} :
    (t.cleared.failed .illegalCmd).word = if t.ovr then 0x0000010C#32 else 0x00000104#32 := by
  cases ho : t.ovr <;> simp [Status.word, Status.cleared, Status.failed, ho, ErrCode.code]

/-- Settles O21: the word fails the first check of validation, and the rejection replaces only the engine addressed. -/
theorem illegalWordsAreRejected : Obligations.IllegalWordsAreRejected := by
  intro s e g w _ hg hready hillegal
  have hv : validate s.params.rMax w (g.latch w) = some .illegalCmd := validate_illegalCmd _ w _ hillegal
  have hidle : g.phase = .idle := g.running_eq_false_iff.1 (g.ready_iff.1 hready).1
  exact ⟨_, _, (s.regWrite_cmd e w).trans (State.submit_of_rejected hg hready hv), rfl, hidle,
    Status.word_of_illegalCmd, g.submitted_rejected_keepsRegs w _, rfl, ⟨rfl, rfl, rfl, rfl⟩, rfl⟩

end Sys2Proof.Machine
end

section
/-! PROOFS. Submission (spec/40_command_lifecycle.md R110 to R115): validation as the first failing check, the legal values
of N, and the two submissions that start nothing, one dropped while busy and one rejected. -/

namespace Sys2Proof.Machine

/-! ### Validation (R114) -/

section command
variable {w : Word} {l : Latched}

/-- The unit length, its condition on the word (R66, R93). -/
theorem Latched.unitLen_of_op (hop : l.op = opField w) :
    l.unitLen = if w.toNat % 16 = 1 then 64 else 128 * l.r.toNat := by
  simp [Latched.unitLen, hop, opField_eq_iff]

theorem opField_eq_romix_iff (h : w.toNat = 1 ∨ w.toNat = 2 ∨ w.toNat = 3) : opField w = 0x3#4 ↔ w.toNat = 3 := by
  simp only [opField_eq_iff, BitVec.reduceToNat]
  omega

/-- On the word of a command, validation is its checks after the first, the word saying which of them apply. -/
theorem validate_of_command (rMax : Nat) (l : Latched) (h : w.toNat = 1 ∨ w.toNat = 2 ∨ w.toNat = 3) :
    validate rMax w l =
      if w.toNat ≠ 1 ∧ ¬(l.r.toNat ≠ 0 ∧ l.r.toNat ≤ rMax) then some .badR
      else if w.toNat = 3 ∧ l.badN = true then some .badN
      else if l.misaligned then some .align
      else if l.outOfRange then some .range
      else if l.overlapping then some .overlap
      else none := by
  have hlegal : rsvField w = 0#28 ∧ (opField w = 0x1#4 ∨ opField w = 0x2#4 ∨ opField w = 0x3#4) := by
    simp only [rsvField_eq_zero_iff, opField_eq_iff, BitVec.reduceToNat]
    omega
  have hmix : opField w = 0x2#4 ∨ w.toNat = 3 ↔ w.toNat ≠ 1 := by
    simp only [opField_eq_iff, BitVec.reduceToNat]
    omega
  rw [validate, if_neg (by simpa [or_iff_not_imp_left] using hlegal)]
  simp only [Bool.and_eq_true, Bool.or_eq_true, decide_eq_true_eq, opField_eq_romix_iff h, hmix, not_and_or, not_not,
    not_le]

end command

/-- Settles O18: an illegal word fails the first check; on a command's word each later check fails exactly where its
proposition is false. -/
theorem validationIsTheFirstFailingCheck : Obligations.ValidationIsTheFirstFailingCheck := by
  classical
  intro rMax w l hop L legal rOk nOk aligned inRange apart hL hlegal hrOk hnOk haligned hinRange hapart
  obtain rfl : l.unitLen = L := (Latched.unitLen_of_op hop).trans hL.symm
  have hval (h : legal) : validate rMax w l =
      if ¬rOk then some .badR else if ¬nOk then some .badN else if ¬aligned then some .align
      else if ¬inRange then some .range else if ¬apart then some .overlap else none := by
    have hromix : w.toNat = 3 ↔ l.op = 0x3#4 := by rw [hop, opField_eq_romix_iff (hlegal.1 h)]
    rw [← l.badN_false_iff] at hnOk
    rw [hromix] at haligned hinRange hapart
    have haligned' : aligned ↔ l.misaligned = false := haligned.trans l.misaligned_false_iff.symm
    have hinRange' : inRange ↔ l.outOfRange = false := hinRange.trans l.outOfRange_false_iff.symm
    have hapart' : apart ↔ l.overlapping = false := hapart.trans l.overlapping_false_iff.symm
    simp only [validate_of_command rMax l (hlegal.1 h), hrOk, hnOk, haligned', hinRange', hapart', not_or, ne_eq,
      not_not, Bool.not_eq_false]
  refine ⟨fun h => validate_illegalCmd rMax w l (by rw [hlegal] at h; omega), ?_, ?_, ?_, ?_, ?_, ?_⟩
  · exact fun h hr => by simp [hval h, hr]
  · exact fun h hr hn => by simp [hval h, hr, hn]
  · exact fun h hr hn ha => by simp [hval h, hr, hn, ha]
  · exact fun h hr hn ha hi => by simp [hval h, hr, hn, ha, hi]
  · exact fun h hr hn ha hi hv => by simp [hval h, hr, hn, ha, hi, hv]
  · exact fun h hr hn ha hi hv => by simp [hval h, hr, hn, ha, hi, hv]

/-! ### The legal values of N (R115) -/

theorem isPow2_iff (n : Word) : isPow2 n = true ↔ n ≠ 0#32 ∧ n &&& (n - 1#32) = 0#32 := by
  simp [isPow2]

/-- `IsPow2` picks the powers of two. -/
theorem isPow2_iff_isPowerOfTwo (n : Word) : isPow2 n = true ↔ n.toNat.isPowerOfTwo := by
  rw [isPow2_iff, ← Nat.ne_zero_and_sub_one_eq_zero_iff_isPowerOfTwo, ne_eq, ← BitVec.toNat_inj, BitVec.toNat_zero]
  refine and_congr_right fun hn => ?_
  have hsub : (n - 1#32).toNat = n.toNat - 1 := BitVec.toNat_sub_of_le (by bv_omega)
  rw [← BitVec.toNat_inj, BitVec.toNat_and, hsub, BitVec.toNat_zero]

/-- A word that is a power of two of at least 2 has its exponent from 1 to 31. -/
theorem isPow2_two_le_iff (n : Word) :
    isPow2 n = true ∧ 2 ≤ n.toNat ↔ ∃ k, 1 ≤ k ∧ k ≤ 31 ∧ n.toNat = 2 ^ k := by
  rw [isPow2_iff_isPowerOfTwo]
  constructor
  · rintro ⟨⟨k, hk⟩, hn⟩
    have hlt : 2 ^ k < 2 ^ 32 := hk ▸ n.isLt
    have hle : 2 ^ 1 ≤ 2 ^ k := hk ▸ hn
    rw [Nat.pow_lt_pow_iff_right (by decide)] at hlt
    rw [Nat.pow_le_pow_iff_right (by decide)] at hle
    exact ⟨k, hle, by omega, hk⟩
  · rintro ⟨k, hk, -, hn⟩
    exact ⟨⟨k, hn⟩, hn ▸ Nat.le_self_pow (by omega) 2⟩

/-- Every word is below the bound `2 ^ (16 r)` for `r` of at least 2. -/
theorem toNat_lt_two_pow (n : Word) {r : Nat} (hr : 2 ≤ r) : n.toNat < 2 ^ (16 * r) :=
  n.isLt.trans_le (Nat.pow_le_pow_right (by decide) (by omega))

theorem Latched.badN_of_not_isPow2 {l : Latched} (h : isPow2 l.n = false) : l.badN = true := by
  simp [Latched.badN, h]

/-- Settles O19: `IsPow2` as powers of two, and the bound `2 ^ (16 r)` compared with them; 15 is none. -/
theorem legalNAreThePowersOfTwo : Obligations.LegalNAreThePowersOfTwo := by
  refine ⟨isPow2_iff, isPow2_two_le_iff, ?bound, fun n r hr => toNat_lt_two_pow n hr, ?fifteen⟩
  case bound =>
    intro k _ _
    rw [Nat.pow_lt_pow_iff_right (by decide)]
    omega
  case fifteen =>
    intro rMax l _ hr hrMax hn
    have hbad : l.badN = true := Latched.badN_of_not_isPow2 (by rw [hn]; decide)
    rw [validate_of_command rMax l (by decide), if_neg (by omega), if_pos ⟨rfl, hbad⟩]

/-! ### Submissions that start nothing (R110, R112) -/

/-- Settles O17: the submission is dropped by setting `OVR` on the engine addressed. -/
theorem commandWhileBusyIsDropped : Obligations.CommandWhileBusyIsDropped := by
  intro s e g w hg hi hb
  exact ⟨_, (s.regWrite_cmd e w).trans (State.submit_of_busy w hg hi hb), rfl, rfl, ⟨rfl, rfl, rfl, rfl⟩, rfl⟩

/-- Settles O20: on an idle engine a rejection replaces only the engine addressed. -/
theorem rejectedSubmissionOnlyRecordsItsCode : Obligations.RejectedSubmissionOnlyRecordsItsCode := by
  intro s e g w c _ hg hready hv
  exact ⟨_, (s.regWrite_cmd e w).trans (State.submit_of_rejected hg hready hv), rfl, rfl, ⟨rfl, rfl, rfl, rfl⟩, rfl⟩

end Sys2Proof.Machine
end

section
/-! PROOFS. The Salsa20/8 core (spec/41_salsa208.md R140 to R148): the word operations bit by bit, a quarter step word by
word, the lines of a round in any order, and SALSA208 as rounds and feed-forward. -/

namespace Sys2Proof.Machine

/-! ### The word operations (R140, R142) -/

theorem add32_toNat (a b : Word) : (add32 a b).toNat = (a.toNat + b.toNat) % 2 ^ 32 := BitVec.toNat_add a b

/-- `rotl32` moves bit n to bit (n + k) mod 32: bits that stay below 32 come from the left shift, the others from the
right shift. -/
theorem rotl32_getLsbD (v : Word) {k n : Nat} (hk : k ≤ 31) (hn : n < 32) :
    (rotl32 v k).getLsbD ((n + k) % 32) = v.getLsbD n := by
  rw [rotl32, BitVec.getLsbD_or, BitVec.getLsbD_shiftLeft, BitVec.getLsbD_ushiftRight]
  by_cases hwrap : n + k < 32
  · have hright : v.getLsbD (32 - k + (n + k)) = false := BitVec.getLsbD_of_ge _ _ (by omega)
    simp [Nat.mod_eq_of_lt hwrap, hwrap, hright]
  · have hmod : (n + k) % 32 = n + k - 32 := by omega
    have hleft : n + k - 32 < k := by omega
    have hright : 32 - k + (n + k - 32) = n := by omega
    simp [hmod, hleft, hright]

/-- Settles O40: the wrap of `add32` and the place `rotl32` moves each bit to. -/
theorem wordOperations : Obligations.WordOperations :=
  ⟨add32_toNat, fun v _ _ _ hk hn => rotl32_getLsbD v hk hn⟩

/-! ### A quarter step (R143) -/

/-- The value a quarter step gives its destination. -/
def Quarter.value (q : Quarter) (x : Words) : Word := x[q.d] ^^^ rotl32 (add32 x[q.a] x[q.b]) q.k

theorem quarterStep_eq_set (x : Words) (q : Quarter) : quarterStep x q = x.set q.d (q.value x) := rfl

/-- A quarter step changes its destination and no other word. -/
theorem quarterStep_getElem (x : Words) (q : Quarter) (k : Fin 16) :
    (quarterStep x q)[k] = if k = q.d then q.value x else x[k] := by
  simp only [quarterStep_eq_set, Fin.getElem_fin, Vector.getElem_set, Fin.val_inj, eq_comm]

theorem quarterStep_getElem_of_ne (x : Words) (q : Quarter) {k : Fin 16} (h : k ≠ q.d) :
    (quarterStep x q)[k] = x[k] := by
  rw [quarterStep_getElem, if_neg h]

theorem quarterRound_cons (x : Words) (q : Quarter) (qs : List Quarter) :
    quarterRound x (q :: qs) = quarterRound (quarterStep x q) qs := rfl

/-- Settles O41: the word a step changes, a line one step at a time, and the indices in the two tables. -/
theorem quarterStepsFollowTheRule : Obligations.QuarterStepsFollowTheRule :=
  ⟨quarterStep_getElem, quarterRound_cons, by decide⟩

/-! ### The lines of a round in any order (R147) -/

/-- Quarter step `p` writes no word that `q` reads or writes. -/
def Quarter.Spares (p q : Quarter) : Prop := q.d ≠ p.d ∧ q.a ≠ p.d ∧ q.b ≠ p.d

theorem Quarter.Spares.value_eq {p q : Quarter} (h : p.Spares q) (x : Words) : q.value (quarterStep x p) = q.value x := by
  obtain ⟨hd, ha, hb⟩ := h
  simp only [Quarter.value, quarterStep_getElem_of_ne x p hd, quarterStep_getElem_of_ne x p ha,
    quarterStep_getElem_of_ne x p hb]

/-- Two quarter steps of which neither writes a word of the other commute. -/
theorem quarterStep_comm {p q : Quarter} (hpq : p.Spares q) (hqp : q.Spares p) (x : Words) :
    quarterStep (quarterStep x p) q = quarterStep (quarterStep x q) p := by
  rw [quarterStep_eq_set (quarterStep x p), quarterStep_eq_set (quarterStep x q), hpq.value_eq, hqp.value_eq,
    quarterStep_eq_set, quarterStep_eq_set]
  exact Vector.set_comm _ _ (Fin.val_ne_of_ne hpq.1.symm)

/-- Neither of two lines writes a word of the other. -/
def LinesApart (l m : List Quarter) : Prop := ∀ p ∈ l, ∀ q ∈ m, p.Spares q ∧ q.Spares p

theorem linesApart_symm : Std.Symm LinesApart := ⟨fun _ _ h p hp q hq => (h q hq p hp).symm⟩

/-- A line commutes with a quarter step apart from each of its own. -/
theorem quarterRound_quarterStep {q : Quarter} {l : List Quarter} (h : LinesApart l [q]) (x : Words) :
    quarterRound (quarterStep x q) l = quarterStep (quarterRound x l) q := by
  induction l generalizing x with
  | nil => rfl
  | cons p l ih =>
    obtain ⟨hp, hl⟩ := List.forall_mem_cons.mp h
    obtain ⟨hpq, hqp⟩ := hp q List.mem_cons_self
    rw [quarterRound_cons, quarterRound_cons, quarterStep_comm hqp hpq, ih hl]

theorem quarterRound_comm {l m : List Quarter} (h : LinesApart l m) (x : Words) :
    quarterRound (quarterRound x l) m = quarterRound (quarterRound x m) l := by
  induction m generalizing x with
  | nil => rfl
  | cons q m ih =>
    have hq : LinesApart l [q] := fun p hp => by simpa using h p hp q List.mem_cons_self
    have hm : LinesApart l m := fun p hp r hr => h p hp r (List.mem_cons_of_mem q hr)
    rw [quarterRound_cons, quarterRound_cons, ← quarterRound_quarterStep hq, ih hm]

/-- Lines any two of which are apart give one result in any order. -/
theorem foldl_quarterRound_of_perm {ls ms : List (List Quarter)} (h : ls.Perm ms) (hms : ms.Pairwise LinesApart)
    (x : Words) : ls.foldl quarterRound x = ms.foldl quarterRound x := by
  have := linesApart_symm
  have hcomm : ∀ l ∈ ls, ∀ m ∈ ls, ∀ y, quarterRound (quarterRound y l) m = quarterRound (quarterRound y m) l := by
    intro l hl m hm y
    rcases eq_or_ne l m with rfl | hne
    · rfl
    · exact quarterRound_comm (hms.forall (h.mem_iff.mp hl) (h.mem_iff.mp hm) hne) y
  exact h.foldl_eq' hcomm x

theorem columnLines_apart : columnLines.Pairwise LinesApart := by
  unfold LinesApart Quarter.Spares; decide

theorem rowLines_apart : rowLines.Pairwise LinesApart := by
  unfold LinesApart Quarter.Spares; decide

theorem foldl_range_four {f : Words → Words} (x : Words) :
    (List.range 4).foldl (fun w _ => f w) x = f (f (f (f x))) := rfl

/-- By `delta`: deriving the equation lemma `rw` and `simp` would use for `salsaRounds` exceeds the recursion limit. -/
theorem salsaRounds_eq (x : Words) : salsaRounds x = doubleRound (doubleRound (doubleRound (doubleRound x))) := by
  delta salsaRounds
  exact foldl_range_four x

/-- Settles O42: the four double rounds, and the lines of each round, apart from one another, in any order. -/
theorem linesOfARoundCommute : Obligations.LinesOfARoundCommute :=
  ⟨fun _ => rfl, salsaRounds_eq, fun x _ h => foldl_quarterRound_of_perm h columnLines_apart x,
    fun x _ h => foldl_quarterRound_of_perm h rowLines_apart x⟩

/-! ### SALSA208 (R148) -/

@[simp] theorem feedForward_getElem (x z : Words) (k : Nat) (h : k < 16) :
    (feedForward x z)[k] = add32 x[k] z[k] := by
  simp [feedForward]

theorem wordsOf_salsa208 (b : Bytes) :
    wordsOf (salsa208 b) = feedForward (salsaRounds (wordsOf b)) (wordsOf b) := wordsOf_bytesOf _

/-- The sixteen words of a zero Block. -/
def zeroWords : Words := Vector.replicate 16 0#32

theorem wordsOf_zeroBlock : wordsOf (List.replicate 64 0#8) = zeroWords := by
  rw [wordsOf]; decide

@[simp] theorem zeroWords_getElem (k : Nat) (h : k < 16) : zeroWords[k] = 0#32 := by
  simp [zeroWords]

theorem rotl32_zero (k : Nat) : rotl32 0#32 k = 0#32 := by
  simp [rotl32]

theorem quarterStep_zeroWords (q : Quarter) : quarterStep zeroWords q = zeroWords := by
  have hvalue : q.value zeroWords = 0#32 := by simp [Quarter.value, add32, rotl32_zero]
  ext k hk : 1
  simp [quarterStep_eq_set, hvalue, Vector.getElem_set]

theorem quarterRound_zeroWords (l : List Quarter) : quarterRound zeroWords l = zeroWords :=
  List.foldl_fixed' quarterStep_zeroWords l

theorem doubleRound_zeroWords : doubleRound zeroWords = zeroWords := by
  have hround (ls : List (List Quarter)) : ls.foldl quarterRound zeroWords = zeroWords :=
    List.foldl_fixed' quarterRound_zeroWords ls
  rw [doubleRound, rowRound, columnRound, hround, hround]

theorem salsaRounds_zeroWords : salsaRounds zeroWords = zeroWords := by
  simp only [salsaRounds_eq, doubleRound_zeroWords]

theorem feedForward_zeroWords : feedForward zeroWords zeroWords = zeroWords := by
  ext k hk : 1
  simp [add32]

theorem salsa208_zeroBlock : salsa208 (List.replicate 64 0#8) = List.replicate 64 0#8 := by
  rw [salsa208, wordsOf_zeroBlock, salsaRounds_zeroWords, feedForward_zeroWords, ← wordsOf_zeroBlock]
  exact bytesOf_wordsOf List.length_replicate

/-- Settles O44: a Block's words after SALSA208, and the zero Block, which every quarter step keeps. -/
theorem salsa208IsRoundsAndFeedForward : Obligations.Salsa208IsRoundsAndFeedForward := by
  refine ⟨fun b k _ => ⟨salsa208_length b, ?_⟩, salsa208_zeroBlock⟩
  rw [wordsOf_salsa208, salsaRounds_eq]
  exact feedForward_getElem _ _ k k.isLt

end Sys2Proof.Machine
end

section
/-! PROOFS. The BLOCKMIX unit as a function (spec/42_blockmix.md R170 to R172): a Block of a sequence of Blocks, the places
of the results, and what R170's loop has written after some iterations. -/

namespace Sys2Proof.Machine

/-! ### The Blocks of a joined output (R9) -/

/-- Block `k` of a sequence of Blocks joined is its `k`-th entry. -/
theorem blk_flatten {y : List Bytes} {k : Nat} {x : Bytes} (hy : ∀ z ∈ y, z.length = 64) (hk : y[k]? = some x) :
    blk y.flatten k = x := by
  induction y generalizing k with
  | nil => simp at hk
  | cons z y ih =>
    obtain ⟨hz, hy⟩ := List.forall_mem_cons.mp hy
    cases k with
    | zero =>
      have hzx : z = x := by simpa using hk
      simp [blk, ← hzx, ← hz]
    | succ k =>
      have hdrop : 64 * (k + 1) = z.length + 64 * k := by omega
      rw [blk, List.flatten_cons, hdrop, List.drop_length_add_append]
      exact ih hy hk

/-! ### The places of the results (R170, R171) -/

theorem outPos_eq (r i : Nat) : outPos r i = if i % 2 = 0 then i / 2 else r + i / 2 := by
  unfold outPos
  split <;> omega

/-- Every place is inside the output. -/
theorem outPos_lt {r i : Nat} (h : i < 2 * r) : outPos r i < 2 * r := by
  unfold outPos
  split <;> omega

/-- No two results take the same place: the even ones fill the first half, the odd ones the second. -/
theorem outPos_inj {r i j : Nat} (hi : i < 2 * r) (hj : j < 2 * r) (h : outPos r i = outPos r j) : i = j := by
  unfold outPos at h
  split_ifs at h <;> omega

/-! ### R170's loop -/

/-- The `i`-th Salsa result of `BLOCKMIX(b, r)`: the accumulator after iteration `i` (R170). -/
def bmResult (b : Bytes) (r i : Nat) : Bytes := (bmLoop b r (i + 1)).acc

/-- The chain starts from the last Block of the input (R170, R172). -/
theorem bmResult_zero (b : Bytes) (r : Nat) :
    bmResult b r 0 = salsa208 (xorBytes (blk b (2 * r - 1)) (blk b 0)) := rfl

theorem bmResult_succ (b : Bytes) (r i : Nat) :
    bmResult b r (i + 1) = salsa208 (xorBytes (bmResult b r i) (blk b (i + 1))) := by
  rw [bmResult, bmLoop_succ]
  rfl

/-- An iteration writes its result at its place of the output and leaves the other places. -/
theorem bmLoop_succ_y (b : Bytes) (r n : Nat) :
    (bmLoop b r (n + 1)).y = (bmLoop b r n).y.set (outPos r n) (bmResult b r n) := by
  rw [bmResult, bmLoop_succ]
  rfl

/-- A result stays at its place through the iterations after its own. -/
theorem bmLoop_y_outPos {b : Bytes} {r i n : Nat} (hi : i < n) (hn : n ≤ 2 * r) :
    (bmLoop b r n).y[outPos r i]? = some (bmResult b r i) := by
  induction n with
  | zero => omega
  | succ n ih =>
    rw [bmLoop_succ_y]
    rcases Nat.lt_succ_iff_lt_or_eq.mp hi with hlt | rfl
    · have hne : outPos r n ≠ outPos r i := fun h => by
        have := outPos_inj hn (hlt.trans hn) h
        omega
      rw [List.getElem?_set_ne hne]
      exact ih hlt (Nat.le_of_succ_le hn)
    · have hplace : outPos r i < (bmLoop b r i).y.length := bmLoop_y_length b r i ▸ outPos_lt hn
      exact List.getElem?_set_self hplace

/-- Result `i` is the Block of the output at its place (R171). -/
theorem blk_blockMix_outPos (b : Bytes) {r i : Nat} (h : i < 2 * r) :
    blk (blockMix b r) (outPos r i) = bmResult b r i :=
  blk_flatten (bmLoop_y_block b r _) (bmLoop_y_outPos h le_rfl)

/-- Settles O45: the chain is the loop's accumulator, and each result keeps the place of the output its iteration wrote, since
no other iteration writes there. -/
theorem blockmixChainsAndInterleaves : Obligations.BlockmixChainsAndInterleaves := by
  intro b r _ _
  refine ⟨blockMix_length b r, bmResult b r, bmResult_zero b r, fun i _ => bmResult_succ b r i, fun i hi => ?_⟩
  rw [← outPos_eq]
  exact blk_blockMix_outPos b hi

end Sys2Proof.Machine
end

section
/-! PROOFS. ROMix as a function (spec/43_romix.md R190 to R193): the four bytes `Integerify` reads, the index inside the
table, and the table and the states of the mix phase. -/

namespace Sys2Proof.Machine

/-! ### Integerify (R190) -/

theorem wordAt_toNat (b : Bytes) (a : Nat) :
    (wordAt b a).toNat =
      (b.getD a 0#8).toNat + 256 * (b.getD (a + 1) 0#8).toNat + 65536 * (b.getD (a + 2) 0#8).toNat +
        16777216 * (b.getD (a + 3) 0#8).toNat :=
  le32_toNat _ _ _ _

/-- A word depends on its four bytes only. -/
theorem wordAt_congr {b c : Bytes} {a : Nat} (h : ∀ k, k < 4 → c.getD (a + k) 0#8 = b.getD (a + k) 0#8) :
    wordAt c a = wordAt b a := by
  have h0 : c.getD a 0#8 = b.getD a 0#8 := h 0 (by decide)
  rw [wordAt, wordAt, h0, h 1 (by decide), h 2 (by decide), h 3 (by decide)]

/-- Settles O46: `Integerify` is the word at the start of the last Block. -/
theorem integerifyReadsFourBytes : Obligations.IntegerifyReadsFourBytes := by
  rintro x y r _ _ _ rfl
  exact ⟨wordAt_toNat x _, fun _ => wordAt_congr⟩

/-! ### The index (R191) -/

/-- AND with a power of two less one is the remainder by the power. -/
theorem toNat_and_sub_one_of_isPow2 (w : Word) {n : Word} (h : isPow2 n = true) :
    (w &&& (n - 1#32)).toNat = w.toNat % n.toNat := by
  obtain ⟨k, hk⟩ := (isPow2_iff_isPowerOfTwo n).1 h
  have hpos : 0 < n.toNat := hk ▸ Nat.two_pow_pos k
  have hsub : (n - 1#32).toNat = n.toNat - 1 := BitVec.toNat_sub_of_le (by bv_omega)
  rw [BitVec.toNat_and, hsub, hk, Nat.and_two_pow_sub_one_eq_mod]

/-- Settles O47: a legal N is a power of two, so the remainder is the AND. -/
theorem indexStaysInsideTheTable : Obligations.IndexStaysInsideTheTable := by
  intro x r n hpow hn
  exact ⟨rfl, (toNat_and_sub_one_of_isPow2 _ hpow).symm, mixIndex_lt x r _ (by omega)⟩

/-! ### The table and the mix phase (R192, R193) -/

section romix
variable (b : Bytes) (r n : Nat)

/-- The state of `ROMIX_F(b, r, n)` before iteration `i` of its mix phase (R192). -/
def romixState (i : Nat) : Bytes := mixLoop (romixF b r n).2 r n i (blockMixIter b r n)

/-- The table is the input and its successive BlockMix applications (R193). -/
theorem romixF_table : (romixF b r n).2 = (List.range n).map (blockMixIter b r) := by
  rw [romixF, buildLoop_eq]

/-- The output is the state after the last iteration. -/
theorem romixF_output : (romixF b r n).1 = romixState b r n n := by
  rw [romixState, romixF, buildLoop_eq]

/-- A slot below N holds the BlockMix application of its number, and there is no other slot. -/
theorem romixF_slot_iff {i : Nat} {v : Bytes} : (romixF b r n).2[i]? = some v ↔ i < n ∧ blockMixIter b r i = v := by
  simp [romixF_table, List.getElem?_eq_some_iff]

/-- One iteration of the mix phase, the slot it indexes being inside the table. -/
theorem romixState_succ (h : 0 < n) (i : Nat) :
    romixState b r n (i + 1) =
      blockMix (xorBytes (romixState b r n i) (blockMixIter b r (mixIndex (romixState b r n i) r n))) r := by
  rw [romixState, mixLoop_succ, mixStep]
  exact congrArg (fun v => blockMix (xorBytes _ v) r) (buildLoop_slot b r n _ (mixIndex_lt _ r n h))

end romix

/-- Settles O48: every slot read is inside the table, so it holds the BlockMix application of its number. -/
theorem romixBuildsThenMixes : Obligations.RomixBuildsThenMixes := by
  intro b r n hn
  refine ⟨romixState b r n, by simp [romixF_table], (romixF_slot_iff b r n).2 ⟨hn, rfl⟩, ?slots, ?start, ?mix,
    romixF_output b r n⟩
  case slots =>
    intro i v hi hv
    obtain ⟨-, rfl⟩ := (romixF_slot_iff b r n).1 hv
    exact (romixF_slot_iff b r n).2 ⟨hi, rfl⟩
  case start =>
    intro v hv
    obtain ⟨-, rfl⟩ := (romixF_slot_iff b r n).1 hv
    obtain ⟨m, rfl⟩ := Nat.exists_eq_add_of_le' hn
    rfl
  case mix =>
    intro i v _ hv
    obtain ⟨-, rfl⟩ := (romixF_slot_iff b r n).1 hv
    exact romixState_succ b r n hn i

end Sys2Proof.Machine
end

section
/-! PROOFS. The host's derivations (spec/44_host_kdf.md R222 to R227): the checks of the arguments, and the chains of
`PBKDF2` with an HMAC that never fails. -/

namespace Sys2Proof

/-- The numbers that pass a lower bound are the integers from it. -/
theorem HostNum.atLeast_eq_some_iff {lo n : Nat} {x : HostNum} : x.atLeast lo = some n ↔ x = .int n ∧ lo ≤ n := by
  cases x with
  | nonInteger => simp [atLeast]
  | int z =>
    simp only [atLeast, Option.ite_none_right_eq_some, Option.some.injEq, HostNum.int.injEq]
    omega

theorem HostNum.atLeast_eq_none_iff {lo : Nat} {x : HostNum} :
    x.atLeast lo = none ↔ ¬∃ n : Nat, lo ≤ n ∧ x = .int n := by
  simp only [Option.eq_none_iff_forall_ne_some, ne_eq, atLeast_eq_some_iff, not_exists, and_comm]

theorem Hash.hLen_pos (h : Hash) : 0 < h.hLen := by cases h <;> decide

end Sys2Proof

namespace Sys2Proof.Machine

/-! ### The block index and the key (R224, R225) -/

/-- Settles O55: the little-endian bytes of the index in reverse, and the two cases of the key. -/
theorem blockIndexAndEmptyPassword : Obligations.BlockIndexAndEmptyPassword := by
  refine ⟨fun i => ?index, fun h => if_pos rfl, fun P h hP => if_neg (mt List.length_eq_zero_iff.2 hP)⟩
  case index => rw [bigEndianU32, BitVec.ofNat_toNat, BitVec.setWidth_eq]; rfl

/-! ### The checks of `PBKDF2` (R222) -/

theorem maxBlocks_eq : maxBlocks = 2 ^ 32 - 1 := rfl

section checks
variable (hmac : Hmac) {q : Pbkdf2Req}

/-- A bad count, length or hash fails, whatever the others are. -/
theorem deriveKeyPbkdf2_invalid
    (hbad : q.iterations.atLeast 1 = none ∨ q.outputLength.atLeast 1 = none ∨ q.hash = none) :
    deriveKeyPbkdf2 hmac q = .error .invalidParameter := by
  unfold deriveKeyPbkdf2
  split
  next hc hd hh => simp [hc, hd, hh] at hbad
  next => rfl

/-- With a good count, length and hash only the bound of the length is left to check. -/
theorem deriveKeyPbkdf2_of_args {c d : Nat} {h : Hash} (hc : q.iterations.atLeast 1 = some c)
    (hd : q.outputLength.atLeast 1 = some d) (hh : q.hash = some h) :
    deriveKeyPbkdf2 hmac q =
      if (2 ^ 32 - 1) * h.hLen < d then .error .derivedKeyTooLong else pbkdf2 hmac q.password q.salt c d h := by
  rw [deriveKeyPbkdf2, hc, hd, hh, ← maxBlocks_eq]

end checks

/-- Settles O52: a bad argument fails first, and the bound of the length is checked after. -/
theorem pbkdf2ChecksItsArguments : Obligations.Pbkdf2ChecksItsArguments := by
  intro hmac q
  refine ⟨fun hbad => ?bad, fun d h hd hdq hh => ⟨fun hc => ?count, fun c hc hcq => ?good, fun hlt => ?bound⟩⟩
  case bad => exact deriveKeyPbkdf2_invalid hmac (.inr (hbad.imp_left HostNum.atLeast_eq_none_iff.2))
  case count =>
    have hinv := deriveKeyPbkdf2_invalid hmac (.inl (HostNum.atLeast_eq_none_iff.2 hc))
    exact ⟨fun _ => hinv, fun _ => .inl hinv⟩
  case good =>
    have hargs := deriveKeyPbkdf2_of_args hmac (HostNum.atLeast_eq_some_iff.2 ⟨hcq, hc⟩)
      (HostNum.atLeast_eq_some_iff.2 ⟨hdq, hd⟩) hh
    exact ⟨fun hlong => hargs.trans (if_pos hlong), fun hle => hargs.trans (if_neg hle.not_gt)⟩
  case bound => exact (Nat.le_sub_one_of_lt hlt).trans (Nat.le_mul_of_pos_right _ h.hLen_pos)

/-! ### The chains of `PBKDF2` (R223, R231) -/

section chains
variable (g : Bytes → Bytes)

/-- The chain from `U` with a MAC that never fails: the XOR of its applications to `U` onto `acc`. -/
theorem pbkdf2Chain_total (n : Nat) (u acc : Bytes) :
    pbkdf2Chain (fun m => some (g m)) n u acc =
      some ((List.range n).foldl (fun acc j => xorBytes acc (g^[j + 1] u)) acc) := by
  induction n generalizing u acc with
  | zero => rfl
  | succ n ih => rw [List.range_succ_eq_map, List.foldl_cons, List.foldl_map]; exact ih (g u) _

/-- `F[i]` of R223 for the MAC `g`: the XOR of `U_1`, …, `U_c`. -/
def pbkdf2F (salt : Bytes) (c i : Nat) : Bytes :=
  (List.range (c - 1)).foldl (fun acc j => xorBytes acc (g^[j + 1] (g (salt ++ bigEndianU32 i))))
    (g (salt ++ bigEndianU32 i))

theorem pbkdf2Block_total (salt : Bytes) (c i : Nat) :
    pbkdf2Block (fun m => some (g m)) salt c i = some (pbkdf2F g salt c i) :=
  pbkdf2Chain_total g _ _ _

theorem pbkdf2Blocks_total (salt : Bytes) (c i n : Nat) :
    pbkdf2Blocks (fun m => some (g m)) salt c i n =
      some ((List.range n).map fun k => pbkdf2F g salt c (k + i)) := by
  induction n generalizing i with
  | zero => rfl
  | succ n ih =>
    have hnext (k : Nat) : k + (i + 1) = k + 1 + i := by omega
    simp [pbkdf2Blocks, pbkdf2Block_total, ih, List.range_succ_eq_map, hnext]

/-- `F[1]`, …, `F[n]` of R223. -/
def pbkdf2Fs (salt : Bytes) (c n : Nat) : List Bytes := (List.range n).map fun k => pbkdf2F g salt c (k + 1)

theorem pbkdf2Fs_length (salt : Bytes) (c n : Nat) : (pbkdf2Fs g salt c n).length = n := by simp [pbkdf2Fs]

variable {g}

/-- XOR keeps the length that all its operands have. -/
theorem pbkdf2F_length {L : Nat} (hg : ∀ m, (g m).length = L) (salt : Bytes) (c i : Nat) :
    (pbkdf2F g salt c i).length = L := by
  refine List.foldlRecOn (motive := fun acc : Bytes => acc.length = L) _ _ (hg _) fun acc hacc j _ => ?_
  rw [xorBytes_length, hacc, Function.iterate_succ_apply', hg, Nat.min_self]

theorem pbkdf2Fs_block {L : Nat} (hg : ∀ m, (g m).length = L) (salt : Bytes) (c n : Nat) :
    ∀ x ∈ pbkdf2Fs g salt c n, x.length = L := by
  intro x hx
  obtain ⟨k, -, rfl⟩ := List.mem_map.1 hx
  exact pbkdf2F_length hg salt c (k + 1)

end chains

/-- `l` blocks hold `dkLen` bytes, and one block fewer does not. -/
theorem pbkdf2Count_spec {d L : Nat} (hd : 1 ≤ d) (hL : 0 < L) :
    1 ≤ pbkdf2Count d L ∧ (pbkdf2Count d L - 1) * L < d ∧ d ≤ pbkdf2Count d L * L := by
  have hcount : pbkdf2Count d L = (d - 1) / L + 1 := by
    rw [pbkdf2Count, ← Nat.add_div_right _ hL]
    congr 1
    omega
  have hlow : (d - 1) / L * L ≤ d - 1 := Nat.div_mul_le_self _ _
  have hhigh : d - 1 < ((d - 1) / L + 1) * L := Nat.lt_mul_of_div_lt (Nat.lt_succ_self _) hL
  rw [hcount, Nat.add_sub_cancel]
  exact ⟨Nat.le_add_left 1 _, Nat.lt_of_le_pred hd hlow, Nat.le_of_pred_lt hhigh⟩

section join
variable {fs : List Bytes} {n d L : Nat}

theorem length_flatten_of_block (hlen : ∀ x ∈ fs, x.length = L) (hn : fs.length = n) :
    fs.flatten.length = n * L := by
  rw [← hn, List.length_flatten, List.eq_replicate_of_mem (l := fs.map List.length) (by simpa using hlen)]
  simp

/-- Cutting the last block to what is left of `dkLen` cuts all of them to `dkLen` bytes. -/
theorem pbkdf2Join_eq_take (hlen : ∀ x ∈ fs, x.length = L) (hn : fs.length = n) (hone : 1 ≤ n)
    (hlow : (n - 1) * L ≤ d) : pbkdf2Join fs (d - (n - 1) * L) = fs.flatten.take d := by
  subst hn
  obtain ⟨init, last, rfl⟩ := (List.eq_nil_or_concat' fs).resolve_left (List.ne_nil_of_length_pos hone)
  have hinit : init.flatten.length = init.length * L :=
    length_flatten_of_block (fun x hx => hlen x (List.mem_append_left _ hx)) rfl
  simp only [List.length_append, List.length_singleton, Nat.add_sub_cancel] at hlow ⊢
  simp [pbkdf2Join, List.take_append, hinit, List.take_of_length_le (hinit.trans_le hlow)]

end join

/-- With an HMAC that never fails `PBKDF2` is the join of its blocks. -/
theorem pbkdf2_total (f : (h : Hash) → Bytes → Bytes → Vector Byte h.hLen) (P S : Bytes) (c d : Nat) (h : Hash) :
    pbkdf2 (fun h k m => some (f h k m)) P S c d h =
      .ok (pbkdf2Join (pbkdf2Fs (fun u => (f h (hmacKey P h) u).toList) S c (pbkdf2Count d h.hLen))
        (d - (pbkdf2Count d h.hLen - 1) * h.hLen)) := by
  have hcall : Hmac.call (fun h k m => some (f h k m)) h (hmacKey P h) =
      fun u => some (f h (hmacKey P h) u).toList := rfl
  rw [pbkdf2, hcall, pbkdf2Blocks_total, pbkdf2Fs]

/-- Settles O53: every block has the length of the hash, so the join of R223 is the first `dkLen` bytes of them all. -/
theorem pbkdf2IsTheXorOfItsChains : Obligations.Pbkdf2IsTheXorOfItsChains := by
  intro f P S c d h _ hd
  obtain ⟨hone, hlow, hhigh⟩ := pbkdf2Count_spec hd h.hLen_pos
  set g : Bytes → Bytes := fun u => (f h (hmacKey P h) u).toList
  set fs := pbkdf2Fs g S c (pbkdf2Count d h.hLen)
  have hcount : fs.length = pbkdf2Count d h.hLen := pbkdf2Fs_length g S c _
  have hlen : ∀ x ∈ fs, x.length = h.hLen := pbkdf2Fs_block (fun _ => Vector.length_toList) S c _
  refine ⟨pbkdf2F g S c, fun _ => rfl, ?key, ?length⟩
  case key =>
    exact (pbkdf2_total f P S c d h).trans (congrArg Except.ok (pbkdf2Join_eq_take hlen hcount hone hlow.le))
  case length => exact List.length_take_of_le (hhigh.trans_eq (length_flatten_of_block hlen hcount).symm)

/-! ### The checks of `SCRYPT` (R227) -/

/-- R227's items 1 to 3 on an N of at least 2. -/
theorem goodN_iff {n : Nat} (r : Nat) (hn : 2 ≤ n) :
    goodN n r = true ↔ (∃ k, n = 2 ^ k) ∧ n < 2 ^ (16 * r) ∧ n ≤ 2 ^ 31 := by
  have hpow : n &&& (n - 1) = 0 ↔ ∃ k, n = 2 ^ k :=
    (and_iff_right (by omega : n ≠ 0)).symm.trans Nat.ne_zero_and_sub_one_eq_zero_iff_isPowerOfTwo
  simp [goodN, hpow, and_assoc]

/-- A request passes when each number passes its own bound and the four together pass the rest. -/
theorem scryptNums_eq_some_iff {rMax : Nat} {q : ScryptReq} {m : ScryptNums} :
    scryptNums rMax q = some m ↔
      (q.N.atLeast 2 = some m.N ∧ q.r.atLeast 1 = some m.r ∧ q.p.atLeast 1 = some m.p ∧
        q.dkLen.atLeast 1 = some m.dkLen) ∧
      m.r ≤ rMax ∧ goodN m.N m.r = true ∧ m.p * m.r ≤ 1073741823 ∧ m.dkLen ≤ maxBlocks * 32 := by
  unfold scryptNums
  split
  next n r p dkLen hN hr hp hd =>
    rw [hN, hr, hp, hd]
    obtain ⟨N', r', p', d'⟩ := m
    simp only [Option.ite_none_right_eq_some, Option.some.injEq, ScryptNums.mk.injEq, Bool.and_eq_true,
      decide_eq_true_eq, and_assoc]
    constructor
    · rintro ⟨hmax, hgood, hpr, hdk, rfl, rfl, rfl, rfl⟩
      exact ⟨rfl, rfl, rfl, rfl, hmax, hgood, hpr, hdk⟩
    · rintro ⟨rfl, rfl, rfl, rfl, hmax, hgood, hpr, hdk⟩
      exact ⟨hmax, hgood, hpr, hdk, rfl, rfl, rfl, rfl⟩
  next hnone => exact ⟨nofun, fun ⟨⟨hN, hr, hp, hd⟩, _⟩ => (hnone _ _ _ _ hN hr hp hd).elim⟩

theorem State.startScrypt_invalid {s : State} {q : ScryptReq} (hmac : Hmac) (h : scryptNums s.params.rMax q = none) :
    s.startScrypt hmac q = .next (s.result (.failed .invalidParameter)) := by
  rw [State.startScrypt, h]

/-- Settles O56: each number passes its lower bound, `goodN` has the conditions on N, and a request that fails is answered
before the expansion. -/
theorem scryptChecksItsArguments : Obligations.ScryptChecksItsArguments := by
  refine ⟨fun rMax q m => ?checks, fun s q hq => State.startScrypt_invalid Config.hmac hq⟩
  simp only [scryptNums_eq_some_iff, HostNum.atLeast_eq_some_iff]
  constructor
  · rintro ⟨⟨⟨hN, hn⟩, ⟨hr, hr1⟩, ⟨hp, hp1⟩, hd, hd1⟩, hmax, hgood, hpr, hdk⟩
    obtain ⟨hpow, hlt, hle⟩ := (goodN_iff _ hn).1 hgood
    exact ⟨hN, hr, hp, hd, hpow, hn, hlt, hle, hr1, hp1, hmax, hpr, hd1, hdk⟩
  · rintro ⟨hN, hr, hp, hd, hpow, hn, hlt, hle, hr1, hp1, hmax, hpr, hd1, hdk⟩
    exact ⟨⟨⟨hN, hn⟩, ⟨hr, hr1⟩, ⟨hp, hp1⟩, hd, hd1⟩, hmax, (goodN_iff _ hn).2 ⟨hpow, hlt, hle⟩, hpr, hdk⟩

end Sys2Proof.Machine
end

section
/-! PROOFS. The interrupt (spec/60_exceptions.md R266, R267): its output as the enabled `STATUS` bits, and what
removes it. -/

namespace Sys2Proof.Machine

/-! ### The output (R266) -/

theorem Engine.irq_iff (g : Engine) :
    g.irq = true ↔
      g.status.done = true ∧ g.irqEn.getLsbD 0 = true ∨ g.status.err = true ∧ g.irqEn.getLsbD 1 = true ∨
        g.status.ovr = true ∧ g.irqEn.getLsbD 2 = true := by
  simp [Engine.irq, or_assoc]

/-- `DONE`, `ERR` and `OVR` in `STATUS` (R25 to R27). -/
theorem Status.getLsbD_word_flags (t : Status) :
    t.word.getLsbD 1 = t.done ∧ t.word.getLsbD 2 = t.err ∧ t.word.getLsbD 3 = t.ovr :=
  ⟨t.getLsbD_word 1, t.getLsbD_word 2, t.getLsbD_word 3⟩

theorem irqEnWord_getLsbD (en : BitVec 3) (i : Nat) : (irqEnWord en).getLsbD i = en.getLsbD i := by
  rw [irqEnWord, BitVec.getLsbD_setWidth, Bool.and_eq_right_iff_imp, decide_eq_true_eq]
  exact fun h => (BitVec.lt_of_getLsbD h).trans (by decide)

/-- The bits that R266 joins: each bit of `STATUS` above `BUSY` under its enable. -/
theorem enabledStatus_ne_zero_iff (t : Status) (en : BitVec 3) :
    (t.word >>> 1) &&& irqEnWord en ≠ 0#32 ↔ ∃ i, t.word.getLsbD (1 + i) = true ∧ en.getLsbD i = true := by
  simp only [ne_eq, BitVec.zero_iff_eq_false, not_forall, Bool.not_eq_false, BitVec.getLsbD_and,
    BitVec.getLsbD_ushiftRight, irqEnWord_getLsbD, Bool.and_eq_true]

theorem Engine.irq_iff_enabledStatus (g : Engine) :
    g.irq = true ↔ (g.status.word >>> 1) &&& irqEnWord g.irqEn ≠ 0#32 := by
  obtain ⟨hdone, herr, hovr⟩ := g.status.getLsbD_word_flags
  rw [g.irq_iff, enabledStatus_ne_zero_iff, ← hdone, ← herr, ← hovr]
  constructor
  · rintro (h | h | h)
    · exact ⟨0, h⟩
    · exact ⟨1, h⟩
    · exact ⟨2, h⟩
  · rintro ⟨i, hflag, hen⟩
    match i with
    | 0 => exact .inl ⟨hflag, hen⟩
    | 1 => exact .inr (.inl ⟨hflag, hen⟩)
    | 2 => exact .inr (.inr ⟨hflag, hen⟩)
    | i + 3 => exact absurd (BitVec.lt_of_getLsbD hen) (by omega)

/-- Settles O15: the bits of `STATUS` above `BUSY` are the flags in the order of their enables; every flag is 0 at reset. -/
theorem interruptIsEnabledStatus : Obligations.InterruptIsEnabledStatus := by
  refine ⟨Engine.irq_iff_enabledStatus, fun p g hg => ?_⟩
  obtain rfl : g = Engine.reset := List.eq_of_mem_replicate hg
  rfl

/-! ### What removes it (R267) -/

/-- The interrupt stays where no enable and no flag is lost. -/
theorem Engine.irq_mono {g h : Engine} (hg : g.irq = true)
    (hen : ∀ i, i < 3 → g.irqEn.getLsbD i = true → h.irqEn.getLsbD i = true)
    (hdone : g.status.done = true → h.status.done = true) (herr : g.status.err = true → h.status.err = true)
    (hovr : g.status.ovr = true → h.status.ovr = true) : h.irq = true := by
  rw [Engine.irq_iff] at hg ⊢
  exact hg.imp (.imp hdone (hen 0 (by decide))) (.imp (.imp herr (hen 1 (by decide))) (.imp hovr (hen 2 (by decide))))

/-- The interrupt looks at `STATUS` and `IRQ_EN` only. -/
theorem Engine.irq_congr {g h : Engine} (hs : h.status = g.status) (hen : h.irqEn = g.irqEn) : h.irq = g.irq := by
  rw [Engine.irq, hs, hen, Engine.irq]

/-- A turn of the engine clears no flag, so it keeps the interrupt (R118, R265). -/
theorem Engine.OwnTurn.irq {ans : Answer} {g h : Engine} (ht : g.OwnTurn ans h) (hg : g.irq = true) : h.irq = true := by
  cases ht with
  | waits _ => exact hg
  | moves _ hs => exact (Engine.irq_congr hs.status hs.irqEn).trans hg
  | strange _ _ hs => exact (Engine.irq_congr hs.status hs.irqEn).trans hg
  | aborted f _ _ _ => exact Engine.irq_mono hg (fun _ _ => id) id (fun _ => rfl) id
  | completed f _ _ => exact Engine.irq_mono hg (fun _ _ => id) (fun _ => rfl) id id

/-- A write to `STATUS` with no 1 among bits [3:1] keeps the interrupt (R29). -/
theorem Engine.statusWrite_irq {g : Engine} {w : Word} (hzero : w &&& 0x0000000E#32 = 0#32) (hg : g.irq = true) :
    (g.writeReg w .status).irq = true := by
  have hkeep {i : Nat} (hi : (0x0000000E#32).getLsbD i = true) (flag : Bool) (hflag : flag = true) :
      (flag && !w.getLsbD i) = true := by
    have hbit : (w &&& 0x0000000E#32).getLsbD i = false := by rw [hzero, BitVec.getLsbD_zero]
    rw [BitVec.getLsbD_and, hi, Bool.and_true] at hbit
    rw [hflag, hbit, Bool.not_false, Bool.and_self]
  exact Engine.irq_mono hg (fun _ _ => id) (hkeep (i := 1) rfl _) (hkeep (i := 2) rfl _) (hkeep (i := 3) rfl _)

/-- A write to `IRQ_EN` that sets every enable keeps the interrupt (R31). -/
theorem Engine.irqEnWrite_irq {g : Engine} {w : Word} (hones : w &&& 0x00000007#32 = 0x00000007#32)
    (hg : g.irq = true) : (g.writeReg w .irqEn).irq = true := by
  refine Engine.irq_mono hg (fun i hi _ => ?_) id id id
  have hbit : (w &&& 0x00000007#32).getLsbD i = true := by
    rw [hones]
    interval_cases i <;> rfl
  rw [BitVec.getLsbD_and, Bool.and_eq_true] at hbit
  simpa [Engine.writeReg, irqEnOf, hi] using hbit.1

theorem Engine.writeReg_irq (g : Engine) (w : Word) {r : Reg} (hs : r ≠ .status) (hen : r ≠ .irqEn) :
    (g.writeReg w r).irq = g.irq := by
  cases r
  case status => exact absurd rfl hs
  case irqEn => exact absurd rfl hen
  all_goals rfl

/-- Of the host's register writes only one to `STATUS`, to `IRQ_EN` or, while idle, to `CMD` removes the interrupt. -/
theorem Engine.RegWrite.irq_removed {rMax : Nat} {w : Word} {g h : Engine} {r : Reg} (hw : g.RegWrite rMax w r h)
    (hg : g.irq = true) (hh : h.irq = false) :
    (r = .status ∧ w &&& 0x0000000E#32 ≠ 0#32) ∨ (r = .irqEn ∧ w &&& 0x00000007#32 ≠ 0x00000007#32) ∨
      (r = .cmd ∧ g.status.busy = false) := by
  cases hw with
  | ignored _ _ => simp [hg] at hh
  | @register r _ _ =>
    by_cases hs : r = .status
    · subst hs
      exact .inl ⟨rfl, fun hzero => Bool.false_ne_true (hh.symm.trans (Engine.statusWrite_irq hzero hg))⟩
    by_cases hen : r = .irqEn
    · subst hen
      exact .inr (.inl ⟨rfl, fun hones => Bool.false_ne_true (hh.symm.trans (Engine.irqEnWrite_irq hones hg))⟩)
    · rw [g.writeReg_irq w hs hen, hg] at hh
      cases hh
  | overrun _ _ =>
    have hkept : g.overrun.irq = true := Engine.irq_mono hg (fun _ _ => id) id id (fun _ => rfl)
    exact absurd (hh.symm.trans hkept) Bool.false_ne_true
  | rejected _ hb _ => exact .inr (.inr ⟨rfl, hb⟩)
  | accepted _ hb _ => exact .inr (.inr ⟨rfl, hb⟩)

theorem Reg.eq_offset {off : Nat} {r : Reg} (h : Reg.ofOffset off = r) (hr : r ≠ .reserved) : off = r.offset := by
  subst h
  exact (Reg.offset_ofOffset hr).symm

/-- Of all steps only a reset and those register writes remove the interrupt. -/
theorem Engine.Change.irq_removed {p : Params} {prog : List HostStmt} {turn : Turn} {e : Nat} {g h : Engine}
    (hc : g.Change p prog turn e h) (hg : g.irq = true) (hh : h.irq = false) :
    turn = .assertReset e ∨ ∃ ref w off rest, turn = .host ∧ prog = .wr ref w :: rest ∧
      ref.resolve p = .ok (e, off) ∧
        ((off = 0x08 ∧ w &&& 0x0000000E#32 ≠ 0#32) ∨ (off = 0x0C ∧ w &&& 0x00000007#32 ≠ 0x00000007#32) ∨
          (off = 0x04 ∧ g.status.busy = false)) := by
  cases hc with
  | same => simp [hg] at hh
  | taint => exact absurd (hh.symm.trans hg) Bool.false_ne_true
  | releaseReset _ => exact absurd (hh.symm.trans hg) Bool.false_ne_true
  | assertReset f hturn => exact .inl hturn
  | engineTurn _ ht => simp [ht.irq hg] at hh
  | @regWrite ref w rest off _ hturn hprog hres hw =>
    refine .inr ⟨ref, w, off, rest, hturn, hprog, hres, ?_⟩
    rcases hw.irq_removed hg hh with ⟨hr, hone⟩ | ⟨hr, hzero⟩ | ⟨hr, hidle⟩
    · exact .inl ⟨Reg.eq_offset (r := .status) hr (by decide), hone⟩
    · exact .inr (.inl ⟨Reg.eq_offset (r := .irqEn) hr (by decide), hzero⟩)
    · exact .inr (.inr ⟨Reg.eq_offset (r := .cmd) hr (by decide), hidle⟩)

/-- Settles O16: the last lemma read at one step (`step_change`). -/
theorem interruptIsRemovedOnly : Obligations.InterruptIsRemovedOnly := by
  intro s t e g h hinv hg hstep hh hirq hlow
  exact (step_change hinv hstep hg hh).irq_removed hirq hlow

end Sys2Proof.Machine
end

section
/-! PROOFS. A memory error (spec/60_exceptions.md R265): regions whose bytes became free values, the unit at `SRC` that
a command keeps, and an engine that is idle afterwards. -/

namespace Sys2Proof.Machine

/-! ### Free contents -/

/-- Every byte of a region whose contents became unspecified is a free value. -/
theorem Memory.read_unspecify_in {m : Memory} {r : Region} {a : Nat} (c : Nat) (hm : m.wf = true)
    (hr : r.inSpace = true) (ha : r.holds a = true) :
    (m.unspecify r c).read a = Config.freeByte (c + (a - r.base)) := by
  obtain ⟨hlo, hhi⟩ := (r.holds_iff a).1 ha
  obtain ⟨k, rfl⟩ := Nat.exists_eq_add_of_le hlo
  have hk : k < r.len := by omega
  rw [Memory.unspecify, Memory.read_writeBytes_in (by simpa using hk) (by simpa using r.inSpace_iff.1 hr) hm]
  simp [freeBytes, hk]

/-- Every byte of each of the regions is a free value, drawn for the last of them that holds it. -/
theorem State.read_unspecify_in {s : State} {rs : List Region} {r : Region} {a : Nat} (hm : s.mem.wf = true)
    (hrs : ∀ x ∈ rs, x.inSpace = true) (hr : r ∈ rs) (ha : r.holds a = true) :
    ∃ n, (s.unspecify rs).mem.read a = Config.freeByte n := by
  induction rs generalizing s r with
  | nil => cases hr
  | cons x xs ih =>
    obtain ⟨hx, hxs⟩ := List.forall_mem_cons.1 hrs
    by_cases hlater : ∃ y ∈ xs, y.holds a = true
    · obtain ⟨y, hy, hya⟩ := hlater
      exact ih (Memory.unspecify_wf _ hx hm) hxs hy hya
    · have hout : ∀ y ∈ xs, y.holds a = false := by simpa using hlater
      obtain rfl : r = x := (List.mem_cons.1 hr).resolve_right fun h => hlater ⟨r, h, ha⟩
      exact ⟨_, (State.read_unspecify_out hout).trans (Memory.read_unspecify_in _ hm hx ha)⟩

/-! ### The unit at `SRC` -/

/-- A valid command writes no byte of its `SRC` unit unless `SRC` = `DST` (R69). -/
theorem Latched.Valid.srcUnit_notWritten {rMax : Nat} {l : Latched} (h : l.Valid rMax) (hne : l.src ≠ l.dst) {k : Nat}
    (hk : k < l.unitLen) : ∀ r ∈ l.writeRegions, r.holds (l.src.toNat + k) = false := by
  intro r hr
  rw [Bool.eq_false_iff, ne_eq, r.holds_iff]
  rcases Latched.mem_writeRegions.1 hr with rfl | ⟨hop, rfl⟩
  · have hdst := h.apart.resolve_left hne
    simp only [Latched.dstRegion]
    omega
  · have hv := h.vSrc hop
    simp only [Latched.vRegion]
    omega

/-- What keeps every byte outside `DST` and `V` keeps the unit at `SRC`, unless `SRC` = `DST`. -/
theorem Memory.KeepsOutside.srcUnit {rMax : Nat} {l : Latched} {m m' : Memory} (h : m.KeepsOutside l.writeRegions m')
    (hl : l.Valid rMax) (hne : l.src ≠ l.dst) :
    m'.readBytes l.src.toNat l.unitLen = m.readBytes l.src.toNat l.unitLen :=
  Memory.readBytes_congr fun _ hk => h _ (hl.srcUnit_notWritten hne hk)

/-! ### The abort -/

theorem Status.failed_of_not_done {t : Status} (c : ErrCode) (h : t.done = false) :
    t.failed c = { busy := false, done := false, err := true, ovr := t.ovr, errCode := c.code } := by
  rw [Status.failed, h]

/-- An idle engine does nothing (R292). -/
theorem State.engineStep_idle {s : State} {e : Nat} {g : Engine} (ans : Answer) (hg : s.engines[e]? = some g)
    (hidle : g.running = false) : s.engineStep e ans = .next s := by
  rw [State.engineStep, State.onEngine_some hg, hidle]
  rfl

/-- The memory's error on a running command's transfer raises `BUS` (R83). -/
theorem State.engineStep_error {s : State} {e : Nat} {g : Engine} (hg : s.engines[e]? = some g) (hr : g.running = true)
    (hop : g.portOp ≠ none) : s.engineStep e .error = .next (s.raiseError e g .bus) := by
  obtain ⟨op, hop⟩ := Option.ne_none_iff_exists'.1 hop
  exact State.engineStep_transfer .error hg hr hop

theorem State.raiseError_running (s : State) (e : Nat) {g : Engine} (c : ErrCode) (hr : g.running = true) :
    s.raiseError e g c =
      (s.spoil g.lat true).drawn.setEngine e (g.aborted c (s.spoil g.lat true).freeCount) :=
  if_pos hr

/-- An abort changes nothing of the host. -/
theorem State.raiseError_keepsHost (s : State) (e : Nat) {g : Engine} (c : ErrCode) (hr : g.running = true) :
    s.KeepsHost (s.raiseError e g c) := by
  rw [s.raiseError_running e c hr]
  constructor <;> simp

/-- An abort leaves a free value in every byte of `DST` and `V`. -/
theorem State.raiseError_freeBytes {s : State} (hinv : s.Inv) {e : Nat} {g : Engine} (hg : s.engines[e]? = some g)
    (hr : g.running = true) (c : ErrCode) {r : Region} {a : Nat} (hmem : r ∈ g.lat.writeRegions)
    (ha : r.holds a = true) : ∃ n, (s.raiseError e g c).mem.read a = Config.freeByte n := by
  rw [s.raiseError_running e c hr]
  exact State.read_unspecify_in hinv.mem ((hinv.engineOk hg).valid hr).writeRegions_inSpace hmem ha

/-- Settles O33: the step is the abort with `BUS`, which leaves its engine idle. -/
theorem memoryErrorAborts : Obligations.MemoryErrorAborts := by
  intro s e g hinv hg hr hop
  have hok := hinv.engineOk hg
  have hdone : g.status.done = false := (hok.clean (hok.busy.trans hr)).1
  have hengines := s.raiseError_running_engines e .bus hr
  have hkeeps := s.raiseError_keepsOutside e .bus hr
  set h := g.aborted .bus (s.spoil g.lat true).freeCount
  have hh : (s.raiseError e g .bus).engines[e]? = some h := by
    rw [hengines]
    exact State.setEngine_getElem?_self hg h
  exact ⟨_, h, State.engineStep_error hg hr hop, hengines, rfl, Status.failed_of_not_done .bus hdone,
    ⟨rfl, rfl, rfl, rfl, rfl, rfl⟩, s.raiseError_keepsHost e .bus hr, hkeeps,
    fun _ hmem _ ha => State.raiseError_freeBytes hinv hg hr .bus hmem ha, hkeeps.srcUnit (hok.valid hr),
    fun ans => State.engineStep_idle ans hh rfl⟩

end Sys2Proof.Machine
end

section
/-! PROOFS. Reset (spec/70_reset_and_hazards.md R290, R292): what the registers read as at their reset values, an engine
that ignores the host while its reset is asserted, and the two turns of the platform. -/

namespace Sys2Proof.Machine

/-! ### Registers at their reset values -/

/-- R20's column of reset values, read by the host. -/
theorem Engine.readReg_eq_resetReads {g : Engine} (hstatus : g.status = Status.reset)
    (hregs : Engine.reset.KeepsRegs g) (p : Params) (r : Reg) : g.readReg p r = resetReads p r := by
  obtain ⟨hirqEn, hsrc, hdst, hv, hr, hn⟩ := hregs
  cases r with
  | status => exact congrArg Status.word hstatus
  | irqEn => exact congrArg irqEnWord hirqEn
  | srcAddr => exact hsrc
  | dstAddr => exact hdst
  | vAddr => exact hv
  | rParam => exact hr
  | nParam => exact hn
  | id | cmd | rmax | reserved => rfl

/-! ### While reset is asserted (R290) -/

section held
variable {s : State} {e : Nat} {g : Engine} (hi : g.inReset = true)
include hi

theorem State.regValue_of_held (s : State) (r : Reg) : s.regValue g r = Config.freeWord s.freeCount := if_pos hi

theorem State.submit_of_held (w : Word) (hg : s.engines[s.target]? = some g) : s.submit w = .next s := by
  rw [State.submit, State.onEngine_some hg]
  exact if_pos hi

theorem State.regWrite_of_held (w : Word) {r : Reg} (hr : r ≠ .cmd) (hg : s.engines[e]? = some g) :
    s.regWrite e w r = .next s := by
  rw [s.regWrite_of_ne_cmd e w hr, State.onEngine_some hg]
  exact if_pos hi

/-- A host write to any register, `CMD` among them, changes no engine and no memory. -/
theorem State.regWrite_ignored (w : Word) (r : Reg) (hg : s.engines[e]? = some g) :
    ∃ t, s.regWrite e w r = .next t ∧ t.engines = s.engines ∧ t.mem = s.mem := by
  by_cases hr : r = .cmd
  · subst hr
    exact ⟨_, (s.regWrite_cmd e w).trans (State.submit_of_held (s := { s with target := e }) hi w hg), rfl, rfl⟩
  · exact ⟨s, State.regWrite_of_held hi w hr hg, rfl, rfl⟩

end held

/-! ### Asserting reset (R290) -/

/-- A reset changes nothing of the host. -/
theorem State.assertReset_keepsHost (s : State) (e : Nat) (g : Engine) : s.KeepsHost (s.assertReset e g) := by
  constructor <;> simp [State.assertReset]

/-- A reset keeps every byte outside `DST` and `V`. -/
theorem State.assertReset_keepsOutside (s : State) (e : Nat) (g : Engine) :
    s.mem.KeepsOutside g.lat.writeRegions (s.assertReset e g).mem :=
  s.spoil_keepsOutside g.lat g.running

/-- The reset of an engine that runs no command keeps all of memory. -/
theorem State.assertReset_mem_of_idle (s : State) (e : Nat) {g : Engine} (hidle : g.running = false) :
    (s.assertReset e g).mem = s.mem := by
  simp [State.assertReset, hidle]

/-- Abandoning a command leaves a free value in every byte of `DST` and `V`. -/
theorem State.assertReset_freeBytes {s : State} (hinv : s.Inv) {e : Nat} {g : Engine} (hg : s.engines[e]? = some g)
    (hr : g.running = true) {r : Region} {a : Nat} (hmem : r ∈ g.lat.writeRegions) (ha : r.holds a = true) :
    ∃ n, (s.assertReset e g).mem.read a = Config.freeByte n := by
  simp only [State.assertReset, hr, State.spoil_true, State.setEngine_mem, State.drawn_mem]
  exact State.read_unspecify_in hinv.mem ((hinv.engineOk hg).valid hr).writeRegions_inSpace hmem ha

/-- Settles O35: the turn is `State.assertReset`, which leaves the engine held in reset. -/
theorem resetAbandonsAndClears : Obligations.ResetAbandonsAndClears := by
  intro s e g hinv hg
  have hengines := s.assertReset_engines e g
  have hkeeps := s.assertReset_keepsOutside e g
  set h := Engine.heldInReset (s.spoil g.lat g.running).freeCount
  have hh : (s.assertReset e g).engines[e]? = some h := by
    rw [hengines]
    exact State.setEngine_getElem?_self hg h
  exact ⟨_, h, State.onEngine_some hg, hengines, rfl,
    Engine.readReg_eq_resetReads rfl ⟨rfl, rfl, rfl, rfl, rfl, rfl⟩ s.params, rfl, rfl, s.assertReset_keepsHost e g,
    hkeeps, s.assertReset_mem_of_idle e,
    fun hr _ hmem _ ha => State.assertReset_freeBytes hinv hg hr hmem ha,
    fun hr => hkeeps.srcUnit ((hinv.engineOk hg).valid hr),
    fun ans => State.engineStep_idle ans hh rfl,
    fun w r => State.regWrite_ignored rfl w r hh,
    State.regValue_of_held rfl _⟩

/-! ### After reset (R292) -/

theorem State.resetWith_getElem? (p : Params) {e : Nat} (he : e < p.numEngines) :
    (State.resetWith p).engines[e]? = some Engine.reset :=
  List.getElem?_replicate_of_lt he

section released
variable {rMax : Nat} {g : Engine} (h : g.Ok rMax) (hi : g.inReset = true)
include h hi

/-- An engine just released from reset is idle: a `CMD` write to it is a submission. -/
theorem Engine.Ok.released_ready : Engine.ready { g with inReset := false } = true := by
  obtain ⟨hphase, -⟩ := h.held hi
  have hidle : g.running = false := g.running_eq_false_iff.2 hphase
  exact (Engine.ready_iff _).2 ⟨hidle, h.busy.trans hidle, rfl⟩

/-- The release keeps the reset values the registers were held at. -/
theorem Engine.Ok.released_readReg (p : Params) (r : Reg) :
    Engine.readReg { g with inReset := false } p r = resetReads p r := by
  obtain ⟨-, hstatus, hirqEn, hsrc, hdst, hv, hr, hn⟩ := h.held hi
  exact Engine.readReg_eq_resetReads hstatus ⟨hirqEn, hsrc, hdst, hv, hr, hn⟩ p r

end released

/-- Settles O36: every engine of `State.resetWith` is `Engine.reset`; an engine released keeps the reset values and the
idle phase it was held in. -/
theorem nothingStartsAtReset : Obligations.NothingStartsAtReset := by
  refine ⟨fun p e he => ?_, fun s e g hinv hg hi => ?_⟩
  · have hg := State.resetWith_getElem? p he
    exact ⟨_, hg, rfl, rfl, rfl, Engine.readReg_eq_resetReads rfl ⟨rfl, rfl, rfl, rfl, rfl, rfl⟩ p,
      fun ans => State.engineStep_idle ans hg rfl⟩
  · have hok := hinv.engineOk hg
    have hready := hok.released_ready hi
    obtain ⟨hidle, -, -⟩ := (Engine.ready_iff _).1 hready
    exact ⟨_, _, State.onEngine_some hg, rfl, rfl, hready, hok.released_readReg hi s.params,
      fun ans => State.engineStep_idle ans (State.setEngine_getElem?_self hg _) hidle⟩

end Sys2Proof.Machine
end

section
/-! PROOFS. The invariant (`State.Inv`) is kept by every step of every agent, and holds right after reset: what a
statement of the host does beside moving the host on, and the turns one by one. -/

namespace Sys2Proof.Machine

/-! ### A statement of the host that is no `WR` -/

/-- What a statement that is no `WR` does to memory and engines: nothing, or a store inside the address space. -/
inductive State.HostEffect (s t : State) : Prop
  | quiet : t.params = s.params → t.mem = s.mem → t.engines = s.engines → HostEffect s t
  | store (a : Nat) (bs : Bytes) : a + bs.length ≤ Config.memBytes → t.params = s.params →
      t.mem = (s.hostWrite a bs).mem → t.engines = (s.hostWrite a bs).engines → HostEffect s t

theorem State.HostEffect.refl (s : State) : s.HostEffect s := .quiet rfl rfl rfl

theorem State.storeAt_effect {s t : State} {a : Nat} {bs : Bytes} (ht : s.storeAt a bs = .next t) : s.HostEffect t := by
  obtain ⟨hin, rfl⟩ := State.storeAt_next ht
  exact .store a bs hin rfl rfl rfl

/-- A register read is without effect, if what receives the value is (R39). -/
theorem State.access_regRead_effect {s t : State} {ref : RegRef} {f : Word → State → State}
    (ht : (s.access ref fun e r => s.regRead e r f) = .next t) (hf : ∀ v, s.drawn.HostEffect (f v s.drawn)) :
    s.HostEffect t := by
  obtain ⟨e, off, -, ht⟩ := State.access_next ht
  obtain ⟨g, -, rfl⟩ := State.regRead_next ht
  cases hf (s.regValue g (Reg.ofOffset off)) with
  | quiet hp hm he => exact .quiet hp hm he
  | store a bs hin hp hm he => exact .store a bs hin hp hm he

theorem State.startScrypt_effect {s t : State} {hmac : Hmac} {q : ScryptReq} (ht : s.startScrypt hmac q = .next t) :
    s.HostEffect t := by
  unfold State.startScrypt at ht
  split at ht
  · exact Host.Outcome.next.inj ht ▸ .quiet rfl rfl rfl
  split at ht
  · simp at ht
  split at ht <;> exact Host.Outcome.next.inj ht ▸ .quiet rfl rfl rfl

theorem State.runStmt_effect {s t : State} {st : HostStmt} (hst : ∀ ref w, st ≠ .wr ref w)
    (ht : s.runStmt st = .next t) : s.HostEffect t := by
  cases st <;> simp only [State.runStmt] at ht
  case wr ref w => exact absurd rfl (hst ref w)
  case rd ref => exact State.access_regRead_effect ht fun _ => .quiet rfl rfl rfl
  case wait ref mask val => exact State.access_regRead_effect ht fun _ => by split <;> exact .quiet rfl rfl rfl
  case checkStatus ref => exact State.access_regRead_effect ht fun _ => by split <;> exact .quiet rfl rfl rfl
  case waitIrq e =>
    split at ht
    · simp at ht
    obtain ⟨g, -, ht⟩ := State.onEngine_next.1 ht
    split at ht <;> exact Host.Outcome.next.inj ht ▸ .quiet rfl rfl rfl
  case stb a bs => exact State.storeAt_effect ht
  case placeBlock k a len => exact State.storeAt_effect ht
  case ldb a n => exact State.loadAt_next ht ▸ .quiet rfl rfl rfl
  case takeBlock k a len => exact State.loadAt_next ht ▸ .quiet rfl rfl rfl
  case deriveKeyPbkdf2 q => exact Host.Outcome.next.inj ht ▸ .quiet rfl rfl rfl
  case deriveKeyScrypt q => exact State.startScrypt_effect ht
  case eraseTable k ref a n =>
    obtain rfl := Host.Outcome.next.inj ht
    rcases s.eraseTable_cases a n with ⟨hin, h⟩ | ⟨-, h⟩ <;> rw [h]
    · exact .store a _ (by simpa using hin) rfl rfl rfl
    · exact .refl s
  case finishScrypt pw n => exact Host.Outcome.next.inj ht ▸ .quiet rfl rfl rfl

/-! ### The invariant is kept -/

theorem State.Inv.hostEffect {s t : State} (h : s.Inv) (ht : s.HostEffect t) : t.Inv := by
  cases ht with
  | quiet hp hm he => exact h.congr hp hm he
  | store a bs hin hp hm he =>
    exact h.tainted hp (hm ▸ Memory.writeBytes_wf hin h.mem) (he.trans (s.hostWrite_engines a bs))

theorem State.Inv.regWrite {s t : State} (h : s.Inv) {e : Nat} {w : Word} {r : Reg} (ht : s.regWrite e w r = .next t) :
    t.Inv := by
  by_cases hr : r = .cmd
  · subst hr
    rw [State.regWrite_cmd] at ht
    exact State.Inv.submit (s := { s with target := e }) (h.congr rfl rfl rfl) ht
  · rw [s.regWrite_of_ne_cmd e w hr] at ht
    obtain ⟨g, hg, ht⟩ := State.onEngine_next.1 ht
    split at ht
    · exact Host.Outcome.next.inj ht ▸ h
    · next hi => exact Host.Outcome.next.inj ht ▸ h.writeReg hg (by simpa using hi) w r

theorem State.Inv.runStmt {s t : State} (h : s.Inv) {st : HostStmt} (ht : s.runStmt st = .next t) : t.Inv := by
  by_cases hst : ∃ ref w, st = .wr ref w
  · obtain ⟨ref, w, rfl⟩ := hst
    obtain ⟨e, off, -, ht⟩ := State.access_next ht
    exact h.regWrite ht
  · exact h.hostEffect (State.runStmt_effect (fun ref w hw => hst ⟨ref, w, hw⟩) ht)

theorem State.Inv.hostStep {s t : State} (h : s.Inv) (ht : s.hostStep = .next t) : t.Inv := by
  cases hprog : s.program with
  | nil =>
    rw [State.hostStep, hprog] at ht
    exact Host.Outcome.next.inj ht ▸ h
  | cons st rest =>
    rw [State.hostStep_cons hprog] at ht
    exact State.Inv.runStmt (s := { s with program := rest }) (h.congr rfl rfl rfl) ht

theorem State.Inv.takeTurn {s t : State} (h : s.Inv) {turn : Turn} (ht : s.takeTurn turn = .next t) : t.Inv := by
  cases turn with
  | host => exact h.hostStep ht
  | engine e ans => exact h.engineStep ht
  | assertReset e =>
    obtain ⟨g, hg, ht⟩ := State.onEngine_next.1 ht
    exact Host.Outcome.next.inj ht ▸ h.assertReset hg
  | releaseReset e =>
    obtain ⟨g, hg, ht⟩ := State.onEngine_next.1 ht
    exact Host.Outcome.next.inj ht ▸ h.releaseReset hg

theorem State.Inv.nextTurn {s : State} (h : s.Inv) : s.nextTurn.2.Inv :=
  h.congr s.nextTurn_params s.nextTurn_mem s.nextTurn_engines

/-- Settles O38: a turn of each agent keeps the invariant, and taking the turn off the schedule does. -/
theorem stepKeepsTheInvariant : Obligations.StepKeepsTheInvariant :=
  fun _ _ h ht => h.nextTurn.takeTurn ht

/-! ### Right after reset -/

theorem Engine.reset_ok (rMax : Nat) : Engine.reset.Ok rMax :=
  ⟨rfl, nofun, fun _ => rfl, by decide, rfl, nofun, nofun⟩

theorem State.resetWith_inv {p : Params} (hp : p.wf = true) : (State.resetWith p).Inv := by
  have hreset {e : Nat} {g : Engine} (hg : (State.resetWith p).engines[e]? = some g) : g = Engine.reset :=
    List.eq_of_mem_replicate (List.mem_of_getElem? hg)
  refine ⟨hp, rfl, List.length_replicate, fun g hg => ?_, fun e f g h _ hg _ hr => ?_⟩
  · exact List.eq_of_mem_replicate hg ▸ Engine.reset_ok _
  · rw [hreset hg] at hr
    cases hr

/-- Settles O39: every engine is `Engine.reset`, which runs nothing. -/
theorem resetHasTheInvariant : Obligations.ResetHasTheInvariant :=
  ⟨fun _ => State.resetWith_inv, State.resetWith_inv (by decide)⟩

end Sys2Proof.Machine
end

section
/-! PROOFS. The bytes a running command still reads and writes on its port (spec/20_memory.md R85), and that each of its
steps moves its share of them. -/

namespace Sys2Proof.Machine

/-- The bytes a running command still reads (R85): of the `MemRead` in progress, and of the table slots to come. -/
def Engine.readsLeft (g : Engine) : Nat :=
  match g.scratch.act with
  | .load => 4 * (g.lat.unitWords - g.scratch.k) + if g.phase = .build then g.lat.n.toNat * g.lat.unitLen else 0
  | .snapshot => g.lat.n.toNat * g.lat.unitLen
  | .index => (g.lat.n.toNat - g.i) * g.lat.unitLen
  | .fetch => 4 * (g.lat.unitWords - g.scratch.k) + (g.lat.n.toNat - (g.i + 1)) * g.lat.unitLen
  | .mixing =>
    if g.phase = .build then g.lat.n.toNat * g.lat.unitLen
    else if g.phase = .mix then (g.lat.n.toNat - (g.i + 1)) * g.lat.unitLen
    else 0
  | .store => 0
  | .finish => 0

/-- The bytes a running command still writes (R85): of the `MemWrite` in progress, of the table slots to come, of
`DST`. -/
def Engine.writesLeft (g : Engine) : Nat :=
  match g.scratch.act with
  | .load => (if g.phase = .build then g.lat.n.toNat * g.lat.unitLen else 0) + g.lat.unitLen
  | .snapshot =>
    4 * (g.lat.unitWords - g.scratch.k) + (g.lat.n.toNat - (g.i + 1)) * g.lat.unitLen + g.lat.unitLen
  | .index => g.lat.unitLen
  | .fetch => g.lat.unitLen
  | .mixing => (if g.phase = .build then (g.lat.n.toNat - (g.i + 1)) * g.lat.unitLen else 0) + g.lat.unitLen
  | .store => 4 * (g.lat.unitWords - g.scratch.k)
  | .finish => 0

/-- The bytes the port moves in the engine's next step. -/
def Engine.portTraffic (g : Engine) : Traffic :=
  match g.portOp with
  | none => ⟨0, 0⟩
  | some (.read _) => ⟨4, 0⟩
  | some (.write _ bs) => ⟨0, bs.length⟩

/-- A step from `g` to `h` moves what `g` had to move more than `h`. -/
structure Engine.Moves (g h : Engine) : Prop where
  reads : g.portTraffic.reads + h.readsLeft = g.readsLeft
  writes : g.portTraffic.writes + h.writesLeft = g.writesLeft

theorem sub_succ_mul {n i : Nat} (L : Nat) (hi : i < n) : (n - i) * L = (n - (i + 1)) * L + L := by
  rw [← Nat.succ_mul]
  congr 1
  omega

variable {rMax : Nat} {g : Engine}

/-- What is left to move when a `MemRead` has returned its last word. -/
theorem Engine.readDone_left (hv : g.lat.Valid rMax) (hf : g.phase.fits g.lat.op = true) :
    g.readDone.readsLeft =
        (if g.phase = .build then g.lat.n.toNat * g.lat.unitLen
          else if g.phase = .mix then (g.lat.n.toNat - (g.i + 1)) * g.lat.unitLen else 0) ∧
      g.readDone.writesLeft =
        (if g.phase = .build then g.lat.n.toNat * g.lat.unitLen else 0) + g.lat.unitLen := by
  cases hp : g.phase with
  | idle => simp [hp, Phase.fits] at hf
  | salsa =>
    rw [Engine.readDone_salsa hp]
    simp [Engine.readsLeft, Engine.writesLeft, salsa8Loaded, hp]
  | blockmix =>
    rw [Engine.readDone_blockmix hp]
    simp [Engine.readsLeft, Engine.writesLeft, blockmixLoaded, beginBlockMix, hp]
  | build =>
    have hop : g.lat.op = 0x3#4 := by simpa [hp, Phase.fits] using hf
    have hu := hv.unitLen_eq
    have hn := sub_succ_mul g.lat.unitLen (show 0 < g.lat.n.toNat from Nat.lt_of_succ_lt (hv.n hop).2.1)
    rw [Nat.sub_zero, Nat.zero_add] at hn
    rw [Engine.readDone_build hp]
    simp [Engine.readsLeft, Engine.writesLeft, romixLoaded]
    omega
  | mix =>
    rw [Engine.readDone_mix hp]
    simp [Engine.readsLeft, Engine.writesLeft, romixFetched, beginBlockMix, hp]

theorem Engine.afterRead_moves {a : Nat} (bs : Bytes) (h : g.Runs rMax) (hop : g.portOp = some (.read a)) :
    g.Moves (g.afterRead bs) := by
  have hs := h.seq
  have hport : g.portTraffic = ⟨4, 0⟩ := by rw [Engine.portTraffic, hop]
  obtain ⟨hreads, hwrites⟩ := Engine.readDone_left (g := g.received bs) h.valid h.fits
  unfold Engine.afterRead
  rcases Engine.portOp_read hop with ⟨hact, -⟩ | ⟨hact, -⟩ <;> simp only [Engine.SeqOk, hact] at hs
  · obtain ⟨hnomix, hk, -⟩ := hs
    split
    · constructor <;> simp [hport, Engine.readsLeft, Engine.writesLeft, Engine.received, hact]
      omega
    · constructor
      · rw [hreads]
        simp [hport, Engine.readsLeft, Engine.received, hact, hnomix]
        omega
      · rw [hwrites]
        simp [hport, Engine.writesLeft, Engine.received, hact]
  · obtain ⟨hmix, -, -, hk, -⟩ := hs
    split
    · constructor <;> simp [hport, Engine.readsLeft, Engine.writesLeft, Engine.received, hact]
      omega
    · constructor
      · rw [hreads]
        simp [hport, Engine.readsLeft, Engine.received, hact, hmix]
        omega
      · rw [hwrites]
        simp [hport, Engine.writesLeft, Engine.received, hact, hmix]

theorem Engine.afterWrite_moves {a : Nat} {bs : Bytes} (h : g.Runs rMax) (hop : g.portOp = some (.write a bs)) :
    g.Moves g.afterWrite := by
  have hs := h.seq
  have hport : g.portTraffic = ⟨0, 4⟩ := by simp [Engine.portTraffic, hop, (h.writeWord hop).2.1]
  unfold Engine.afterWrite
  rcases (Engine.portOp_write hop).2 with ⟨hact, -⟩ | ⟨hact, -⟩ <;> simp only [Engine.SeqOk, hact] at hs
  · obtain ⟨hbuild, -, hk, -⟩ := hs
    split
    · constructor <;> simp [hport, Engine.readsLeft, Engine.writesLeft, Engine.sent, hact]
      omega
    · rw [Engine.writeDone_snapshot (g := g.sent) hact]
      constructor <;>
        simp [hport, Engine.readsLeft, Engine.writesLeft, romixSnapped, beginBlockMix, Engine.sent, hact, hbuild]
      omega
  · obtain ⟨-, hk, -⟩ := hs
    split
    · constructor <;> simp [hport, Engine.readsLeft, Engine.writesLeft, Engine.sent, hact]
      omega
    · rw [Engine.writeDone_store (g := g.sent) hact]
      constructor <;> simp [hport, Engine.readsLeft, Engine.writesLeft, hact]
      omega

/-- A BlockMix moves nothing until it ends. -/
theorem mixBlock_moves {after : Engine → Engine} (hact : g.scratch.act = .mixing)
    (hafter : (after g.iterated.gathered).readsLeft = g.readsLeft ∧
      (after g.iterated.gathered).writesLeft = g.writesLeft) : g.Moves (mixBlock after g) := by
  have hport : g.portTraffic = ⟨0, 0⟩ := by simp [Engine.portTraffic, Engine.portOp, hact]
  unfold mixBlock
  split
  · constructor <;>
      simp [hport, Engine.readsLeft, Engine.writesLeft, Engine.iterated, Scratch.blockMixIteration,
        Scratch.salsaCall, hact]
  · constructor <;> simp [hport, hafter]

theorem Engine.compute_moves (h : g.Runs rMax) (hop : g.portOp = none) (hfin : g.scratch.act ≠ .finish) :
    g.Moves g.compute := by
  have hs := h.seq
  have hu := h.valid.unitLen_eq
  have hport : g.portTraffic = ⟨0, 0⟩ := by rw [Engine.portTraffic, hop]
  rcases Engine.portOp_none hop with hact | hact | hact
  · simp only [Engine.SeqOk, hact] at hs
    have hn := sub_succ_mul g.lat.unitLen hs.2.1
    rw [Engine.compute_index hact]
    constructor <;> simp [hport, Engine.readsLeft, Engine.writesLeft, romixIndex, hact]
    omega
  · simp only [Engine.SeqOk, hact] at hs
    rw [Engine.compute_mixing hact]
    cases hp : g.phase with
    | idle => exact absurd hp h.notIdle
    | salsa =>
      rw [Engine.mixing_salsa hp]
      constructor <;> simp [hport, Engine.readsLeft, Engine.writesLeft, salsa8Compute, hact, hp]
      omega
    | blockmix =>
      rw [Engine.mixing_blockmix hp]
      refine mixBlock_moves hact ⟨?_, ?_⟩ <;>
        simp [Engine.readsLeft, Engine.writesLeft, blockmixMixed, Engine.gathered, Engine.iterated, hact, hp]
      omega
    | build =>
      have hi : g.i < g.lat.n.toNat := (hs.2 (by simp [hp])).2.2.2.2 (by simp [hp])
      rw [Engine.mixing_build hp]
      refine mixBlock_moves hact ?_
      unfold romixBuilt
      split
      · next hlt =>
        have hn := sub_succ_mul g.lat.unitLen (show g.i + 1 < g.lat.n.toNat from hlt)
        constructor <;>
          simp [Engine.readsLeft, Engine.writesLeft, Engine.gathered, Engine.iterated, hact, hp]
        omega
      · next hlt =>
        have hlast : g.lat.n.toNat - (g.i + 1) = 0 := by
          have hlt : ¬ g.i + 1 < g.lat.n.toNat := hlt
          omega
        constructor <;>
          simp [Engine.readsLeft, Engine.writesLeft, Engine.gathered, Engine.iterated, hact, hp, hlast]
    | mix =>
      rw [Engine.mixing_mix hp]
      refine mixBlock_moves hact ?_
      unfold romixMixed
      split
      · constructor <;> simp [Engine.readsLeft, Engine.writesLeft, Engine.gathered, Engine.iterated, hact, hp]
      · next hlt =>
        have hlast : g.lat.n.toNat - (g.i + 1) = 0 := by
          have hlt : ¬ g.i + 1 < g.lat.n.toNat := hlt
          omega
        constructor <;>
          simp [Engine.readsLeft, Engine.writesLeft, Engine.gathered, Engine.iterated, hact, hp, hlast]
        omega
  · exact absurd hact hfin

end Sys2Proof.Machine
end

section
/-! PROOFS. The turns of a running engine (spec/40_command_lifecycle.md R116 to R119): a turn that memory answers
moves the command on and takes one of the turns it has left; the last turn is the completion. -/

namespace Sys2Proof.Machine

/-! ### The turns left are bounded by the turns of the whole command -/

section turns
variable {rMax : Nat} {g : Engine} {i : Nat}

theorem Engine.mixTurnsAfter_succ (hi : i < g.lat.n.toNat) :
    g.mixTurnsAfter i = 1 + g.lat.unitWords + 2 * g.lat.r.toNat + g.mixTurnsAfter (i + 1) := by
  have hn : g.lat.n.toNat - i = g.lat.n.toNat - (i + 1) + 1 := by omega
  rw [Engine.mixTurnsAfter, hn, Nat.succ_mul, Engine.mixTurnsAfter]
  omega

theorem Engine.buildTurnsAfter_succ (hi : i < g.lat.n.toNat) :
    g.buildTurnsAfter i = g.lat.unitWords + 2 * g.lat.r.toNat + g.buildTurnsAfter (i + 1) := by
  have hn : g.lat.n.toNat - i = g.lat.n.toNat - (i + 1) + 1 := by omega
  rw [Engine.buildTurnsAfter, hn, Nat.succ_mul, Engine.buildTurnsAfter]
  omega

theorem Engine.mixTurnsAfter_le (g : Engine) (i : Nat) : g.mixTurnsAfter i ≤ g.mixTurnsAfter 0 := by
  have := Nat.mul_le_mul_right (1 + g.lat.unitWords + 2 * g.lat.r.toNat) (Nat.sub_le g.lat.n.toNat i)
  simp only [Engine.mixTurnsAfter, Nat.sub_zero]
  omega

theorem Engine.buildTurnsAfter_le (g : Engine) (i : Nat) : g.buildTurnsAfter i ≤ g.buildTurnsAfter 0 := by
  have := Nat.mul_le_mul_right (g.lat.unitWords + 2 * g.lat.r.toNat) (Nat.sub_le g.lat.n.toNat i)
  simp only [Engine.buildTurnsAfter, Nat.sub_zero]
  omega

theorem Engine.mixTurnsAfter_zero_le (g : Engine) (i : Nat) : g.mixTurnsAfter 0 ≤ g.buildTurnsAfter i :=
  Nat.le_add_left _ _

theorem Engine.lt_mixTurnsAfter (g : Engine) (i : Nat) : g.lat.unitWords + 1 ≤ g.mixTurnsAfter i := by
  simp only [Engine.mixTurnsAfter]
  omega

theorem Engine.turns_romix (hop : g.lat.op = 0x3#4) : g.lat.turns = g.lat.unitWords + g.buildTurnsAfter 0 := by
  simp only [Latched.turns, hop, Engine.buildTurnsAfter, Engine.mixTurnsAfter]
  simp
  omega

/-- A running command has at most the turns of the whole command left (R119). -/
theorem Engine.Runs.turnsLeft_le (h : g.Runs rMax) : g.turnsLeft ≤ g.lat.turns := by
  have hseq := h.seq
  have hbuild0 := g.mixTurnsAfter_zero_le 0
  have hmix0 := g.lt_mixTurnsAfter 0
  rw [Engine.turnsLeft, if_pos h.running]
  cases hp : g.phase with
  | idle => exact absurd hp h.notIdle
  | salsa =>
    obtain ⟨hop, -, hw⟩ := h.salsa hp
    simp only [Latched.turns, hop]
    cases hact : g.scratch.act <;> simp [Engine.SeqOk, hact, hp] at hseq ⊢
    omega
  | blockmix =>
    have hop : g.lat.op = 0x2#4 := by simpa [hp, Phase.fits] using h.fits
    simp only [Latched.turns, hop]
    cases hact : g.scratch.act <;> simp [Engine.SeqOk, hact, hp] at hseq ⊢ <;> omega
  | build =>
    obtain ⟨hop, -⟩ := h.romix (.inl hp)
    rw [Engine.turns_romix hop]
    have hle := g.buildTurnsAfter_le g.i
    have hsucc (hi : g.i < g.lat.n.toNat) := Engine.buildTurnsAfter_succ hi
    cases hact : g.scratch.act <;> simp [Engine.SeqOk, hact, hp] at hseq ⊢ <;> omega
  | mix =>
    obtain ⟨hop, -⟩ := h.romix (.inr hp)
    rw [Engine.turns_romix hop]
    have hle := g.mixTurnsAfter_le g.i
    have hsucc (hi : g.i < g.lat.n.toNat) := Engine.mixTurnsAfter_succ hi
    cases hact : g.scratch.act <;> simp [Engine.SeqOk, hact, hp] at hseq ⊢ <;> omega

end turns

/-! ### One turn that memory answers -/

/-- From `g` with memory `m` a turn of the command brings its engine to `h` and memory to `m'`, short of completion. -/
structure Engine.Advances (rMax : Nat) (g : Engine) (m : Memory) (h : Engine) (m' : Memory) : Prop where
  regs : g.SameRegs h
  runs : h.Runs rMax
  turns : h.turnsLeft + 1 = g.turnsLeft
  moves : g.Moves h
  track : ∀ b, g.OnTrack m b → h.OnTrack m' b
  outside : m.KeepsOutside g.lat.writeRegions m'

theorem Engine.portOp_finish {g : Engine} (hfin : g.scratch.act = .finish) : g.portOp = none := by
  simp only [Engine.portOp, hfin]

theorem State.transfer_advances {s : State} (e : Nat) {rMax : Nat} {g : Engine} {op : PortOp} (hm : s.mem.wf = true)
    (h : g.Runs rMax) (hop : g.portOp = some op) :
    ∃ h m, s.transfer e g op = .next { s with engines := s.engines.set e h, mem := m } ∧
      g.Advances rMax s.mem h m := by
  have hin := h.portOp_inMemory hop
  cases op with
  | read a =>
    exact ⟨_, _, if_pos hin, g.afterRead_sameRegs _, Engine.afterRead_runs h hop (by simp),
      Engine.afterRead_turnsLeft _ h hop, Engine.afterRead_moves _ h hop,
      fun b ht => Engine.afterRead_onTrack h ht hop, .refl _ _⟩
  | write a bs =>
    obtain ⟨r, hr, hw⟩ := h.writeWord_region hop
    exact ⟨_, _, if_pos hin, g.afterWrite_sameRegs, Engine.afterWrite_runs h hop, Engine.afterWrite_turnsLeft h hop,
      Engine.afterWrite_moves h hop, fun b ht => Engine.afterWrite_onTrack h hm ht hop,
      s.mem.writeBytes_keepsOutside hr (h.writeWord hop).2.1 hw⟩

theorem Engine.compute_advances {rMax : Nat} {g : Engine} (h : g.Runs rMax) (hop : g.portOp = none)
    (hfin : g.scratch.act ≠ .finish) (m : Memory) : g.Advances rMax m g.compute m :=
  ⟨g.compute_sameRegs, Engine.compute_runs h hop hfin, Engine.compute_turnsLeft h hop hfin,
    Engine.compute_moves h hop hfin, fun _ ht => Engine.compute_onTrack h ht hop hfin, .refl _ _⟩

section turn
variable {s : State} {e : Nat} {g : Engine} (hinv : s.Inv) (hg : s.engines[e]? = some g) (hr : g.running = true)
include hinv hg hr

theorem State.engineStep_advances (hfin : g.scratch.act ≠ .finish) :
    ∃ h m, s.engineStep e .ok = .next { s with engines := s.engines.set e h, mem := m } ∧
      g.Advances s.params.rMax s.mem h m := by
  have hruns := (hinv.engineOk hg).runs hr
  cases hop : g.portOp with
  | some op =>
    rw [State.engineStep_transfer .ok hg hr hop]
    exact State.transfer_advances e hinv.mem hruns hop
  | none => exact ⟨_, _, State.engineStep_compute .ok hg hr hop hfin, Engine.compute_advances hruns hop hfin _⟩

end turn

theorem Engine.turnsLeft_of_idle {g : Engine} (h : g.running = false) : g.turnsLeft = 0 := by
  simp [Engine.turnsLeft, h]

@[simp] theorem Engine.completed_running (g : Engine) (f : Nat) : (g.completed f).running = false := rfl

/-- Settles O29: a turn short of completion takes one of at least two turns left, the completion the last. -/
theorem everyTurnBringsTheCommandNearer : Obligations.EveryTurnBringsTheCommandNearer := by
  intro s e g hinv hg hr
  have hruns := (hinv.engineOk hg).runs hr
  refine ⟨hruns.turnsLeft_le, ?_⟩
  by_cases hfin : g.scratch.act = .finish
  · have hone : g.turnsLeft = 1 := hruns.turnsLeft_pos.2.2 hfin
    refine ⟨_, g.completed (s.spoil g.lat g.tainted).freeCount,
      State.engineStep_finish .ok hg hr (Engine.portOp_finish hfin) hfin, ?_, ?_, ?_⟩
    · rw [s.complete_engines e g]
      exact State.setEngine_getElem?_self hg _
    · rw [Engine.turnsLeft_of_idle (g.completed_running _), hone]
    · exact iff_of_true (Engine.turnsLeft_of_idle (g.completed_running _)) (g.completed_running _)
  · obtain ⟨h, m, hstep, hadv⟩ := State.engineStep_advances hinv hg hr hfin
    have hpos : 1 ≤ h.turnsLeft := hadv.runs.turnsLeft_pos.1
    refine ⟨_, h, hstep, State.setEngine_getElem?_self hg h, hadv.turns, ?_⟩
    simp [hadv.runs.running]
    omega

/-! ### Completion -/

theorem State.complete_keepsHost (s : State) (e : Nat) (g : Engine) : s.KeepsHost (s.complete e g) := by
  constructor <;> simp [State.complete]

@[simp] theorem State.complete_mem (s : State) (e : Nat) (g : Engine) :
    (s.complete e g).mem = (s.spoil g.lat g.tainted).mem := rfl

@[simp] theorem State.complete_schedule (s : State) (e : Nat) (g : Engine) :
    (s.complete e g).schedule = s.schedule := by
  simp [State.complete]

/-- `STATUS` of a command that completes, which was clean while busy (R48, R118). -/
theorem Engine.Ok.completed_status {rMax : Nat} {g : Engine} (h : g.Ok rMax) (hr : g.running = true) :
    g.status.completed = { busy := false, done := true, err := false, ovr := g.status.ovr, errCode := 0#4 } := by
  obtain ⟨-, herr, hcode⟩ := h.clean (h.busy.trans hr)
  rw [Status.completed, herr, hcode]

/-- Settles O28: the step is `State.complete`, which spoils `DST` and `V` of a tainted command only. -/
theorem completionIsOneStep : Obligations.CompletionIsOneStep := by
  intro s e g ans hinv hg hr hfin
  have hok := hinv.engineOk hg
  refine ⟨_, _, State.engineStep_finish ans hg hr (Engine.portOp_finish hfin) hfin, s.complete_engines e g, rfl,
    hok.completed_status hr, ⟨rfl, rfl, rfl, rfl, rfl, rfl⟩, s.complete_keepsHost e g, ?clean, ?free,
    s.complete_keepsOutside e g⟩
  case clean => exact fun ht => by simp [ht]
  case free =>
    intro ht r hmem a ha
    rw [State.complete_mem, ht]
    exact State.read_unspecify_in hinv.mem (hok.valid hr).writeRegions_inSpace hmem ha

end Sys2Proof.Machine
end

section
/-! PROOFS. A running command whose regions no other agent writes stays on track (spec/20_memory.md R71, R84, R86):
what a step of another agent leaves of the engine and of its regions, and the engine's own turn. -/

namespace Sys2Proof.Machine

/-! ### What being on track looks at -/

theorem Engine.OnTrack.of_eq {g h : Engine} {m : Memory} {b : Bytes} (ht : g.OnTrack m b) (hlat : h.lat = g.lat)
    (hphase : h.phase = g.phase) (hi : h.i = g.i) (hscratch : h.scratch = g.scratch) : h.OnTrack m b := by
  unfold Engine.OnTrack at ht ⊢
  rw [hlat, hphase, hi, hscratch]
  exact ht

theorem Engine.running_of_phase {g h : Engine} (hphase : h.phase = g.phase) : h.running = g.running := by
  rw [Engine.running, hphase, Engine.running]

/-- Another agent leaves the command the engine runs as far as it was, unless it taints it. -/
structure Engine.SameCommand (g h : Engine) : Prop where
  lat : h.lat = g.lat
  phase : h.phase = g.phase
  i : h.i = g.i
  scratch : h.scratch = g.scratch

theorem Engine.SameCommand.refl (g : Engine) : g.SameCommand g := ⟨rfl, rfl, rfl, rfl⟩

theorem Engine.SameCommand.onTrack {g h : Engine} (hs : g.SameCommand h) {m : Memory} {b : Bytes}
    (ht : g.OnTrack m b) : h.OnTrack m b := ht.of_eq hs.lat hs.phase hs.i hs.scratch

theorem Engine.writeReg_sameCommand (g : Engine) (w : Word) (r : Reg) : g.SameCommand (g.writeReg w r) := by
  cases r <;> exact ⟨rfl, rfl, rfl, rfl⟩

/-- A register write to a busy engine leaves its command alone (R110, R121). -/
theorem Engine.RegWrite.sameCommand {rMax : Nat} {w : Word} {g h : Engine} {r : Reg} (hw : g.RegWrite rMax w r h)
    (hb : g.status.busy = true) : g.SameCommand h := by
  cases hw with
  | ignored _ _ => exact .refl g
  | register _ _ => exact g.writeReg_sameCommand w _
  | overrun _ _ => exact ⟨rfl, rfl, rfl, rfl⟩
  | rejected _ hidle _ => simp [hb] at hidle
  | accepted _ hidle _ => simp [hb] at hidle

/-- A step that is neither the engine's turn nor its reset leaves its running command alone. -/
theorem Engine.Change.sameCommand {p : Params} {prog : List HostStmt} {turn : Turn} {e : Nat} {g h : Engine}
    (hc : g.Change p prog turn e h) (hb : g.status.busy = true) (hown : ∀ ans, turn ≠ .engine e ans)
    (hreset : turn ≠ .assertReset e) : g.SameCommand h := by
  cases hc with
  | same => exact .refl g
  | taint => exact ⟨rfl, rfl, rfl, rfl⟩
  | regWrite _ _ _ hw => exact hw.sameCommand hb
  | engineTurn hturn _ => exact absurd hturn (hown _)
  | assertReset _ hturn => exact absurd hturn hreset
  | releaseReset _ => exact ⟨rfl, rfl, rfl, rfl⟩

/-! ### The regions of a command that another agent leaves untainted -/

/-- Every byte of the command's regions is as it was. -/
def Latched.RegionsKept (l : Latched) (m m' : Memory) : Prop :=
  ∀ a, (∃ r ∈ l.regions, r.holds a = true) → m'.read a = m.read a

theorem Latched.RegionsKept.of_eq (l : Latched) {m m' : Memory} (h : m' = m) : l.RegionsKept m m' :=
  fun _ _ => h ▸ rfl

/-- A store that taints no running command met none of its regions (R86). -/
theorem State.hostWrite_regionsKept {s : State} {e : Nat} {g h : Engine} {a : Nat} {bs : Bytes}
    (hg : s.engines[e]? = some g) (hr : g.running = true) (hh : (s.hostWrite a bs).engines[e]? = some h)
    (ht : h.tainted = false) : g.lat.RegionsKept s.mem (s.hostWrite a bs).mem := by
  rw [State.hostWrite_engines] at hh
  obtain ⟨x, hx, -, -, -, hmeet, -⟩ := taintIf_get hh
  obtain rfl : x = g := Option.some.inj (hx.symm.trans hg)
  rintro y ⟨r, hmem, hy⟩
  have hout : ¬ (a ≤ y ∧ y < a + bs.length) := fun hin => by
    refine Bool.false_ne_true (ht.symm.trans (hmeet hr ((regionsMeet_iff _ _).2 ?_)))
    exact ⟨_, List.mem_singleton_self _, r, hmem, (Region.meets_iff _ _).2 ⟨y, (Region.holds_iff _ _).2 hin, hy⟩⟩
  exact Memory.read_writeBytes_out (by omega)

/-- Of two running commands, one untainted, neither writes a byte the other uses (R84). -/
theorem State.Inv.regionsKept {s : State} (hinv : s.Inv) {e k : Nat} {g x : Engine} (hek : e ≠ k)
    (hg : s.engines[e]? = some g) (hx : s.engines[k]? = some x) (hr : g.running = true) (hxr : x.running = true)
    (ht : g.tainted = false) {m : Memory} (hm : s.mem.KeepsOutside x.lat.writeRegions m) :
    g.lat.RegionsKept s.mem m := by
  have hno : g.lat.conflicts x.lat ≠ true := fun hc =>
    Bool.false_ne_true (ht.symm.trans (hinv.hazards e k g x hek hg hx hr hxr hc))
  rintro a ⟨r, hmem, ha⟩
  refine hm a fun y hy => ?_
  by_contra hya
  refine hno (Bool.or_eq_true_iff.2 (.inr ((regionsMeet_iff _ _).2 ⟨r, hmem, y, hy, ?_⟩)))
  exact (Region.meets_iff _ _).2 ⟨a, ha, by simpa using hya⟩

section others
variable {s t : State} {e : Nat} {g h : Engine} (hinv : s.Inv) (hg : s.engines[e]? = some g) (hr : g.running = true)
include hinv hg hr

theorem State.hostStep_regionsKept (hstep : s.hostStep = .next t) (hh : t.engines[e]? = some h)
    (ht : h.tainted = false) : g.lat.RegionsKept s.mem t.mem := by
  cases hprog : s.program with
  | nil =>
    rw [State.hostStep, hprog] at hstep
    exact .of_eq _ (Host.Outcome.next.inj hstep ▸ rfl)
  | cons st rest =>
    rw [State.hostStep_cons hprog] at hstep
    by_cases hst : ∃ ref w, st = .wr ref w
    · obtain ⟨ref, w, rfl⟩ := hst
      obtain ⟨k, off, -, hstep⟩ := State.access_next hstep
      exact .of_eq _ (State.regWrite_mem (s := { s with program := rest }) (hinv.congr rfl rfl rfl) hstep)
    · cases State.runStmt_effect (fun ref w hw => hst ⟨ref, w, hw⟩) hstep with
      | quiet _ hm _ => exact .of_eq _ hm
      | store a bs _ _ hm he =>
        rw [hm]
        exact State.hostWrite_regionsKept (s := { s with program := rest }) hg hr (he ▸ hh) ht

variable (htaint : g.tainted = false)
include htaint

theorem State.engineStep_regionsKept {k : Nat} {ans : Answer} (hek : e ≠ k) (hstep : s.engineStep k ans = .next t) :
    g.lat.RegionsKept s.mem t.mem := by
  obtain ⟨x, -, hx, -, -⟩ := State.engineStep_engines hstep
  cases hxr : x.running with
  | false =>
    rw [State.engineStep_idle ans hx hxr] at hstep
    exact .of_eq _ (Host.Outcome.next.inj hstep ▸ rfl)
  | true =>
    obtain ⟨u, hu, hm⟩ := State.engineStep_keepsOutside ans hx hxr ((hinv.engineOk hx).runs hxr)
    obtain rfl := Host.Outcome.next.inj (hu.symm.trans hstep)
    exact hinv.regionsKept hek hg hx hr hxr htaint hm

/-- A step that is neither the engine's turn nor its reset and leaves it untainted keeps its regions. -/
theorem State.takeTurn_regionsKept {turn : Turn} (hown : ∀ ans, turn ≠ .engine e ans) (hreset : turn ≠ .assertReset e)
    (hstep : s.takeTurn turn = .next t) (hh : t.engines[e]? = some h) (ht : h.tainted = false) :
    g.lat.RegionsKept s.mem t.mem := by
  cases turn with
  | host => exact State.hostStep_regionsKept hinv hg hr hstep hh ht
  | engine k ans =>
    have hek : e ≠ k := fun hek => hown ans (hek ▸ rfl)
    exact State.engineStep_regionsKept hinv hg hr htaint hek hstep
  | assertReset k =>
    have hek : e ≠ k := fun hek => hreset (hek ▸ rfl)
    obtain ⟨x, hx, hstep⟩ := State.onEngine_next.1 hstep
    obtain rfl := Host.Outcome.next.inj hstep
    cases hxr : x.running with
    | false => exact .of_eq _ (s.assertReset_mem_of_idle k hxr)
    | true => exact hinv.regionsKept hek hg hx hr hxr htaint (s.assertReset_keepsOutside k x)
  | releaseReset k =>
    obtain ⟨x, -, hstep⟩ := State.onEngine_next.1 hstep
    exact .of_eq _ (Host.Outcome.next.inj hstep ▸ rfl)

/-! ### The engine's own turn -/

/-- Where a turn may bring a running command on track for `b`, its engine `h` and memory `m` after it. -/
inductive Engine.Outcome (g : Engine) (b : Bytes) (h : Engine) (m : Memory) : Prop
  | runs : h.running = true → h.lat = g.lat → (h.tainted = false → h.OnTrack m b) → Outcome g b h m
  | completed : h.running = false → h.inReset = false → h.status.done = true → h.status.err = false →
      m.readBytes g.lat.dst.toNat g.lat.unitLen = g.lat.result b →
      (g.lat.op = 0x3#4 → g.lat.slotsHold m b g.lat.n.toNat) → Outcome g b h m
  | aborted : h.running = false → h.inReset = false → h.status.err = true → h.status.errCode = 7#4 → Outcome g b h m
  | reset : h.running = false → h.inReset = true → Outcome g b h m

theorem State.engineStep_ok_outcome {b : Bytes} (htrack : g.OnTrack s.mem b) :
    ∃ t h, s.engineStep e .ok = .next t ∧ t.engines[e]? = some h ∧ g.Outcome b h t.mem := by
  have hok := hinv.engineOk hg
  by_cases hfin : g.scratch.act = .finish
  · refine ⟨_, g.completed (s.spoil g.lat g.tainted).freeCount,
      State.engineStep_finish .ok hg hr (Engine.portOp_finish hfin) hfin, ?_, ?_⟩
    · rw [s.complete_engines e g]
      exact State.setEngine_getElem?_self hg _
    · obtain ⟨-, herr, -⟩ := hok.clean (hok.busy.trans hr)
      simp only [Engine.OnTrack, hfin] at htrack
      rw [State.complete_mem, htaint]
      exact .completed rfl (hok.notHeld hr) rfl herr htrack.1 htrack.2
  · obtain ⟨h, m, hstep, hadv⟩ := State.engineStep_advances hinv hg hr hfin
    exact ⟨_, h, hstep, State.setEngine_getElem?_self hg h, .runs hadv.runs.running hadv.regs.lat
      fun _ => hadv.track b htrack⟩

/-- The memory's answer to a transfer decides whether the command goes on, is tainted or is aborted (R83, R87). -/
theorem State.engineStep_outcome {b : Bytes} (htrack : g.OnTrack s.mem b) {ans : Answer}
    (hstep : s.engineStep e ans = .next t) (hh : t.engines[e]? = some h) : g.Outcome b h t.mem := by
  have hruns := (hinv.engineOk hg).runs hr
  cases hop : g.portOp with
  | none =>
    have hsame : s.engineStep e ans = s.engineStep e .ok := by
      by_cases hfin : g.scratch.act = .finish
      · rw [State.engineStep_finish ans hg hr hop hfin, State.engineStep_finish .ok hg hr hop hfin]
      · rw [State.engineStep_compute ans hg hr hop hfin, State.engineStep_compute .ok hg hr hop hfin]
    obtain ⟨u, k, hu, hk, hout⟩ := State.engineStep_ok_outcome hinv hg hr htaint htrack
    obtain rfl := Host.Outcome.next.inj (hu.symm.trans (hsame.symm.trans hstep))
    exact Option.some.inj (hk.symm.trans hh) ▸ hout
  | some op =>
    cases ans with
    | ok =>
      obtain ⟨u, k, hu, hk, hout⟩ := State.engineStep_ok_outcome hinv hg hr htaint htrack
      obtain rfl := Host.Outcome.next.inj (hu.symm.trans hstep)
      exact Option.some.inj (hk.symm.trans hh) ▸ hout
    | silent =>
      rw [State.engineStep_transfer .silent hg hr hop] at hstep
      obtain rfl := Host.Outcome.next.inj hstep
      obtain rfl := Option.some.inj (hg.symm.trans hh)
      exact .runs hr rfl fun _ => htrack
    | strange =>
      rw [State.engineStep_transfer .strange hg hr hop] at hstep
      obtain ⟨k, m, hu, hadv⟩ := State.transfer_advances e hinv.mem hruns.taint hop
      obtain rfl := Host.Outcome.next.inj (hu.symm.trans hstep)
      obtain rfl := Option.some.inj ((State.setEngine_getElem?_self hg k).symm.trans hh)
      exact .runs hadv.runs.running hadv.regs.lat fun ht => absurd (hadv.regs.tainted.symm.trans ht) (by simp)
    | error =>
      rw [State.engineStep_error hg hr (by simp [hop])] at hstep
      obtain rfl := Host.Outcome.next.inj hstep
      rw [s.raiseError_running_engines e .bus hr] at hh
      obtain rfl := Option.some.inj ((State.setEngine_getElem?_self hg _).symm.trans hh)
      exact .aborted rfl ((hinv.engineOk hg).notHeld hr) rfl rfl

/-! ### A step of any agent -/

theorem State.takeTurn_outcome {b : Bytes} (htrack : g.OnTrack s.mem b) {turn : Turn}
    (hstep : s.takeTurn turn = .next t) (hh : t.engines[e]? = some h) : g.Outcome b h t.mem := by
  by_cases hown : ∃ ans, turn = .engine e ans
  · obtain ⟨ans, rfl⟩ := hown
    exact State.engineStep_outcome hinv hg hr htaint htrack hstep hh
  by_cases hreset : turn = .assertReset e
  · subst hreset
    obtain ⟨x, hx, hstep⟩ := State.onEngine_next.1 hstep
    obtain rfl := Host.Outcome.next.inj hstep
    rw [s.assertReset_engines e x] at hh
    obtain rfl := Option.some.inj ((State.setEngine_getElem?_self hx _).symm.trans hh)
    exact .reset rfl rfl
  have hown : ∀ ans, turn ≠ .engine e ans := fun ans h => hown ⟨ans, h⟩
  have hok := hinv.engineOk hg
  have hsame := (State.takeTurn_change hinv hstep hg hh).sameCommand (hok.busy.trans hr) hown hreset
  refine .runs ((Engine.running_of_phase hsame.phase).trans hr) hsame.lat fun ht => hsame.onTrack ?_
  exact htrack.congr (hok.runs hr) (State.takeTurn_regionsKept hinv hg hr htaint hown hreset hstep hh ht)

end others

@[simp] theorem taintIf_length (p : Latched → Bool) (gs : List Engine) : (taintIf p gs).length = gs.length := by
  simp [taintIf]

theorem State.hostStep_length {s t : State} (hinv : s.Inv) (hstep : s.hostStep = .next t) :
    t.engines.length = s.engines.length := by
  cases hprog : s.program with
  | nil =>
    rw [State.hostStep, hprog] at hstep
    exact Host.Outcome.next.inj hstep ▸ rfl
  | cons st rest =>
    rw [State.hostStep_cons hprog] at hstep
    by_cases hst : ∃ ref w, st = .wr ref w
    · obtain ⟨ref, w, rfl⟩ := hst
      obtain ⟨k, off, -, hstep⟩ := State.access_next hstep
      obtain ⟨x, y, p, -, -, heng⟩ :=
        State.regWrite_engines (s := { s with program := rest }) (hinv.congr rfl rfl rfl) hstep
      simp [heng]
    · obtain ⟨p, heng⟩ := State.runStmt_engines (fun ref w hw => hst ⟨ref, w, hw⟩) hstep
      simp [heng]

theorem State.takeTurn_length {s t : State} (hinv : s.Inv) {turn : Turn} (hstep : s.takeTurn turn = .next t) :
    t.engines.length = s.engines.length := by
  cases turn with
  | host => exact State.hostStep_length hinv hstep
  | engine k ans =>
    obtain ⟨x, y, -, -, heng⟩ := State.engineStep_engines hstep
    simp [heng]
  | assertReset k =>
    obtain ⟨x, -, hstep⟩ := State.onEngine_next.1 hstep
    obtain rfl := Host.Outcome.next.inj hstep
    simp [s.assertReset_engines k x]
  | releaseReset k =>
    obtain ⟨x, -, hstep⟩ := State.onEngine_next.1 hstep
    obtain rfl := Host.Outcome.next.inj hstep
    simp [State.releaseReset]

/-- No step adds or removes an engine (R272). -/
theorem step_length {s t : State} (hinv : s.Inv) (hstep : step s = .next t) :
    t.engines.length = s.engines.length := by
  simpa using State.takeTurn_length hinv.nextTurn hstep

/-- Settles O27: the engine's own turn brings its command on; a step of another agent leaves the command and, unless it
taints it, its regions alone. -/
theorem runningCommandStaysOnTrack : Obligations.RunningCommandStaysOnTrack := by
  intro s t e g b hinv hg hr htaint htrack hstep
  have hlt : e < t.engines.length := step_length hinv hstep ▸ (List.getElem?_eq_some_iff.1 hg).1
  have hh : t.engines[e]? = some t.engines[e] := List.getElem?_eq_getElem hlt
  refine ⟨t.engines[e], hh, ?_⟩
  cases State.takeTurn_outcome hinv.nextTurn (by rwa [s.nextTurn_engines]) hr htaint (by rwa [s.nextTurn_mem]) hstep hh
    with
  | runs hr hlat ht => exact .inl ⟨hr, hlat, ht⟩
  | completed hr hi hdone herr hdst hslots => exact .inr (.inl ⟨hr, hi, hdone, herr, hdst, hslots⟩)
  | aborted hr hi herr hcode => exact .inr (.inr (.inl ⟨hr, hi, herr, hcode⟩))
  | reset hr hi => exact .inr (.inr (.inr ⟨hr, hi⟩))

end Sys2Proof.Machine
end

section
/-! PROOFS. A valid submission (spec/40_command_lifecycle.md R84, R111, R113): the state it leaves, and the command at
the start of its loop. -/

namespace Sys2Proof.Machine

section valid
variable {s : State} {g : Engine} {w : Word}

/-- A valid submission on an idle engine is accepted, whatever else runs. -/
theorem State.submit_of_valid (hg : s.engines[s.target]? = some g) (hready : g.ready = true)
    (hv : validate s.params.rMax w (g.latch w) = none) :
    s.submit w = .next (s.accepted s.target (g.submitted w) (g.latch w)) := by
  obtain ⟨-, hbusy, hreset⟩ := g.ready_iff.1 hready
  rw [State.submit, State.onEngine_some hg]
  simp [hreset, hbusy, hv]

theorem State.accepted_engines (s : State) (e : Nat) (g : Engine) (l : Latched) :
    (s.accepted e g l).engines = (taintIf l.conflicts s.engines).set e
      (g.accept (s.engines.any fun o => o.running && l.conflicts o.lat)) := rfl

theorem State.accepted_getElem?_self {s : State} {e : Nat} {x : Engine} (hx : s.engines[e]? = some x) (g : Engine)
    (l : Latched) :
    (s.accepted e g l).engines[e]? = some (g.accept (s.engines.any fun o => o.running && l.conflicts o.lat)) :=
  List.getElem?_set_self (by simpa using (List.getElem?_eq_some_iff.1 hx).1)

theorem State.accepted_keepsHost (s : State) (e : Nat) (g : Engine) (l : Latched) :
    s.KeepsHost (s.accepted e g l) := ⟨rfl, rfl, rfl, rfl⟩

theorem Engine.accepted_status (g : Engine) (w : Word) (c : Bool) : ((g.submitted w).accept c).status =
    { busy := true, done := false, err := false, ovr := g.status.ovr, errCode := 0#4 } := rfl

theorem Engine.latch_encode (g : Engine) (i : Instr) : g.latch (encode i) =
    { op := i.op, src := g.srcAddr, dst := g.dstAddr, v := g.vAddr, r := g.rParam, n := g.nParam } := by
  rw [Engine.latch, encode, opField_cmdw]

/-- Where commands were tainted, what became of an engine. -/
theorem taintIf_getElem?_of {p : Latched → Bool} {gs : List Engine} {f : Nat} {o : Engine} (ho : gs[f]? = some o) :
    (taintIf p gs)[f]? = some (if o.running = true ∧ p o.lat = true then { o with tainted := true } else o) := by
  simp [taintIf_getElem?, ho, Engine.taint]

end valid

/-- Settles O22: the submission is `State.accepted`. -/
theorem validSubmissionIsAccepted : Obligations.ValidSubmissionIsAccepted := by
  intro i s g _ hg hready hv
  refine ⟨_, _, (exec_submit i s).trans (State.submit_of_valid hg hready hv), State.accepted_getElem?_self hg _ _,
    g.accepted_status _ _, g.latch_encode i, ?phase, rfl, ⟨rfl, rfl, rfl, rfl, rfl, rfl⟩, rfl,
    s.accepted_keepsHost _ _ _, rfl, ?tainted, ?others⟩
  case phase => cases i <;> rfl
  case tainted => simp [List.any_eq_true]
  case others =>
    intro f o hf ho
    rw [State.accepted_engines, List.getElem?_set_ne hf.symm]
    exact taintIf_getElem?_of ho

/-! ### Without a conflict -/

theorem State.noConflict_iff {s : State} {l : Latched} :
    s.noConflict l = true ↔ s.engines.any (fun o => o.running && l.conflicts o.lat) = false := by
  rw [State.noConflict, Bool.not_eq_true']

/-- Without a conflict an accepted command changes its own engine only. -/
theorem State.accepted_of_noConflict {s : State} {l : Latched} (h : s.noConflict l = true) (e : Nat) (g : Engine) :
    s.accepted e g l = s.setEngine e (g.accept false) := by
  have hnone := State.noConflict_iff.1 h
  have htaint : taintIf l.conflicts s.engines = s.engines := by
    refine (List.map_congr_left fun o ho => ?_).trans (List.map_id _)
    exact if_neg (List.any_eq_false.1 hnone o ho)
  rw [State.accepted, hnone, htaint]

/-! ### The command at the start of its loop -/

section start
variable {rMax : Nat} {g : Engine} {w : Word} {c : Bool}

theorem Engine.accept_running (hok : g.Ok rMax) (hi : g.inReset = false)
    (hv : validate rMax w (g.latch w) = none) : ((g.submitted w).accept c).running = true :=
  (Engine.accept_ok hok hi hv c).busy.symm

/-- A command just accepted is on track for what `SRC` holds. -/
theorem Engine.accept_onTrack (g : Engine) (w : Word) (c : Bool) (m : Memory) :
    ((g.submitted w).accept c).OnTrack m (m.readBytes (g.latch w).src.toNat (g.latch w).unitLen) :=
  ⟨rfl, rfl⟩

/-- A command just accepted has all its turns left (R119). -/
theorem Engine.accept_turnsLeft (hok : g.Ok rMax) (hi : g.inReset = false)
    (hv : validate rMax w (g.latch w) = none) : ((g.submitted w).accept c).turnsLeft = (g.latch w).turns := by
  have hrun : ((g.submitted w).accept c).running = true := Engine.accept_running hok hi hv
  rcases (validate_none rfl hv).1.op with hop | hop | hop
  · simp [Engine.turnsLeft, hrun, Latched.turns, startPhase, hop]
  · simp [Engine.turnsLeft, hrun, Latched.turns, startPhase, hop]
  · have hturns := Engine.turns_romix (g := (g.submitted w).accept c) hop
    simp only [Engine.accept_lat, Engine.submitted_lat] at hturns
    rw [hturns]
    simp [Engine.turnsLeft, hrun, startPhase, hop]

end start

end Sys2Proof.Machine
end

section
/-! PROOFS. Whole commands (spec/41_salsa208.md R149, spec/42_blockmix.md R173, spec/43_romix.md R195): an engine that
has the turns brings its command to completion, with the result of its rule. -/

namespace Sys2Proof.Machine

/-! ### Whose turns come next -/

/-- The next `n` turns are engine `e`'s while its command runs, memory answering each: the schedule says so, or it is
empty and no other engine runs (log entry 3). -/
def State.GivesTurns (s : State) (e n : Nat) : Prop :=
  s.schedule.take n = List.replicate n (.engine e .ok) ∨
    s.schedule = [] ∧ ∀ f o, f ≠ e → s.engines[f]? = some o → o.running = false

theorem State.withTurns_givesTurns (s : State) (e n : Nat) : (s.withTurns e n).GivesTurns e n :=
  .inl (by simp [State.withTurns])

theorem State.defaultTurn_of_only {s : State} {e : Nat} {g : Engine} (hg : s.engines[e]? = some g)
    (hr : g.running = true) (honly : ∀ f o, f ≠ e → s.engines[f]? = some o → o.running = false) :
    s.defaultTurn = .engine e .ok := by
  obtain ⟨hlt, rfl⟩ := List.getElem?_eq_some_iff.1 hg
  have hfind : s.engines.findIdx? (fun g => g.running) = some e :=
    List.findIdx?_eq_some_iff_getElem.2 ⟨hlt, hr, fun j hj =>
      by simp [honly j _ (by omega) (List.getElem?_eq_getElem (hj.trans hlt))]⟩
  rw [State.defaultTurn, hfind]

theorem State.GivesTurns.nextTurn {s : State} {e n : Nat} {g : Engine} (h : s.GivesTurns e (n + 1))
    (hg : s.engines[e]? = some g) (hr : g.running = true) :
    s.nextTurn = (.engine e .ok, { s with schedule := s.schedule.tail }) := by
  rcases h with h | ⟨hnil, honly⟩
  · cases hs : s.schedule with
    | nil => simp [hs, List.replicate_succ] at h
    | cons t ts =>
      rw [hs, List.take_succ_cons, List.replicate_succ, List.cons.injEq] at h
      simp [State.nextTurn, hs, h.1]
  · have hs : { s with schedule := [] } = s := by rw [← hnil]
    simp [State.nextTurn, hnil, State.defaultTurn_of_only hg hr honly, hs]

/-- The turns after one of them was taken, which changed engine `e` only. -/
theorem State.GivesTurns.tail {s t : State} {e n : Nat} {h : Engine} (hturns : s.GivesTurns e (n + 1))
    (hsched : t.schedule = s.schedule.tail) (heng : t.engines = s.engines.set e h) : t.GivesTurns e n := by
  rcases hturns with hturns | ⟨hnil, honly⟩
  · left
    rw [hsched]
    cases hs : s.schedule with
    | nil => simp [hs, List.replicate_succ] at hturns
    | cons x xs =>
      rw [hs, List.take_succ_cons, List.replicate_succ, List.cons.injEq] at hturns
      exact hturns.2
  · right
    refine ⟨by rw [hsched, hnil]; rfl, fun f o hf ho => honly f o hf ?_⟩
    rwa [heng, List.getElem?_set_ne hf.symm] at ho

/-! ### The turns of a whole command -/

/-- Engine `e`, which held the running command of `g` on track for `b`, has completed it, `n` turns later. -/
structure State.Completes (s : State) (e : Nat) (g : Engine) (b : Bytes) (n : Nat) (u : State) (h : Engine) : Prop where
  engines : u.engines = s.engines.set e h
  phase : h.phase = .idle
  regs : g.KeepsRegs h
  inReset : h.inReset = g.inReset
  status : h.status = g.status.completed
  dst : u.mem.readBytes g.lat.dst.toNat g.lat.unitLen = g.lat.result b
  slots : g.lat.op = 0x3#4 → g.lat.slotsHold u.mem b g.lat.n.toNat
  outside : s.mem.KeepsOutside g.lat.writeRegions u.mem
  host : s.KeepsHost u
  schedule : u.schedule = s.schedule.drop n

/-- A command whose next turn is the completion. -/
theorem State.complete_completes {s : State} {e : Nat} {g : Engine} {b : Bytes} (hfin : g.scratch.act = .finish)
    (htaint : g.tainted = false) (htrack : g.OnTrack s.mem b) :
    s.Completes e g b 0 (s.complete e g) (g.completed (s.spoil g.lat g.tainted).freeCount) := by
  simp only [Engine.OnTrack, hfin] at htrack
  have hmem : (s.complete e g).mem = s.mem := by rw [State.complete_mem, htaint, State.spoil_false]
  exact ⟨s.complete_engines e g, rfl, ⟨rfl, rfl, rfl, rfl, rfl, rfl⟩, rfl, rfl, by rw [hmem]; exact htrack.1,
    by rw [hmem]; exact htrack.2, s.complete_keepsOutside e g, s.complete_keepsHost e g, by simp⟩

/-- A completion seen from one turn earlier. -/
theorem State.Completes.earlier {s t u : State} {e n rMax : Nat} {g h k : Engine} {b : Bytes} {m : Memory}
    (hadv : g.Advances rMax s.mem h m)
    (ht : t = { s with schedule := s.schedule.tail, engines := s.engines.set e h, mem := m })
    (hc : t.Completes e h b n u k) : s.Completes e g b (n + 1) u k := by
  subst ht
  obtain ⟨hengines, hphase, ⟨k1, k2, k3, k4, k5, k6⟩, hreset, hstatus, hdst, hslots, houtside, ⟨p1, p2, p3, p4⟩,
    hsched⟩ := hc
  obtain ⟨⟨r1, r2, r3, r4, r5, r6, r7, hlat, -, r10⟩, -, -, -, -, hout⟩ := hadv
  refine ⟨by rw [hengines, List.set_set], hphase, ⟨k1.trans r2, k2.trans r3, k3.trans r4, k4.trans r5, k5.trans r6,
    k6.trans r7⟩, hreset.trans r10, by rw [hstatus, r1], hlat ▸ hdst, hlat ▸ hslots, fun a ha => ?_,
    ⟨p1, p2, p3, p4⟩, by rw [hsched, List.drop_tail]⟩
  exact (houtside a (by rwa [hlat])).trans (hout a ha)

/-- An untainted command on track, given its turns, completes with the result of its rule (R116 to R119). -/
theorem run_completes {s : State} {e n : Nat} {g : Engine} {b : Bytes} (hinv : s.Inv) (hg : s.engines[e]? = some g)
    (hr : g.running = true) (htaint : g.tainted = false) (htrack : g.OnTrack s.mem b) (hn : g.turnsLeft = n)
    (hturns : s.GivesTurns e n) : ∃ u h, core.run n s = .next u ∧ s.Completes e g b n u h := by
  induction n generalizing s g with
  | zero =>
    have := ((hinv.engineOk hg).runs hr).turnsLeft_pos.1
    omega
  | succ n ih =>
    have hpos := ((hinv.engineOk hg).runs hr).turnsLeft_pos
    have hnext := hturns.nextTurn hg hr
    have hinv' : s.nextTurn.2.Inv := hinv.nextTurn
    rw [hnext] at hinv'
    have hstep : step s = State.engineStep { s with schedule := s.schedule.tail } e .ok := by
      rw [step, hnext]
      rfl
    by_cases hfin : g.scratch.act = .finish
    · have hzero : n = 0 := by
        have := hpos.2.2 hfin
        omega
      subst hzero
      rw [State.engineStep_finish (s := { s with schedule := s.schedule.tail }) .ok hg hr
        (Engine.portOp_finish hfin) hfin] at hstep
      obtain ⟨c1, c2, c3, c4, c5, c6, c7, c8, c9, c10⟩ := State.complete_completes (e := e)
        (s := { s with schedule := s.schedule.tail }) hfin htaint htrack
      exact ⟨_, _, (core_run_succ hstep).trans rfl, c1, c2, c3, c4, c5, c6, c7, c8, ⟨c9.1, c9.2, c9.3, c9.4⟩,
        by rw [c10]; simp⟩
    · obtain ⟨h, m, hown, hadv⟩ :=
        State.engineStep_advances (s := { s with schedule := s.schedule.tail }) hinv' hg hr hfin
      rw [hown] at hstep
      obtain ⟨u, k, hrun, hc⟩ := ih (stepKeepsTheInvariant s _ hinv hstep) (State.setEngine_getElem?_self hg h)
        hadv.runs.running (hadv.regs.tainted.trans htaint) (hadv.track b htrack)
        (by have := hadv.turns; omega) (hturns.tail rfl rfl)
      exact ⟨u, k, (core_run_succ hstep).trans hrun, hc.earlier hadv rfl⟩

/-! ### From submission to completion -/

/-- The state with the command `i` accepted on the engine addressed, which held `g`, where no other command
conflicts. -/
def State.started (s : State) (g : Engine) (i : Instr) : State :=
  s.setEngine s.target ((g.submitted (encode i)).accept false)

/-- The engine addressed in `s`, which held `g`, has run a command of latched values `l` from submission to
completion. -/
structure State.Executed (s : State) (g : Engine) (l : Latched) (u : State) (h : Engine) : Prop where
  engines : u.engines = s.engines.set s.target h
  phase : h.phase = .idle
  regs : g.KeepsRegs h
  inReset : h.inReset = g.inReset
  status : h.status = { busy := false, done := true, err := false, ovr := g.status.ovr, errCode := 0#4 }
  dst : u.mem.readBytes l.dst.toNat l.unitLen = l.result (s.mem.readBytes l.src.toNat l.unitLen)
  slots : l.op = 0x3#4 → l.slotsHold u.mem (s.mem.readBytes l.src.toNat l.unitLen) l.n.toNat
  outside : s.mem.KeepsOutside l.writeRegions u.mem
  host : s.KeepsHost u

theorem State.Completes.executed {s t u : State} {g h : Engine} {i : Instr} {n : Nat}
    (ht : t = { s.started g i with schedule := t.schedule })
    (hc : t.Completes s.target ((g.submitted (encode i)).accept false)
      (s.mem.readBytes (g.latch (encode i)).src.toNat (g.latch (encode i)).unitLen) n u h) :
    s.Executed g (g.latch (encode i)) u h := by
  obtain ⟨hengines, hphase, ⟨k1, k2, k3, k4, k5, k6⟩, hreset, hstatus, hdst, hslots, hout, ⟨p1, p2, p3, p4⟩, -⟩ := hc
  rw [ht] at hengines hout p1 p2 p3 p4
  exact ⟨hengines.trans (List.set_set ..), hphase, ⟨k1, k2, k3, k4, k5, k6⟩, hreset, hstatus, hdst, hslots, hout,
    ⟨p1, p2, p3, p4⟩⟩

section submission
variable {s : State} {g : Engine} {i : Instr} (hinv : s.Inv) (hg : s.engines[s.target]? = some g)
  (hready : g.ready = true) (hv : validate s.params.rMax (encode i) (g.latch (encode i)) = none)
  (hno : s.noConflict (g.latch (encode i)) = true)
include hg hready hv hno

theorem exec_started : exec i s = .next (s.started g i) := by
  rw [exec_submit, State.submit_of_valid hg hready hv, State.accepted_of_noConflict hno, State.started]

include hinv

/-- A valid command without a conflict, accepted and given its turns, completes. -/
theorem run_started {t : State} (ht : t = { s.started g i with schedule := t.schedule })
    (hturns : t.GivesTurns s.target (g.latch (encode i)).turns) :
    ∃ u h, core.run (g.latch (encode i)).turns t = .next u ∧ s.Executed g (g.latch (encode i)) u h ∧
      u.schedule = t.schedule.drop (g.latch (encode i)).turns := by
  obtain ⟨-, -, hreset⟩ := g.ready_iff.1 hready
  have hok := hinv.engineOk hg
  have hinv' : (s.started g i).Inv :=
    State.Inv.submit hinv ((exec_submit i s).symm.trans (exec_started hg hready hv hno))
  have heng : t.engines[s.target]? = some ((g.submitted (encode i)).accept false) := by
    rw [ht]
    exact State.setEngine_getElem?_self hg _
  have htrack : ((g.submitted (encode i)).accept false).OnTrack t.mem
      (s.mem.readBytes (g.latch (encode i)).src.toNat (g.latch (encode i)).unitLen) := by
    rw [ht]
    exact g.accept_onTrack _ _ s.mem
  obtain ⟨u, h, hrun, hc⟩ := run_completes (hinv'.congr (by rw [ht]) (by rw [ht]) (by rw [ht])) heng
    (Engine.accept_running hok hreset hv) rfl htrack (Engine.accept_turnsLeft hok hreset hv) hturns
  exact ⟨u, h, hrun, hc.executed ht, hc.schedule⟩

/-- The same under the schedule that gives the engine its turns. -/
theorem run_withTurns :
    ∃ u h, core.run (g.latch (encode i)).turns ((s.started g i).withTurns s.target (g.latch (encode i)).turns) =
        .next u ∧ s.Executed g (g.latch (encode i)) u h ∧ u.schedule = s.schedule := by
  obtain ⟨u, h, hrun, hexec, hsched⟩ := run_started hinv hg hready hv hno
    (t := (s.started g i).withTurns s.target (g.latch (encode i)).turns) rfl (State.withTurns_givesTurns _ _ _)
  exact ⟨u, h, hrun, hexec, by rw [hsched]; simp [State.withTurns, State.started]⟩

end submission

/-! ### The three commands -/

/-- The checks of a command's submission, each passed (R114). -/
theorem validate_command {rMax : Nat} {i : Instr} {l : Latched} (hop : l.op = i.op)
    (hr : i ≠ .salsa8 → 1 ≤ l.r.toNat ∧ l.r.toNat ≤ rMax)
    (hn : i = .romix → isPow2 l.n = true ∧ 2 ≤ l.n.toNat ∧ l.n.toNat < 2 ^ (16 * l.r.toNat))
    (haligned : l.src.toNat % 4 = 0 ∧ l.dst.toNat % 4 = 0 ∧ (i = .romix → l.v.toNat % 4 = 0))
    (hin : l.src.toNat + l.unitLen ≤ Config.memBytes ∧ l.dst.toNat + l.unitLen ≤ Config.memBytes ∧
      (i = .romix → l.v.toNat + l.n.toNat * l.unitLen ≤ Config.memBytes))
    (hapart : (l.src = l.dst ∨ l.src.toNat + l.unitLen ≤ l.dst.toNat ∨ l.dst.toNat + l.unitLen ≤ l.src.toNat) ∧
      (i = .romix →
        (l.v.toNat + l.n.toNat * l.unitLen ≤ l.src.toNat ∨ l.src.toNat + l.unitLen ≤ l.v.toNat) ∧
          (l.v.toNat + l.n.toNat * l.unitLen ≤ l.dst.toNat ∨ l.dst.toNat + l.unitLen ≤ l.v.toNat))) :
    validate rMax (encode i) l = none := by
  have hromix : l.op = 0x3#4 ↔ i = .romix := by
    rw [hop]
    cases i <;> decide
  rw [← hromix] at hn haligned hin hapart
  have hfield : opField (encode i) = i.op := opField_cmdw _
  refine (validate_none_iff _ _ _).2 ⟨⟨rsvField_cmdw _, ?_⟩, fun hmix => ?_, fun h3 => ?_,
    l.misaligned_false_iff.2 haligned, l.outOfRange_false_iff.2 hin, l.overlapping_false_iff.2 hapart⟩
  · rw [hfield]
    cases i <;> decide
  · obtain ⟨h1, h2⟩ := hr (by rintro rfl; revert hmix; decide)
    exact ⟨by omega, h2⟩
  · exact l.badN_false_iff.2 (hn (by rw [hop, ← hfield, h3]))

/-- Settles O23: the pair of addresses is valid, and the accepted command completes. -/
theorem salsa8ComputesTheBlock : Obligations.Salsa8ComputesTheBlock := by
  intro s g hinv hg hready hno hsrc hdst hsrcIn hdstIn hapart
  have hv : validate s.params.rMax (encode .salsa8) (g.latch (encode .salsa8)) = none :=
    validate_command rfl nofun nofun ⟨hsrc, hdst, nofun⟩ ⟨hsrcIn, hdstIn, nofun⟩ ⟨hapart, nofun⟩
  obtain ⟨u, h, hrun, hexec, hsched⟩ := run_withTurns hinv hg hready hv hno
  exact ⟨_, _, _, u, h, exec_started hg hready hv hno, rfl, hrun, hexec.engines, hexec.phase, hexec.regs,
    hexec.status, hexec.dst, hexec.outside, hexec.host, hsched⟩

/-- Settles O24: r and the pair of addresses are valid, and the accepted command completes. -/
theorem blockmixComputesTheSuperBlock : Obligations.BlockmixComputesTheSuperBlock := by
  rintro s g L hinv hg hready hno hr hrMax rfl hsrc hdst hsrcIn hdstIn hapart
  have hv : validate s.params.rMax (encode .blockmix) (g.latch (encode .blockmix)) = none :=
    validate_command rfl (fun _ => ⟨hr, hrMax⟩) nofun ⟨hsrc, hdst, nofun⟩ ⟨hsrcIn, hdstIn, nofun⟩ ⟨hapart, nofun⟩
  obtain ⟨u, h, hrun, hexec, hsched⟩ := run_withTurns hinv hg hready hv hno
  exact ⟨_, _, _, u, h, exec_started hg hready hv hno, rfl, hrun, hexec.engines, hexec.phase, hexec.regs,
    hexec.status, hexec.dst, hexec.outside, hexec.host, hsched⟩

/-- Settles O25: r, N and the addresses are valid, and the accepted command completes. -/
theorem romixComputesTheSuperBlockAndTheTable : Obligations.RomixComputesTheSuperBlockAndTheTable := by
  rintro s g L N hinv hg hready hno hr hrMax rfl rfl hpow htwo hlt hsrc hdst hv4 hsrcIn hdstIn hvIn hapart hvSrc hvDst
  have hv : validate s.params.rMax (encode .romix) (g.latch (encode .romix)) = none :=
    validate_command rfl (fun _ => ⟨hr, hrMax⟩) (fun _ => ⟨(isPow2_iff_isPowerOfTwo _).2 hpow, htwo, hlt⟩)
      ⟨hsrc, hdst, fun _ => hv4⟩ ⟨hsrcIn, hdstIn, fun _ => hvIn⟩ ⟨hapart, fun _ => ⟨hvSrc, hvDst⟩⟩
  obtain ⟨u, h, hrun, hexec, hsched⟩ := run_withTurns hinv hg hready hv hno
  exact ⟨_, _, _, u, h, exec_started hg hready hv hno, rfl, hrun, hexec.engines, hexec.phase, hexec.regs,
    hexec.status, hexec.dst, hexec.slots rfl, hexec.outside, hexec.host, hsched⟩

end Sys2Proof.Machine
end

section
/-! PROOFS. What a command's result and its traffic depend on (spec/40_command_lifecycle.md R123, spec/20_memory.md
R85): the opcode, the operands it reads, and the bytes of `SRC`. -/

namespace Sys2Proof.Machine

/-! ### The operands a command reads (R93) -/

/-- Two commands with the same opcode and the same of the operands it reads among r and N. -/
structure Latched.SameOperands (k l : Latched) : Prop where
  op : k.op = l.op
  r : k.op ≠ 0x1#4 → k.r = l.r
  n : k.op = 0x3#4 → k.n = l.n

section sameOperands
variable {k l : Latched} (h : k.SameOperands l)
include h

theorem Latched.SameOperands.unitLen : k.unitLen = l.unitLen := by
  obtain ⟨hop, hr, -⟩ := h
  unfold Latched.unitLen
  rw [← hop]
  split
  · rfl
  · next h1 => rw [hr h1]

theorem Latched.SameOperands.unitWords : k.unitWords = l.unitWords := by
  rw [Latched.unitWords, h.unitLen, Latched.unitWords]

theorem Latched.SameOperands.turns (hop : k.op = 0x1#4 ∨ k.op = 0x2#4 ∨ k.op = 0x3#4) : k.turns = l.turns := by
  have hw := h.unitWords
  obtain ⟨hsame, hr, hn⟩ := h
  unfold Latched.turns
  rw [← hsame, hw]
  rcases hop with hop | hop | hop
  · simp [hop]
  · simp [hop, hr (by simp [hop])]
  · simp [hop, hr (by simp [hop]), hn hop]

theorem Latched.SameOperands.result (hop : k.op = 0x1#4 ∨ k.op = 0x2#4 ∨ k.op = 0x3#4) (b : Bytes) :
    k.result b = l.result b := by
  obtain ⟨hsame, hr, hn⟩ := h
  unfold Latched.result
  rw [← hsame]
  rcases hop with hop | hop | hop
  · simp [hop]
  · simp [hop, hr (by simp [hop])]
  · simp [hop, hr (by simp [hop]), hn hop]

end sameOperands

/-- A table that holds its slots holds them one after another (R68, R196). -/
theorem Latched.slotsHold.table {l : Latched} {m : Memory} {b : Bytes} {n : Nat} (h : l.slotsHold m b n) :
    m.readBytes l.v.toNat (n * l.unitLen) = ((List.range n).map (blockMixIter b l.r.toNat)).flatten := by
  induction n with
  | zero => simp [Memory.readBytes]
  | succ n ih =>
    have hlast : m.readBytes (l.v.toNat + n * l.unitLen) l.unitLen = blockMixIter b l.r.toNat n := h n n.lt_succ_self
    rw [Nat.succ_mul, Memory.readBytes_add, ih fun i hi => h i (hi.trans n.lt_succ_self), hlast]
    simp [List.range_succ]

theorem instr_op_cases (i : Instr) : i.op = 0x1#4 ∨ i.op = 0x2#4 ∨ i.op = 0x3#4 := by cases i <;> decide

theorem instr_op_eq_romix {i : Instr} : i.op = 0x3#4 ↔ i = .romix := by cases i <;> decide

/-- Settles O26: both runs take the turns of the command, and leave its rule's result of the same bytes. -/
theorem resultsDependOnTheInputAlone : Obligations.ResultsDependOnTheInputAlone := by
  rintro i s₁ s₂ g₁ g₂ _ _ hinv₁ hinv₂ hg₁ hg₂ hready₁ hready₂ rfl rfl hv₁ hv₂ hno₁ hno₂ hr hn hsrc
  have hop₁ : (g₁.latch (encode i)).op = i.op := opField_cmdw _
  have hop₂ : (g₂.latch (encode i)).op = i.op := opField_cmdw _
  have hops : (g₁.latch (encode i)).op = 0x1#4 ∨ (g₁.latch (encode i)).op = 0x2#4 ∨
      (g₁.latch (encode i)).op = 0x3#4 := hop₁ ▸ instr_op_cases i
  have hsame : (g₁.latch (encode i)).SameOperands (g₂.latch (encode i)) := by
    refine ⟨hop₁.trans hop₂.symm, fun h => hr fun hi => h ?_, fun h => hn ?_⟩
    · rw [hop₁, hi, Instr.op]
    · exact instr_op_eq_romix.1 (hop₁.symm.trans h)
  obtain ⟨u₁, h₁, hrun₁, hexec₁, -⟩ := run_withTurns hinv₁ hg₁ hready₁ hv₁ hno₁
  obtain ⟨u₂, h₂, hrun₂, hexec₂, -⟩ := run_withTurns hinv₂ hg₂ hready₂ hv₂ hno₂
  rw [← hsame.turns hops] at hrun₂
  have hh₁ : u₁.engines[s₁.target]? = some h₁ := hexec₁.engines ▸ State.setEngine_getElem?_self hg₁ h₁
  have hh₂ : u₂.engines[s₂.target]? = some h₂ := hexec₂.engines ▸ State.setEngine_getElem?_self hg₂ h₂
  refine ⟨_, _, _, u₁, u₂, exec_started hg₁ hready₁ hv₁ hno₁, exec_started hg₂ hready₂ hv₂ hno₂, hrun₁, hrun₂,
    ⟨h₁, h₂, hh₁, hh₂, by rw [hexec₁.status], by rw [hexec₂.status]⟩, ?dst, ?table⟩
  case dst => rw [hexec₁.dst, hexec₂.dst, hsrc, hsame.result hops]
  case table =>
    intro hi
    have hrom₁ := hop₁.trans (instr_op_eq_romix.2 hi)
    have hrom₂ := hop₂.trans (instr_op_eq_romix.2 hi)
    rw [(hexec₁.slots hrom₁).table, (hexec₂.slots hrom₂).table, hsrc, hsame.r (by simp [hrom₁]), hsame.n hrom₁]

/-! ### The bytes moved (R85) -/

theorem State.turnTraffic_of_running {s : State} {e : Nat} {g : Engine} (hg : s.engines[e]? = some g)
    (hr : g.running = true) : s.turnTraffic e = g.portTraffic := by
  rw [State.turnTraffic, hg]
  exact if_pos hr

theorem State.traffic_succ {s t : State} {e n : Nat} (h : s.engineStep e .ok = .next t) :
    State.traffic e (n + 1) s =
      ⟨(s.turnTraffic e).reads + (State.traffic e n t).reads,
        (s.turnTraffic e).writes + (State.traffic e n t).writes⟩ := by
  rw [State.traffic, h]

/-- In the turns it has left a running command moves what it has left to move. -/
theorem State.traffic_of_running {s : State} {e n : Nat} {g : Engine} (hinv : s.Inv) (hg : s.engines[e]? = some g)
    (hr : g.running = true) (hn : g.turnsLeft = n) : State.traffic e n s = ⟨g.readsLeft, g.writesLeft⟩ := by
  induction n generalizing s g with
  | zero =>
    have := ((hinv.engineOk hg).runs hr).turnsLeft_pos.1
    omega
  | succ n ih =>
    have hturn := State.turnTraffic_of_running hg hr
    by_cases hfin : g.scratch.act = .finish
    · have hone := ((hinv.engineOk hg).runs hr).turnsLeft_pos.2.2 hfin
      obtain rfl : n = 0 := by omega
      rw [State.traffic_succ (State.engineStep_finish .ok hg hr (Engine.portOp_finish hfin) hfin), hturn]
      simp [State.traffic, Engine.portTraffic, Engine.portOp_finish hfin, Engine.readsLeft, Engine.writesLeft, hfin]
    · obtain ⟨h, m, hstep, hadv⟩ := State.engineStep_advances hinv hg hr hfin
      have hturns := hadv.turns
      rw [State.traffic_succ hstep, hturn, ih (hinv.engineStep hstep) (State.setEngine_getElem?_self hg h)
        hadv.runs.running (by omega)]
      simp only [hadv.moves.reads, hadv.moves.writes]

/-- What a command just accepted has to move. -/
theorem Engine.accept_left {rMax : Nat} {g : Engine} {i : Instr}
    (hv : validate rMax (encode i) (g.latch (encode i)) = none)
    (c : Bool) :
    ((g.submitted (encode i)).accept c).readsLeft = (g.latch (encode i)).unitLen +
        (if i = .romix then (g.latch (encode i)).n.toNat * (g.latch (encode i)).unitLen else 0) ∧
      ((g.submitted (encode i)).accept c).writesLeft =
        (if i = .romix then (g.latch (encode i)).n.toNat * (g.latch (encode i)).unitLen else 0) +
          (g.latch (encode i)).unitLen := by
  have hu := (validate_none rfl hv).1.unitLen_eq
  have hphase : startPhase (g.latch (encode i)).op = .build ↔ i = .romix := by
    rw [show (g.latch (encode i)).op = i.op from opField_cmdw _]
    cases i <;> decide
  simp [Engine.readsLeft, Engine.writesLeft, hphase, hu]

/-- Settles O31: the accepted command has all its turns left and all its bytes to move. -/
theorem bytesMovedPerCommand : Obligations.BytesMovedPerCommand := by
  rintro i s g R N hinv hg hready hv rfl rfl
  obtain ⟨-, -, hreset⟩ := g.ready_iff.1 hready
  have hok := hinv.engineOk hg
  have hexec := (exec_submit i s).trans (State.submit_of_valid hg hready hv)
  refine ⟨_, hexec, ?_⟩
  obtain ⟨hreads, hwrites⟩ := Engine.accept_left (g := g) hv
    (s.engines.any fun o => o.running && (g.latch (encode i)).conflicts o.lat)
  rw [State.traffic_of_running (hinv.submit ((exec_submit i s).symm.trans hexec)) (State.accepted_getElem?_self hg _ _)
    (Engine.accept_running hok hreset hv) (Engine.accept_turnsLeft hok hreset hv), hreads, hwrites]
  cases i <;> simp [Latched.unitLen, g.latch_encode, Instr.op]

end Sys2Proof.Machine
end

section
/-! PROOFS. `BUSY` (spec/10_state.md R24), what engines share (spec/60_exceptions.md R272) and the host's hazards
(spec/20_memory.md R86), read off what one step can do to one engine. -/

namespace Sys2Proof.Machine

/-! ### What raises and what drops `BUSY` -/

theorem Engine.writeReg_busy (g : Engine) (w : Word) (r : Reg) : (g.writeReg w r).status.busy = g.status.busy := by
  by_cases hr : r = .status
  · subst hr
    rfl
  · rw [g.writeReg_status w hr]

theorem decode_of_valid {rMax : Nat} {w : Word} {l : Latched} (h : validate rMax w l = none) :
    ∃ i, decode w = .ok i := by
  obtain ⟨⟨hrsv, hop⟩, -⟩ := (validate_none_iff rMax w l).1 h
  rcases hop with hop | hop | hop <;> simp [decode, hrsv, hop]

/-- Of the host's register writes only a valid submission raises `BUSY`, and none drops it. -/
theorem Engine.RegWrite.busy {rMax : Nat} {w : Word} {g h : Engine} {r : Reg} (hw : g.RegWrite rMax w r h) :
    (g.status.busy = false → h.status.busy = true → r = .cmd ∧ validate rMax w (g.latch w) = none) ∧
      (g.status.busy = true → h.status.busy = true) := by
  cases hw with
  | ignored _ _ => exact ⟨fun hg hh => absurd (hh.symm.trans hg) (by decide), id⟩
  | register _ _ =>
    rw [g.writeReg_busy w]
    exact ⟨fun hg hh => absurd (hh.symm.trans hg) (by decide), id⟩
  | overrun _ _ => exact ⟨fun hg hh => absurd (hh.symm.trans hg) (by decide), id⟩
  | rejected _ hb _ => exact ⟨nofun, fun hg => absurd (hg.symm.trans hb) (by decide)⟩
  | accepted _ _ hv => exact ⟨fun _ _ => ⟨rfl, hv⟩, fun _ => rfl⟩

/-- An engine's own turn never raises `BUSY`, and drops it by completion or by an abort. -/
theorem Engine.OwnTurn.busy {rMax : Nat} {ans : Answer} {g h : Engine} (hok : g.Ok rMax) (ht : g.OwnTurn ans h) :
    (h.status.busy = true → g.status.busy = true) ∧
      (g.status.busy = true → h.status.busy = false →
        (g.scratch.act = .finish ∧ h.status.done = true ∧ h.status.err = false) ∨
          (ans = .error ∧ g.portOp ≠ none ∧ h.status.err = true ∧ h.status.errCode = 7#4)) := by
  cases ht with
  | waits _ => exact ⟨id, fun hg hh => absurd (hg.symm.trans hh) (by decide)⟩
  | moves _ hs =>
    rw [hs.status]
    exact ⟨id, fun hg hh => absurd (hg.symm.trans hh) (by decide)⟩
  | strange _ _ hs =>
    rw [hs.status]
    exact ⟨id, fun hg hh => absurd (hg.symm.trans hh) (by decide)⟩
  | aborted _ _ hans hop => exact ⟨nofun, fun _ _ => .inr ⟨hans, hop, rfl, rfl⟩⟩
  | completed _ _ hfin => exact ⟨nofun, fun hg _ => .inl ⟨hfin, rfl, (hok.clean hg).2.1⟩⟩

/-- Of all steps only a valid submission raises `BUSY`. -/
theorem Engine.Change.busy_rises {p : Params} {prog : List HostStmt} {turn : Turn} {e : Nat} {g h : Engine}
    (hok : g.Ok p.rMax) (hc : g.Change p prog turn e h) (hg : g.status.busy = false) (hh : h.status.busy = true) :
    ∃ ref w i rest, turn = .host ∧ prog = .wr ref w :: rest ∧ ref.resolve p = .ok (e, 0x04) ∧ decode w = .ok i ∧
      validate p.rMax w (g.latch w) = none := by
  cases hc with
  | same => exact absurd (hh.symm.trans hg) (by decide)
  | taint => exact absurd (hh.symm.trans hg) (by decide)
  | releaseReset _ => exact absurd (hh.symm.trans hg) (by decide)
  | assertReset f _ => cases hh
  | engineTurn _ ht => exact absurd (((ht.busy hok).1 hh).symm.trans hg) (by decide)
  | @regWrite ref w rest off _ hturn hprog hres hw =>
    obtain ⟨hr, hv⟩ := hw.busy.1 hg hh
    obtain ⟨i, hi⟩ := decode_of_valid hv
    rw [Reg.eq_offset (r := .cmd) hr (by decide)] at hres
    exact ⟨ref, w, i, rest, hturn, hprog, hres, hi, hv⟩

/-- Of all steps only completion, abort and reset drop `BUSY`. -/
theorem Engine.Change.busy_falls {p : Params} {prog : List HostStmt} {turn : Turn} {e : Nat} {g h : Engine}
    (hok : g.Ok p.rMax) (hc : g.Change p prog turn e h) (hg : g.status.busy = true) (hh : h.status.busy = false) :
    (∃ ans, turn = .engine e ans ∧ g.scratch.act = .finish ∧ h.status.done = true ∧ h.status.err = false) ∨
      (turn = .engine e .error ∧ g.portOp ≠ none ∧ h.status.err = true ∧ h.status.errCode = 7#4) ∨
      (turn = .assertReset e ∧ h.inReset = true) := by
  cases hc with
  | same => exact absurd (hg.symm.trans hh) (by decide)
  | taint => exact absurd (hg.symm.trans hh) (by decide)
  | releaseReset _ => exact absurd (hg.symm.trans hh) (by decide)
  | regWrite _ _ _ hw => exact absurd ((hw.busy.2 hg).symm.trans hh) (by decide)
  | assertReset f hturn => exact .inr (.inr ⟨hturn, rfl⟩)
  | @engineTurn ans _ hturn ht =>
    rcases (ht.busy hok).2 hg hh with hdone | ⟨rfl, herr⟩
    · exact .inl ⟨ans, hturn, hdone⟩
    · exact .inr (.inl ⟨hturn, herr⟩)

/-- Settles O13: the invariant's R24 at the engine, and the last two lemmas read at one step (`step_change`). -/
theorem busyRisesAndFalls : Obligations.BusyRisesAndFalls := by
  intro s t e g h hinv hg hstep hh
  have hok := hinv.engineOk hg
  have hc := step_change hinv hstep hg hh
  refine ⟨?_, hc.busy_rises hok, hc.busy_falls hok⟩
  rw [hok.busy]
  simp [Engine.running]

/-! ### What engines share (R272) -/

theorem State.raiseError_engines (s : State) (e : Nat) (g : Engine) (c : ErrCode) :
    ∃ h, (s.raiseError e g c).engines = s.engines.set e h := by
  cases hr : g.running with
  | false => exact ⟨_, by rw [s.raiseError_idle e c hr]; rfl⟩
  | true => exact ⟨_, s.raiseError_running_engines e c hr⟩

/-- A submission replaces the engine addressed, and taints engines; in any state. -/
theorem State.submit_sets {s t : State} {w : Word} (ht : s.submit w = .next t) :
    ∃ h p, t.engines = (taintIf p s.engines).set s.target h := by
  obtain ⟨g, hg, ht⟩ := State.onEngine_next.1 ht
  split at ht
  · obtain rfl := Host.Outcome.next.inj ht
    exact ⟨g, fun _ => false, by rw [taintIf_false, set_getElem?_self hg]⟩
  split at ht
  · obtain rfl := Host.Outcome.next.inj ht
    exact ⟨_, fun _ => false, by rw [taintIf_false]; rfl⟩
  split at ht
  · obtain rfl := Host.Outcome.next.inj ht
    obtain ⟨h, heng⟩ := s.raiseError_engines s.target (g.submitted w) _
    exact ⟨h, fun _ => false, by rw [taintIf_false]; exact heng⟩
  · obtain rfl := Host.Outcome.next.inj ht
    exact ⟨_, _, rfl⟩

/-- A register write replaces the engine it reaches, and taints engines; in any state. -/
theorem State.regWrite_sets {s t : State} {e : Nat} {w : Word} {r : Reg} (ht : s.regWrite e w r = .next t) :
    ∃ h p, t.engines = (taintIf p s.engines).set e h := by
  by_cases hr : r = .cmd
  · subst hr
    rw [State.regWrite_cmd] at ht
    exact State.submit_sets (s := { s with target := e }) ht
  · rw [s.regWrite_of_ne_cmd e w hr] at ht
    obtain ⟨g, hg, ht⟩ := State.onEngine_next.1 ht
    refine ⟨if g.inReset then g else g.writeReg w r, fun _ => false, ?_⟩
    rw [taintIf_false]
    split at ht <;> obtain rfl := Host.Outcome.next.inj ht
    · rw [if_pos ‹_›, set_getElem?_self hg]
    · rw [if_neg ‹_›, State.setEngine_engines]

/-- Settles O34: each of the four replaces engine `e`, and only a register write taints others. -/
theorem enginesShareOnlyMemory : Obligations.EnginesShareOnlyMemory := by
  intro s t e f o hef ho
  have hother {h : Engine} (heng : t.engines = s.engines.set e h) : t.engines[f]? = some o := by
    rw [heng, List.getElem?_set_ne hef, ho]
  refine ⟨fun ans ht => ?turn, fun ht => ?assert, fun ht => ?release, fun w r ht => ?write⟩
  case turn =>
    obtain ⟨g, h, -, -, heng⟩ := State.engineStep_engines ht
    exact hother heng
  case assert =>
    obtain ⟨g, -, ht⟩ := State.onEngine_next.1 ht
    exact hother (Host.Outcome.next.inj ht ▸ s.assertReset_engines e g)
  case release =>
    obtain ⟨g, -, ht⟩ := State.onEngine_next.1 ht
    exact hother (h := { g with inReset := false }) (Host.Outcome.next.inj ht ▸ rfl)
  case write =>
    obtain ⟨h, p, heng⟩ := State.regWrite_sets ht
    rw [heng, List.getElem?_set_ne hef, taintIf_getElem?_of ho]
    split
    · exact .inr rfl
    · exact .inl rfl

/-! ### The host's hazards (R86) -/

theorem inMemory_of_le {a n : Nat} (h : a + n ≤ 2 ^ 32) : inMemory a n = true := inMemory_iff.2 h

theorem State.storeAt_of_le {s : State} {a : Nat} {bs : Bytes} (h : a + bs.length ≤ 2 ^ 32) :
    s.storeAt a bs = .next (s.hostWrite a bs) := if_pos (inMemory_of_le h)

/-- A store keeps every byte outside those stored. -/
theorem Memory.writeBytes_keepsOthers (m : Memory) (a : Nat) (bs : Bytes) :
    m.KeepsOutside [⟨a, bs.length⟩] (m.writeBytes a bs) := by
  intro x hx
  have hout : ¬ (a ≤ x ∧ x < a + bs.length) := by
    simpa [Region.holds] using hx ⟨a, bs.length⟩ (List.mem_singleton_self _)
  exact Memory.read_writeBytes_out (by omega)

theorem State.hostRead_getElem? (s : State) (a : Nat) {n k : Nat} (hk : k < n) :
    (s.hostRead a n)[k]? =
      some (if s.inFlight (a + k) then Config.freeByte (s.freeCount + k) else s.mem.read (a + k)) := by
  simp [State.hostRead, hk]

theorem State.inFlight_iff (s : State) (a : Nat) :
    s.inFlight a = true ↔ ∃ g ∈ s.engines, g.running = true ∧ ∃ r ∈ g.lat.writeRegions, r.holds a = true := by
  simp [State.inFlight, List.any_eq_true]

/-- Settles O32: the store taints the running commands whose regions it meets; a read asks whether the byte is in
flight. -/
theorem hazardsMakeContentsUnspecified : Obligations.HazardsMakeContentsUnspecified := by
  intro s e g hinv hg hr
  refine ⟨fun a bs hin => ?store, fun a n k hk hmem => ?free, fun a n k hk hnone => ?kept⟩
  case store =>
    have heng := taintIf_getElem?_of (p := fun l => regionsMeet [⟨a, bs.length⟩] l.regions) hg
    refine ⟨_, _, State.storeAt_of_le hin, heng, ?_, ?_, s.mem.writeBytes_keepsOthers a bs, ?_⟩
    · split <;> rfl
    · split <;> exact hr
    · rintro ⟨r, hmem, x, hx, hxa, hxb⟩
      refine congrArg Engine.tainted (if_pos ⟨hr, (regionsMeet_iff _ _).2 ?_⟩)
      exact ⟨_, List.mem_singleton_self _, r, hmem,
        (Region.meets_iff _ _).2 ⟨x, (Region.holds_iff _ _).2 ⟨hxa, hxb⟩, hx⟩⟩
  case free =>
    rw [s.hostRead_getElem? a hk, if_pos ((s.inFlight_iff _).2 ⟨g, List.mem_of_getElem? hg, hr, hmem⟩)]
  case kept =>
    rw [s.hostRead_getElem? a hk, if_neg]
    rw [s.inFlight_iff]
    rintro ⟨o, ho, hor, r, hmem, hx⟩
    rw [hnone o ho hor r hmem] at hx
    cases hx

end Sys2Proof.Machine
end

section
/-! PROOFS. The registers and the host's accesses to them (spec/10_state.md R20 to R38, spec/30_encoding.md R96, R97):
where they stand, what a write is read back as, a command word as a step, a `WAIT`, the places of `STATUS`. -/

namespace Sys2Proof.Machine

/-! ### Command words -/

/-- Settles O3: the decoder evaluated on each word. -/
theorem someWordsDecode : Obligations.SomeWordsDecode := ⟨rfl, rfl, rfl, rfl, rfl, rfl, rfl⟩

theorem step_of_host {s : State} (h : s.nextTurn.1 = .host) : step s = s.nextTurn.2.hostStep := by
  rw [step, h, State.takeTurn]

/-- Settles O4: the host's turn runs the statement, whose access reaches `CMD`. -/
theorem stepRunsTheDecodedCommand : Obligations.StepRunsTheDecodedCommand := by
  intro s ref w rest e i hhost hprog hres hdec
  have hprog' : s.nextTurn.2.program = .wr ref w :: rest := by rw [s.nextTurn_program, hprog]
  have hres' : ref.resolve ({ s.nextTurn.2 with program := rest } : State).params = .ok (e, 0x04) := by
    rw [← hres, ← s.nextTurn_params]
  rw [step_of_host hhost, State.hostStep_cons hprog', State.runStmt, State.access_ok hres']
  simp only [State.regWrite, show Reg.ofOffset 0x04 = .cmd from rfl, hdec]

/-! ### Where the registers stand -/

theorem reg_ofOffset_of_le {off : Nat} (h : 0x28 ≤ off) : Reg.ofOffset off = .reserved := by
  unfold Reg.ofOffset
  iterate 10 rw [if_neg (by omega)]

/-- Settles O5: an aligned word of a window is a `REGX` transaction there (`RegRef.resolve_window`). -/
theorem registersStandAtTheirOffsets : Obligations.RegistersStandAtTheirOffsets := by
  intro p e hp he
  refine ⟨fun off hoff halign => ?_, ⟨rfl, rfl, rfl, rfl, rfl, rfl, rfl, rfl, rfl, rfl⟩,
    fun off => reg_ofOffset_of_le⟩
  rw [RegRef.resolve_window 4 hp he hoff, if_neg (by decide), if_neg (by omega)]

/-! ### What a write is read back as -/

theorem irqEnWord_irqEnOf (w : Word) : irqEnWord (irqEnOf w) = w &&& 0x00000007#32 := by
  refine BitVec.eq_of_getLsbD_eq fun i hi => ?_
  have hmask : (0x00000007#32).getLsbD i = decide (i < 3) := by interval_cases i <;> rfl
  rw [irqEnWord_getLsbD, BitVec.getLsbD_and, hmask, irqEnOf, BitVec.getLsbD_extractLsb']
  simp [Bool.and_comm]

/-- A register written reads back its own value. -/
theorem Engine.readReg_writeReg_same (g : Engine) (p : Params) (w : Word) {r : Reg} (hcmd : r ≠ .cmd)
    (hstatus : r ≠ .status) : (g.writeReg w r).readReg p r = readsBack p w r := by
  cases r
  case cmd => exact absurd rfl hcmd
  case status => exact absurd rfl hstatus
  case irqEn => exact irqEnWord_irqEnOf w
  all_goals rfl

/-- Every other register reads as before. -/
theorem Engine.readReg_writeReg_other (g : Engine) (p : Params) (w : Word) {r q : Reg} (h : q ≠ r) :
    (g.writeReg w r).readReg p q = g.readReg p q := by
  cases r
  case status => cases q with | status => exact absurd rfl h | _ => rfl
  case irqEn => cases q with | irqEn => exact absurd rfl h | _ => rfl
  case srcAddr => cases q with | srcAddr => exact absurd rfl h | _ => rfl
  case dstAddr => cases q with | dstAddr => exact absurd rfl h | _ => rfl
  case vAddr => cases q with | vAddr => exact absurd rfl h | _ => rfl
  case rParam => cases q with | rParam => exact absurd rfl h | _ => rfl
  case nParam => cases q with | nParam => exact absurd rfl h | _ => rfl
  all_goals rfl

theorem Engine.writeReg_keepsCommand (g : Engine) (w : Word) (r : Reg) : g.KeepsCommand (g.writeReg w r) := by
  cases r <;> exact ⟨rfl, rfl, rfl, rfl, rfl, rfl⟩

/-- Settles O7: the write replaces the engine by `Engine.writeReg`. -/
theorem registerWritesReadBack : Obligations.RegisterWritesReadBack := by
  intro s e g w r hg hi hcmd hstatus
  refine ⟨g.writeReg w r, State.regWrite_register w hcmd hg hi, g.writeReg_status w hstatus,
    g.writeReg_keepsCommand w r, fun q => ?_⟩
  by_cases hq : q = r
  · rw [if_pos hq, hq, g.readReg_writeReg_same _ w hcmd hstatus]
  · rw [if_neg hq, g.readReg_writeReg_other _ w hq]

/-! ### The places of the fields -/

theorem Status.getLsbD_word_of_le (t : Status) {i : Nat} (hi : 4 ≤ i) :
    t.word.getLsbD i = if i < 8 then false else t.errCode.getLsbD (i - 8) := by
  rw [t.getLsbD_word, if_neg (by omega), if_neg (by omega), if_neg (by omega), if_neg (by omega)]

theorem Status.word_errCode (t : Status) : t.word.extractLsb' 8 4 = t.errCode := by
  refine BitVec.eq_of_getLsbD_eq fun i hi => ?_
  rw [BitVec.getLsbD_extractLsb', t.getLsbD_word_of_le (by omega)]
  simp [hi]

/-- Settles O9: `STATUS` bit by bit (`Status.getLsbD_word`), and `IRQ_EN` as its bits. -/
theorem statusWordLayout : Obligations.StatusWordLayout := by
  refine ⟨fun t => ⟨?_, ?_, ?_, ?_, t.word_errCode, ?_, ?_⟩, fun en => ⟨?_, ?_⟩⟩
  · exact t.getLsbD_word 0
  · exact t.getLsbD_word 1
  · exact t.getLsbD_word 2
  · exact t.getLsbD_word 3
  · refine BitVec.eq_of_getLsbD_eq fun i hi => ?_
    rw [BitVec.getLsbD_extractLsb', t.getLsbD_word_of_le (by omega)]
    simp [hi, show 4 + i < 8 by omega]
  · refine BitVec.eq_of_getLsbD_eq fun i hi => ?_
    have hhigh : t.errCode.getLsbD (12 + i - 8) = false := BitVec.getLsbD_of_ge _ _ (by omega)
    rw [BitVec.getLsbD_extractLsb', t.getLsbD_word_of_le (by omega)]
    simp [hhigh, show ¬ 12 + i < 8 by omega]
  · refine BitVec.eq_of_getLsbD_eq fun i hi => ?_
    rw [BitVec.getLsbD_extractLsb', irqEnWord_getLsbD]
    simp [hi]
  · refine BitVec.eq_of_getLsbD_eq fun i hi => ?_
    rw [BitVec.getLsbD_extractLsb', irqEnWord_getLsbD, BitVec.getLsbD_of_ge _ _ (by omega)]
    simp

/-! ### Waiting and checking -/

/-- A `WAIT` reads its register once, and puts itself back while it is not met (R97). -/
theorem State.runStmt_wait_reg {s : State} {e : Nat} {g : Engine} (r : Reg) (mask val : Word)
    (hp : s.params.wf = true) (he : e < s.params.numEngines) (hg : s.engines[e]? = some g) :
    s.runStmt (.wait (s.params.reg e r) mask val) =
      .next (if s.regValue g r &&& mask = val then s.drawn
        else { s.drawn with program := .wait (s.params.reg e r) mask val :: s.program }) := by
  rw [State.runStmt, State.access_reg r hp he, State.regRead_eq hg]
  rfl

/-- Settles O11: the access resolves to the register, and the value read decides. -/
theorem waitRepeatsUntilMet : Obligations.WaitRepeatsUntilMet := by
  intro s e g r mask val rest hp hg he hprog
  have hstep := (State.hostStep_cons hprog).trans
    (State.runStmt_wait_reg (s := { s with program := rest }) r mask val hp he hg)
  by_cases hmet : s.regValue g r &&& mask = val
  · rw [if_pos (show State.regValue { s with program := rest } g r &&& mask = val from hmet)] at hstep
    exact ⟨_, hstep, rfl, rfl, rfl, fun _ => rfl, fun hn => absurd hmet hn⟩
  · rw [if_neg (show ¬ State.regValue { s with program := rest } g r &&& mask = val from hmet)] at hstep
    exact ⟨_, hstep, rfl, rfl, rfl, fun hm => absurd hm hmet, fun _ => hprog.symm⟩

theorem statusError_word (t : Status) :
    statusError t.word =
      if t.err then if t.errCode = 7#4 then some (.platformFailure 7#4) else some .invalidParameter
      else if t.done then none else some (.platformFailure 0#4) := by
  rw [statusError, t.word_errCode, t.getLsbD_word, t.getLsbD_word]
  rfl

/-- A `STATUS` read after a command without error lets the derivation go on (R230). -/
theorem State.runStmt_checkStatus {s : State} {e : Nat} {g : Engine} (hp : s.params.wf = true)
    (he : e < s.params.numEngines) (hg : s.engines[e]? = some g) (hi : g.inReset = false) :
    s.runStmt (.checkStatus (s.params.reg e .status)) =
      .next (match statusError g.status.word with
        | none => s.drawn
        | some err => { s.drawn with program := dropDerivation s.program }.result (.failed err)) := by
  rw [State.runStmt, State.access_reg .status hp he, State.regRead_eq hg, s.regValue_of_released .status hi]
  rfl

/-- Settles O57: `statusError` on the word of a failed and of a completed command, and the host's step on an error. -/
theorem engineErrorsReachTheHost : Obligations.EngineErrorsReachTheHost := by
  refine ⟨fun t c => ?failed, fun t hdone herr => ?done, fun s e g err hp he hg hi herr => ?host⟩
  case failed =>
    rw [statusError_word]
    cases c <;> rfl
  case done => simp [statusError_word, hdone, herr]
  case host =>
    have hstep := State.runStmt_checkStatus hp he hg hi
    rw [herr] at hstep
    exact ⟨_, hstep, rfl, rfl, rfl, rfl⟩

/-! ### The first command after reset -/

/-- With r = 0 a `BLOCKMIX` or `ROMIX` is rejected with `BAD_R` (R114, R293). -/
theorem validate_reset_badR (rMax : Nat) {w : Word} (hw : w = encode .blockmix ∨ w = encode .romix) :
    validate rMax w (Engine.reset.latch w) = some .badR := by
  have hnat : w.toNat = 2 ∨ w.toNat = 3 := by
    rcases hw with rfl | rfl
    · exact .inl rfl
    · exact .inr rfl
  rw [validate_of_command rMax _ (by omega), if_pos]
  exact ⟨by omega, fun h => h.1 rfl⟩

theorem validate_reset_salsa8 (rMax : Nat) :
    validate rMax (encode .salsa8) (Engine.reset.latch (encode .salsa8)) = none :=
  validate_command rfl nofun nofun ⟨rfl, rfl, nofun⟩ ⟨by decide, by decide, nofun⟩ ⟨.inl rfl, nofun⟩

/-- Settles O37: the checks of R114 at the reset values decide between rejection and acceptance. -/
theorem firstCommandAfterReset : Obligations.FirstCommandAfterReset := by
  intro p e w _ he
  have hg : ({ State.resetWith p with target := e } : State).engines[e]? = some Engine.reset :=
    State.resetWith_getElem? p he
  have hwrite := (State.resetWith p).regWrite_cmd e w
  cases hv : validate p.rMax w (Engine.reset.latch w) with
  | some c =>
    refine ⟨_, _, hwrite.trans (State.submit_of_rejected hg rfl hv), State.setEngine_getElem?_self hg _,
      fun hw => ?_, fun hw => ?_⟩
    · obtain rfl : ErrCode.badR = c := Option.some.inj ((validate_reset_badR p.rMax hw).symm.trans hv)
      exact (show (Status.reset.cleared.failed .badR).word = 0x00000204#32 by decide)
    · subst hw
      cases (validate_reset_salsa8 p.rMax).symm.trans hv
  | none =>
    refine ⟨_, _, hwrite.trans (State.submit_of_valid hg rfl hv), State.accepted_getElem?_self hg _ _,
      fun hw => ?_, fun hw => ?_⟩
    · cases (validate_reset_badR p.rMax hw).symm.trans hv
    · exact ⟨(show Status.reset.cleared.accepted.word = 0x00000001#32 by decide), rfl, rfl⟩

end Sys2Proof.Machine
end

section
/-! PROOFS. Memory as data (spec/20_memory.md R60 to R64): the canonical form, words of bytes in address order, and the
host's stores and loads. -/

namespace Sys2Proof.Machine

/-! ### The canonical form -/

theorem Memory.read_cons_same (a : Nat) (v : Byte) (m : Memory) : Memory.read ((a, v) :: m) a = v := by
  simp [Memory.read]

theorem Memory.read_cons_other {a b : Nat} (v : Byte) (m : Memory) (h : b ≠ a) :
    Memory.read ((b, v) :: m) a = m.read a := by
  simp [Memory.read, h]

/-- In canonical memory the first entry stands at the least address that reads other than an unlisted one. -/
theorem Memory.head_le_of_read_ne {a b : Nat} {v : Byte} {m : Memory} (hm : Memory.wf ((a, v) :: m) = true)
    (hb : Memory.read ((a, v) :: m) b ≠ Memory.unlisted) : a ≤ b := by
  obtain ⟨-, -, hlt, -⟩ := (Memory.wf_cons a v m).1 hm
  by_contra hba
  refine hb (Memory.read_of_lt fun c hc => ?_)
  rcases List.mem_cons.1 hc with rfl | hc
  · exact not_le.1 hba
  · exact (not_le.1 hba).trans (hlt c hc)

/-- Canonical memories that read the same are the same data. -/
theorem Memory.ext_of_read {m m' : Memory} (hm : m.wf = true) (hm' : m'.wf = true)
    (h : ∀ a, m.read a = m'.read a) : m = m' := by
  induction m generalizing m' with
  | nil =>
    cases m' with
    | nil => rfl
    | cons c m' =>
      obtain ⟨b, u⟩ := c
      obtain ⟨-, hu, -, -⟩ := (Memory.wf_cons b u m').1 hm'
      exact absurd ((h b).trans (Memory.read_cons_same b u m')).symm hu
  | cons c m ih =>
    obtain ⟨a, v⟩ := c
    obtain ⟨-, hv, hlt, hwf⟩ := (Memory.wf_cons a v m).1 hm
    cases m' with
    | nil => exact absurd ((Memory.read_cons_same a v m).symm.trans (h a)) hv
    | cons c m' =>
      obtain ⟨b, u⟩ := c
      obtain ⟨-, hu, hlt', hwf'⟩ := (Memory.wf_cons b u m').1 hm'
      have hab : a ≤ b := Memory.head_le_of_read_ne hm (by rwa [h b, Memory.read_cons_same])
      have hba : b ≤ a := Memory.head_le_of_read_ne hm' (by rwa [← h a, Memory.read_cons_same])
      obtain rfl : a = b := le_antisymm hab hba
      obtain rfl : v = u := by simpa only [Memory.read_cons_same] using h a
      refine congrArg _ (ih hwf hwf' fun x => ?_)
      by_cases hx : a = x
      · subst hx
        rw [Memory.read_of_lt hlt, Memory.read_of_lt hlt']
      · simpa only [Memory.read_cons_other _ _ hx] using h x

/-- Settles O49: canonical memory is determined by its reads, and a write of the byte that is read changes none. -/
theorem equalMemoriesAreEqualData : Obligations.EqualMemoriesAreEqualData := by
  refine ⟨fun m m' => Memory.ext_of_read, fun m a v hm ha => ⟨Memory.write_wf v ha hm, fun hv => ?_⟩⟩
  refine Memory.ext_of_read (Memory.write_wf v ha hm) hm fun x => ?_
  by_cases hx : x = a
  · rw [hx, Memory.read_write_same a v hm, hv]
  · exact Memory.read_write_other v hx

/-! ### Words of memory -/

theorem Memory.wordAt_readBytes (m : Memory) (a : Nat) :
    wordAt (m.readBytes a 4) 0 = le32 (m.read a) (m.read (a + 1)) (m.read (a + 2)) (m.read (a + 3)) := rfl

/-- Settles O51: the four bytes in address order, which `leBytes` takes out of the word again. -/
theorem portWordsAreLittleEndian : Obligations.PortWordsAreLittleEndian := by
  intro m a
  refine ⟨m.wordAt_readBytes a, fun k hk => ?_⟩
  have hbytes := leBytes_le32 (m.read a) (m.read (a + 1)) (m.read (a + 2)) (m.read (a + 3))
  simp only [leBytes, List.cons.injEq, and_true] at hbytes
  obtain ⟨h0, h1, h2, h3⟩ := hbytes
  rw [m.wordAt_readBytes a]
  match k, hk with
  | 0, _ => exact h0
  | 1, _ => exact h1
  | 2, _ => exact h2
  | 3, _ => exact h3

/-! ### Stores and loads of the host -/

section idle
variable {s : State} (hidle : ∀ g ∈ s.engines, g.running = false)
include hidle

theorem taintIf_of_idle (p : Latched → Bool) : taintIf p s.engines = s.engines :=
  (List.map_congr_left fun g hg => by simp [hidle g hg]).trans (List.map_id _)

/-- Where no command runs a store changes no engine. -/
theorem State.hostWrite_engines_of_idle (a : Nat) (bs : Bytes) : (s.hostWrite a bs).engines = s.engines :=
  (s.hostWrite_engines a bs).trans (taintIf_of_idle hidle _)

/-- Where no command runs a load returns what memory holds. -/
theorem State.hostRead_of_idle (a n : Nat) : s.hostRead a n = s.mem.readBytes a n := by
  refine List.map_congr_left fun k _ => if_neg ?_
  rw [s.inFlight_iff]
  rintro ⟨g, hg, hr, -⟩
  rw [hidle g hg] at hr
  cases hr

end idle

theorem State.loadAt_of_le {s : State} {a n : Nat} (h : a + n ≤ 2 ^ 32) (f : Bytes → State → State) :
    s.loadAt a n f = .next (f (s.hostRead a n) { s with freeCount := s.freeCount + n }) :=
  if_pos (inMemory_of_le h)

theorem not_inMemory {a n : Nat} (h : 2 ^ 32 < a + n) : ¬ inMemory a n = true := fun hin =>
  (inMemory_iff.1 hin).not_gt h

/-- Settles O50: a load after a store reads the bytes written; outside the address space both fault. -/
theorem storesAreLoaded : Obligations.StoresAreLoaded := by
  refine ⟨fun s a bs rest hm hprog hidle hin => ?stored, fun s a bs rest hprog hout => ?store,
    fun s a n rest hprog hout => ?load⟩
  case stored =>
    have hstore := (State.hostStep_cons hprog).trans (State.storeAt_of_le hin)
    have heng := State.hostWrite_engines_of_idle (s := { s with program := .ldb a bs.length :: rest }) hidle a bs
    set t := State.hostWrite { s with program := .ldb a bs.length :: rest } a bs
    have hload := (State.hostStep_cons (s := t) rfl).trans
      (State.loadAt_of_le (n := bs.length) hin fun bs t => t.result (.bytes bs))
    refine ⟨t, _, hstore, hload, rfl, ?_, heng, s.mem.writeBytes_keepsOthers a bs⟩
    rw [State.hostRead_of_idle (s := { t with program := rest }) (fun g hg => hidle g (heng ▸ hg))]
    exact congrArg (HostResult.bytes · :: s.log) (Memory.readBytes_writeBytes hin hm)
  case store =>
    rw [State.hostStep_cons hprog]
    exact if_neg (not_inMemory hout)
  case load =>
    rw [State.hostStep_cons hprog]
    exact if_neg (not_inMemory hout)

end Sys2Proof.Machine
end

section
/-! PROOFS. `PBKDF2` with an HMAC that may fail (spec/44_host_kdf.md R226, R231): what succeeds has the length asked
for. -/

namespace Sys2Proof.Machine

section mac
variable {mac : Bytes → Option Bytes} {L : Nat} (hmac : ∀ m u, mac m = some u → u.length = L)
include hmac

theorem pbkdf2Chain_length {n : Nat} {u acc f : Bytes} (hacc : acc.length = L)
    (h : pbkdf2Chain mac n u acc = some f) : f.length = L := by
  induction n generalizing u acc with
  | zero => exact Option.some.inj h ▸ hacc
  | succ n ih =>
    cases hu : mac u with
    | none => simp [pbkdf2Chain, hu] at h
    | some u' =>
      simp only [pbkdf2Chain, hu] at h
      exact ih (by rw [xorBytes_length, hacc, hmac u u' hu, Nat.min_self]) h

theorem pbkdf2Block_length {salt f : Bytes} {c i : Nat} (h : pbkdf2Block mac salt c i = some f) : f.length = L := by
  cases hu : mac (salt ++ bigEndianU32 i) with
  | none => simp [pbkdf2Block, hu] at h
  | some u =>
    simp only [pbkdf2Block, hu] at h
    exact pbkdf2Chain_length hmac (hmac _ u hu) h

/-- The blocks that were computed are as many as asked for, each of the hash's length. -/
theorem pbkdf2Blocks_shape {salt : Bytes} {c i n : Nat} {fs : List Bytes} (h : pbkdf2Blocks mac salt c i n = some fs) :
    fs.length = n ∧ ∀ x ∈ fs, x.length = L := by
  induction n generalizing i fs with
  | zero => simp [← Option.some.inj h]
  | succ n ih =>
    cases hf : pbkdf2Block mac salt c i with
    | none => simp [pbkdf2Blocks, hf] at h
    | some f =>
      cases hrest : pbkdf2Blocks mac salt c (i + 1) n with
      | none => simp [pbkdf2Blocks, hf, hrest] at h
      | some rest =>
        simp only [pbkdf2Blocks, hf, hrest] at h
        obtain rfl := Option.some.inj h
        obtain ⟨hlen, hall⟩ := ih hrest
        exact ⟨by simp [hlen], List.forall_mem_cons.2 ⟨pbkdf2Block_length hmac hf, hall⟩⟩

end mac

theorem Hmac.call_length {hmac : Hmac} {h : Hash} {key m u : Bytes} (hu : hmac.call h key m = some u) :
    u.length = h.hLen := by
  obtain ⟨v, -, rfl⟩ := Option.map_eq_some_iff.1 hu
  simp

/-- A key that `PBKDF2` returns has the length asked for (R231). -/
theorem pbkdf2_length {hmac : Hmac} {P S dk : Bytes} {c d : Nat} {h : Hash} (hd : 1 ≤ d)
    (hdk : pbkdf2 hmac P S c d h = .ok dk) : dk.length = d := by
  obtain ⟨hone, hlow, hhigh⟩ := pbkdf2Count_spec hd h.hLen_pos
  cases hfs : pbkdf2Blocks (hmac.call h (hmacKey P h)) S c 1 (pbkdf2Count d h.hLen) with
  | none => simp [pbkdf2, hfs] at hdk
  | some fs =>
    obtain ⟨hcount, hlen⟩ := pbkdf2Blocks_shape (fun _ _ => Hmac.call_length) hfs
    simp only [pbkdf2, hfs, Except.ok.injEq] at hdk
    rw [← hdk, pbkdf2Join_eq_take hlen hcount hone hlow.le]
    exact List.length_take_of_le (hhigh.trans_eq (length_flatten_of_block hlen hcount).symm)

theorem pbkdf2_cases (hmac : Hmac) (P S : Bytes) (c d : Nat) (h : Hash) :
    (∃ dk, pbkdf2 hmac P S c d h = .ok dk) ∨ pbkdf2 hmac P S c d h = .error .underlyingPrimitiveFailure := by
  unfold pbkdf2
  split
  · exact .inr rfl
  · exact .inl ⟨_, rfl⟩

/-- Where the first call fails `PBKDF2` fails (R226). -/
theorem pbkdf2_of_first_failure {hmac : Hmac} {P S : Bytes} {h : Hash} (c : Nat) {d : Nat} (hd : 1 ≤ d)
    (hfail : hmac h (hmacKey P h) (S ++ bigEndianU32 1) = none) :
    pbkdf2 hmac P S c d h = .error .underlyingPrimitiveFailure := by
  obtain ⟨n, hn⟩ := Nat.exists_eq_add_of_le' (pbkdf2Count_spec hd h.hLen_pos).1
  have hblock : pbkdf2Block (hmac.call h (hmacKey P h)) S c 1 = none := by simp [pbkdf2Block, Hmac.call, hfail]
  simp [pbkdf2, hn, pbkdf2Blocks, hblock]

/-- Settles O54: a result has the length asked for, and a failure of the first call is passed on. -/
theorem pbkdf2PassesFailuresOn : Obligations.Pbkdf2PassesFailuresOn := by
  intro hmac P S c d h hd
  exact ⟨(pbkdf2_cases hmac P S c d h).imp_left fun ⟨dk, hdk⟩ => ⟨dk, hdk, pbkdf2_length hd hdk⟩,
    pbkdf2_of_first_failure c hd⟩

end Sys2Proof.Machine
end

section
/-! PROOFS. The host's mixing plans (spec/44_host_kdf.md R229): a plan that is accepted is one whose every move fits
what was made before it, and that ends with each SuperBlock started and collected. -/

namespace Sys2Proof

/-- The move is one that R229 allows after the moves `pre`: a start of a SuperBlock not yet started on an engine that
has no other to be collected, or the collection of one that runs. -/
def MixMove.Fits (slots : List Slot) (pre : List MixMove) : MixMove → Prop
  | .start k =>
    ∃ s, slots[k]? = some s ∧ .start k ∉ pre ∧
      ∀ l, .start l ∈ pre → .collect l ∉ pre → ∀ o, slots[l]? = some o → o.engine ≠ s.engine
  | .collect k => .start k ∈ pre ∧ .collect k ∉ pre

/-- A plan at whose end each SuperBlock was started, and each that was started was collected. -/
def planEnds (slots : List Slot) (plan : List MixMove) : Prop :=
  (∀ k, k < slots.length → .start k ∈ plan) ∧ ∀ k, .start k ∈ plan → .collect k ∈ plan

/-! ### The checks of a plan, move by move -/

/-- The lists `planOk` carries say what the moves `pre` have done. -/
structure PlanState (slots : List Slot) (pre : List MixMove) (started busy : List Nat) : Prop where
  mem_started : ∀ k, k ∈ started ↔ .start k ∈ pre
  mem_busy : ∀ k, k ∈ busy ↔ .start k ∈ pre ∧ .collect k ∉ pre
  collected : ∀ k, .collect k ∈ pre → .start k ∈ pre
  inSlots : ∀ k ∈ started, k < slots.length
  startedNodup : started.Nodup
  busyNodup : busy.Nodup

section planOk
variable {slots : List Slot} {started busy : List Nat} {k : Nat} {ms : List MixMove}

theorem planOk_start_iff : planOk slots started busy (.start k :: ms) = true ↔
    ∃ s, slots[k]? = some s ∧ k ∉ started ∧ (∀ l ∈ busy, ∀ o, slots[l]? = some o → o.engine ≠ s.engine) ∧
      planOk slots (k :: started) (k :: busy) ms = true := by
  cases hk : slots[k]? with
  | none => simp [planOk, hk]
  | some s =>
    have hall : (busy.filterMap fun l => slots[l]?).all (fun o => decide (o.engine ≠ s.engine)) = true ↔
        ∀ l ∈ busy, ∀ o, slots[l]? = some o → o.engine ≠ s.engine := by
      simp only [List.all_eq_true, List.mem_filterMap, decide_eq_true_eq, forall_exists_index, and_imp]
      exact ⟨fun h l hl o ho => h o l hl ho, fun h o l hl ho => h l hl o ho⟩
    simp only [planOk, hk, Bool.and_eq_true, hall, Option.some.injEq, exists_eq_left']
    simp [and_assoc]

theorem planOk_collect_iff : planOk slots started busy (.collect k :: ms) = true ↔
    k ∈ busy ∧ planOk slots started (busy.erase k) ms = true := by
  simp [planOk]

variable {pre : List MixMove} (h : PlanState slots pre started busy)
include h

theorem PlanState.fits_start_iff : MixMove.Fits slots pre (.start k) ↔
    ∃ s, slots[k]? = some s ∧ k ∉ started ∧ ∀ l ∈ busy, ∀ o, slots[l]? = some o → o.engine ≠ s.engine := by
  simp only [MixMove.Fits, h.mem_started, h.mem_busy, and_imp]

theorem PlanState.fits_collect_iff : MixMove.Fits slots pre (.collect k) ↔ k ∈ busy := (h.mem_busy k).symm

theorem PlanState.start (hlt : k < slots.length) (hk : k ∉ started) :
    PlanState slots (pre ++ [.start k]) (k :: started) (k :: busy) := by
  have hpre : MixMove.start k ∉ pre := fun hmem => hk ((h.mem_started k).2 hmem)
  have hcol : MixMove.collect k ∉ pre := fun hmem => hpre (h.collected k hmem)
  refine ⟨fun l => ?_, fun l => ?_, fun l hl => ?_, ?_, List.nodup_cons.2 ⟨hk, h.startedNodup⟩,
    List.nodup_cons.2 ⟨fun hb => hpre ((h.mem_busy k).1 hb).1, h.busyNodup⟩⟩
  · simp [h.mem_started l, or_comm]
  · by_cases hl : l = k
    · simp [hl, hcol]
    · simp [hl, h.mem_busy l]
  · simp only [List.mem_append, List.mem_singleton, reduceCtorEq, or_false] at hl ⊢
    exact .inl (h.collected l hl)
  · exact List.forall_mem_cons.2 ⟨hlt, h.inSlots⟩

theorem PlanState.collect (hk : k ∈ busy) : PlanState slots (pre ++ [.collect k]) started (busy.erase k) := by
  refine ⟨fun l => ?_, fun l => ?_, fun l hl => ?_, h.inSlots, h.startedNodup, h.busyNodup.erase k⟩
  · simp [h.mem_started l]
  · rw [h.busyNodup.mem_erase_iff, h.mem_busy l]
    simp
    tauto
  · simp only [List.mem_append, List.mem_singleton, reduceCtorEq, or_false, MixMove.collect.injEq] at hl ⊢
    rcases hl with hl | rfl
    · exact h.collected l hl
    · exact ((h.mem_busy l).1 hk).1

/-- Where no move is left, the check is that the plan has ended. -/
theorem PlanState.planOk_nil : planOk slots started busy [] = true ↔ planEnds slots pre := by
  have hbusy : busy = [] ↔ ∀ k, .start k ∈ pre → .collect k ∈ pre := by
    simp [List.eq_nil_iff_forall_not_mem, h.mem_busy]
  have hsub : started ⊆ List.range slots.length := fun k hk => List.mem_range.2 (h.inSlots k hk)
  have hsubperm : started.Subperm (List.range slots.length) := List.subperm_of_subset h.startedNodup hsub
  have hall : started.length = slots.length ↔ ∀ k, k < slots.length → .start k ∈ pre := by
    constructor
    · intro hlen k hk
      have hperm := hsubperm.perm_of_length_le (by simp [hlen])
      exact (h.mem_started k).1 (hperm.mem_iff.2 (List.mem_range.2 hk))
    · intro hstart
      have hsup : (List.range slots.length).Subperm started :=
        List.subperm_of_subset List.nodup_range fun k hk => (h.mem_started k).2 (hstart k (List.mem_range.1 hk))
      simpa using (hsubperm.antisymm hsup).length_eq
  simp [planOk, planEnds, hbusy, hall, and_comm]

end planOk

theorem forall_getElem?_cons {α : Type} {m : α} {ms : List α} {P : Nat → α → Prop} :
    (∀ i x, (m :: ms)[i]? = some x → P i x) ↔ P 0 m ∧ ∀ i x, ms[i]? = some x → P (i + 1) x := by
  constructor
  · exact fun h => ⟨h 0 m rfl, fun i x hx => h (i + 1) x hx⟩
  · rintro ⟨h0, hs⟩ i x hx
    cases i with
    | zero => exact Option.some.inj hx ▸ h0
    | succ i => exact hs i x hx

/-- A plan is accepted exactly where each of its moves fits the moves before it, and it ends. -/
theorem PlanState.planOk_iff {slots : List Slot} {pre ms : List MixMove} {started busy : List Nat}
    (h : PlanState slots pre started busy) : planOk slots started busy ms = true ↔
      (∀ i m, ms[i]? = some m → MixMove.Fits slots (pre ++ ms.take i) m) ∧ planEnds slots (pre ++ ms) := by
  induction ms generalizing pre started busy with
  | nil => simpa using h.planOk_nil
  | cons m ms ih =>
    have hshift (i : Nat) : pre ++ (m :: ms).take (i + 1) = pre ++ [m] ++ ms.take i := by simp
    have hwhole : pre ++ m :: ms = pre ++ [m] ++ ms := by simp
    rw [forall_getElem?_cons, List.take_zero, List.append_nil, hwhole]
    simp only [hshift]
    cases m with
    | start k =>
      rw [planOk_start_iff, h.fits_start_iff]
      constructor
      · rintro ⟨s, hs, hk, hbusy, hok⟩
        have hrest := (ih (h.start (List.getElem?_eq_some_iff.1 hs).1 hk)).1 hok
        exact ⟨⟨⟨s, hs, hk, hbusy⟩, hrest.1⟩, hrest.2⟩
      · rintro ⟨⟨⟨s, hs, hk, hbusy⟩, hfits⟩, hends⟩
        exact ⟨s, hs, hk, hbusy, (ih (h.start (List.getElem?_eq_some_iff.1 hs).1 hk)).2 ⟨hfits, hends⟩⟩
    | collect k =>
      rw [planOk_collect_iff, h.fits_collect_iff, and_assoc]
      exact and_congr_right fun hk => ih (h.collect hk)

theorem planOk_iff (slots : List Slot) (plan : List MixMove) : planOk slots [] [] plan = true ↔
    (∀ i m, plan[i]? = some m → MixMove.Fits slots (plan.take i) m) ∧ planEnds slots plan := by
  have hnil : PlanState slots [] [] [] :=
    ⟨by simp, by simp, by simp, by simp, List.nodup_nil, List.nodup_nil⟩
  simpa using hnil.planOk_iff (ms := plan)

/-! ### The places of the moves -/

theorem mem_take_iff {α : Type} {l : List α} {x : α} {n : Nat} : x ∈ l.take n ↔ ∃ i < n, l[i]? = some x := by
  rw [List.mem_iff_getElem?]
  refine exists_congr fun i => ?_
  rw [List.getElem?_take]
  split <;> simp [*]

/-- A start and a collection for each SuperBlock. -/
def allMoves (n : Nat) : List MixMove := (List.range n).map .start ++ (List.range n).map .collect

@[simp] theorem allMoves_length (n : Nat) : (allMoves n).length = 2 * n := by
  simp [allMoves]
  omega

@[simp] theorem start_mem_allMoves {n k : Nat} : .start k ∈ allMoves n ↔ k < n := by simp [allMoves]

@[simp] theorem collect_mem_allMoves {n k : Nat} : .collect k ∈ allMoves n ↔ k < n := by simp [allMoves]

theorem allMoves_nodup (n : Nat) : (allMoves n).Nodup := by
  refine List.nodup_append'.2 ⟨List.nodup_range.map fun _ _ => MixMove.start.inj,
    List.nodup_range.map fun _ _ => MixMove.collect.inj, ?_⟩
  simp [List.disjoint_left]

/-- A move stands at one place of a plan without repetition. -/
theorem getElem?_unique {α : Type} {l : List α} (hl : l.Nodup) {i j : Nat} {x : α} (hi : l[i]? = some x)
    (hj : l[j]? = some x) : i = j :=
  (List.getElem?_inj (List.getElem?_eq_some_iff.1 hi).1 hl).1 (hi.trans hj.symm)

section fits
variable {slots : List Slot} {plan : List MixMove}

/-- In a plan whose moves fit, no move comes twice. -/
theorem nodup_of_fits (h : ∀ i m, plan[i]? = some m → MixMove.Fits slots (plan.take i) m) : plan.Nodup := by
  refine List.nodup_iff_getElem?_ne_getElem?.2 fun i j hij hj heq => ?_
  obtain ⟨m, hm⟩ : ∃ m, plan[j]? = some m := ⟨_, List.getElem?_eq_getElem hj⟩
  have hmem : m ∈ plan.take j := mem_take_iff.2 ⟨i, hij, heq.trans hm⟩
  have hfit := h j m hm
  cases m with
  | start k =>
    obtain ⟨s, -, hnew, -⟩ := hfit
    exact hnew hmem
  | collect k => exact hfit.2 hmem

/-- A plan whose moves fit and that ends makes each move once. -/
theorem perm_allMoves_of_fits (h : ∀ i m, plan[i]? = some m → MixMove.Fits slots (plan.take i) m)
    (hends : planEnds slots plan) : plan.Perm (allMoves slots.length) := by
  obtain ⟨hstarts, hcollects⟩ := hends
  have hstart {k : Nat} (hk : .start k ∈ plan) : k < slots.length := by
    obtain ⟨i, hi⟩ := List.mem_iff_getElem?.1 hk
    obtain ⟨s, hs, -⟩ := h i _ hi
    exact (List.getElem?_eq_some_iff.1 hs).1
  have hcollect {k : Nat} (hk : .collect k ∈ plan) : .start k ∈ plan := by
    obtain ⟨i, hi⟩ := List.mem_iff_getElem?.1 hk
    exact List.mem_of_mem_take (h i _ hi).1
  refine (List.perm_ext_iff_of_nodup (nodup_of_fits h) (allMoves_nodup _)).2 fun m => ?_
  cases m with
  | start k => exact ⟨fun hk => start_mem_allMoves.2 (hstart hk), fun hk => hstarts k (start_mem_allMoves.1 hk)⟩
  | collect k =>
    exact ⟨fun hk => collect_mem_allMoves.2 (hstart (hcollect hk)),
      fun hk => hcollects k (hstarts k (collect_mem_allMoves.1 hk))⟩

/-- Of two SuperBlocks on one engine, one that starts later starts after the other's collection. -/
theorem collect_lt_start_of_fits (h : ∀ i m, plan[i]? = some m → MixMove.Fits slots (plan.take i) m) {k l i j i' : Nat}
    {s o : Slot} (hs : slots[k]? = some s) (ho : slots[l]? = some o) (heng : o.engine = s.engine)
    (hi : plan[i]? = some (.start k)) (hj : plan[j]? = some (.collect k)) (hi' : plan[i']? = some (.start l))
    (hlt : i < i') : j < i' := by
  obtain ⟨o', ho', -, hapart⟩ := h i' _ hi'
  obtain rfl : o = o' := Option.some.inj (ho.symm.trans ho')
  by_contra hle
  refine hapart k (mem_take_iff.2 ⟨i, hlt, hi⟩) (fun hmem => ?_) s hs heng.symm
  obtain ⟨j₁, hj₁, hcol⟩ := mem_take_iff.1 hmem
  exact hle (getElem?_unique (nodup_of_fits h) hj hcol ▸ hj₁)

end fits

/-- The plans of R229: one start and one later collection of each SuperBlock, two on one engine never at the same
time. -/
def PlanSpec (slots : List Slot) (plan : List MixMove) : Prop :=
  ∀ (k : Nat) (s : Slot), slots[k]? = some s →
    ∃ i j, i < j ∧ plan[i]? = some (.start k) ∧ plan[j]? = some (.collect k) ∧
      ∀ (l : Nat) (o : Slot) (i' j' : Nat), l ≠ k → slots[l]? = some o → o.engine = s.engine →
        plan[i']? = some (.start l) → plan[j']? = some (.collect l) → j < i' ∨ j' < i

theorem planSpec_of_fits {slots : List Slot} {plan : List MixMove}
    (h : ∀ i m, plan[i]? = some m → MixMove.Fits slots (plan.take i) m) (hends : planEnds slots plan) :
    PlanSpec slots plan := by
  intro k s hs
  have hk : MixMove.start k ∈ plan := hends.1 k (List.getElem?_eq_some_iff.1 hs).1
  obtain ⟨j, hj⟩ := List.mem_iff_getElem?.1 (hends.2 k hk)
  obtain ⟨i, hij, hi⟩ := mem_take_iff.1 (h j _ hj).1
  refine ⟨i, j, hij, hi, hj, fun l o i' j' hlk ho heng hi' hj' => ?_⟩
  rcases lt_trichotomy i i' with hlt | rfl | hlt
  · exact .inl (collect_lt_start_of_fits h hs ho heng hi hj hi' hlt)
  · exact absurd (MixMove.start.inj (Option.some.inj (hi.symm.trans hi'))) hlk.symm
  · exact .inr (collect_lt_start_of_fits h ho hs heng.symm hi' hj' hi hlt)

/-- A plan of that kind of no more moves than needed makes each once. -/
theorem PlanSpec.perm {slots : List Slot} {plan : List MixMove} (h : PlanSpec slots plan)
    (hlen : plan.length = 2 * slots.length) : plan.Perm (allMoves slots.length) := by
  have hsub : allMoves slots.length ⊆ plan := by
    have hslot {k : Nat} (hk : k < slots.length) : .start k ∈ plan ∧ .collect k ∈ plan := by
      obtain ⟨i, j, -, hi, hj, -⟩ := h k _ (List.getElem?_eq_getElem hk)
      exact ⟨List.mem_of_getElem? hi, List.mem_of_getElem? hj⟩
    intro m hm
    cases m with
    | start k => exact (hslot (start_mem_allMoves.1 hm)).1
    | collect k => exact (hslot (collect_mem_allMoves.1 hm)).2
  exact ((List.subperm_of_subset (allMoves_nodup _) hsub).perm_of_length_le (by simp [hlen])).symm

theorem PlanSpec.fits {slots : List Slot} {plan : List MixMove} (h : PlanSpec slots plan)
    (hperm : plan.Perm (allMoves slots.length)) {n : Nat} {m : MixMove} (hn : plan[n]? = some m) :
    MixMove.Fits slots (plan.take n) m := by
  have hnodup : plan.Nodup := hperm.nodup_iff.2 (allMoves_nodup _)
  have hm : m ∈ allMoves slots.length := hperm.mem_iff.1 (List.mem_of_getElem? hn)
  have hnew : m ∉ plan.take n := fun hmem => by
    obtain ⟨n', hlt, hn'⟩ := mem_take_iff.1 hmem
    exact hlt.ne (getElem?_unique hnodup hn' hn)
  cases m with
  | start k =>
    have hs := List.getElem?_eq_getElem (start_mem_allMoves.1 hm)
    obtain ⟨i, j, hij, hi, hj, hapart⟩ := h k _ hs
    obtain rfl : i = n := getElem?_unique hnodup hi hn
    refine ⟨_, hs, hnew, fun l hstart hcol o ho heng => ?_⟩
    obtain ⟨i', hlt, hi'⟩ := mem_take_iff.1 hstart
    obtain ⟨-, j', -, -, hj', -⟩ := h l o ho
    have hlk : l ≠ k := fun hlk => hnew (hlk ▸ hstart)
    rcases hapart l o i' j' hlk ho heng hi' hj' with hlt' | hlt'
    · omega
    · exact hcol (mem_take_iff.2 ⟨j', hlt', hj'⟩)
  | collect k =>
    obtain ⟨i, j, hij, hi, hj, -⟩ := h k _ (List.getElem?_eq_getElem (collect_mem_allMoves.1 hm))
    obtain rfl : j = n := getElem?_unique hnodup hj hn
    exact ⟨mem_take_iff.2 ⟨i, hij, hi⟩, hnew⟩

theorem planEnds_of_perm {slots : List Slot} {plan : List MixMove} (hperm : plan.Perm (allMoves slots.length)) :
    planEnds slots plan :=
  ⟨fun _ hk => hperm.mem_iff.2 (start_mem_allMoves.2 hk),
    fun _ hk => hperm.mem_iff.2 (collect_mem_allMoves.2 (start_mem_allMoves.1 (hperm.mem_iff.1 hk)))⟩

/-- Settles O58: the checks say that each move fits the moves before it and that the plan ends; so each move is made
once, which is all that the length and the places of the moves leave. -/
theorem plansMixEachBlockOnce : Obligations.PlansMixEachBlockOnce := by
  intro slots plan
  rw [planOk_iff]
  constructor
  · rintro ⟨hfits, hends⟩
    exact ⟨by simp [(perm_allMoves_of_fits hfits hends).length_eq], planSpec_of_fits hfits hends⟩
  · rintro ⟨hlen, hspec⟩
    have hperm := PlanSpec.perm hspec hlen
    exact ⟨fun n m => PlanSpec.fits hspec hperm, planEnds_of_perm hperm⟩

end Sys2Proof
end

section
/-! PROOFS. A derivation that ends early (spec/44_host_kdf.md R230, R234): the statements that are left of it, and the
erasing of a table. -/

namespace Sys2Proof.Machine

/-! ### What is left of the statements -/

/-- The statement starts no SuperBlock, erases no table and ends no derivation: nothing of it is left. -/
def LeavesNothing (st : HostStmt) : Prop :=
  (∀ k a n, st ≠ .placeBlock k a n) ∧ (∀ k ref a n, st ≠ .eraseTable k ref a n) ∧ ∀ pw n, st ≠ .finishScrypt pw n

theorem dropFrom_leavesNothing {st : HostStmt} (h : LeavesNothing st) (later : List Nat) (rest : List HostStmt) :
    dropFrom later (st :: rest) = dropFrom later rest := by
  obtain ⟨hplace, herase, hfinish⟩ := h
  cases st
  case placeBlock k a n => exact absurd rfl (hplace k a n)
  case eraseTable k ref a n => exact absurd rfl (herase k ref a n)
  case finishScrypt pw n => exact absurd rfl (hfinish pw n)
  all_goals rfl

/-- The wait before the erasing of a table (R234). -/
def eraseWait (ref : RegRef) : HostStmt := .wait ref 0x00000001#32 0x00000000#32

theorem dropFrom_erase {later : List Nat} {k : Nat} (hk : k ∉ later) (ref : RegRef) (a n : Nat)
    (rest : List HostStmt) : dropFrom later (.eraseTable k ref a n :: rest) =
      eraseWait ref :: .eraseTable k ref a n :: dropFrom later rest := by
  rw [dropFrom, if_neg (by simpa using hk), eraseWait]

theorem dropFrom_erase_later {later : List Nat} {k : Nat} (hk : k ∈ later) (ref : RegRef) (a n : Nat)
    (rest : List HostStmt) : dropFrom later (.eraseTable k ref a n :: rest) = dropFrom later rest := by
  rw [dropFrom, if_pos (by simpa using hk)]

/-- `left` is what is left of `stmts` where the SuperBlocks `later` were not started: erasings with their waits, and
among them that of every table whose command was started before. -/
structure ErasesOnly (later : List Nat) (stmts left : List HostStmt) : Prop where
  only : ∀ st ∈ left, (∃ ref, st = eraseWait ref) ∨ ∃ k ref a n, st = .eraseTable k ref a n ∧ st ∈ stmts
  all : ∀ k ref a n, HostStmt.eraseTable k ref a n ∈ stmts → k ∉ later → (∀ b l, HostStmt.placeBlock k b l ∉ stmts) →
    ∃ before after, left = before ++ eraseWait ref :: .eraseTable k ref a n :: after

/-- A statement more in front of which nothing is left. -/
theorem ErasesOnly.cons_nothing {later later' : List Nat} {st : HostStmt} {stmts left : List HostStmt}
    (h : ErasesOnly later' stmts left) (herase : ∀ k ref a n, st = .eraseTable k ref a n → k ∈ later)
    (hlater : ∀ k, k ∉ later → k ∈ later' → ∃ a n, st = .placeBlock k a n) : ErasesOnly later (st :: stmts) left := by
  refine ⟨fun x hx => ?_, fun k ref a n hmem hk hplace => ?_⟩
  · refine (h.only x hx).imp_right ?_
    rintro ⟨k, ref, a, n, rfl, hmem⟩
    exact ⟨k, ref, a, n, rfl, List.mem_cons_of_mem _ hmem⟩
  · have hmem : HostStmt.eraseTable k ref a n ∈ stmts := by
      refine (List.mem_cons.1 hmem).resolve_left fun heq => hk (herase k ref a n heq.symm)
    refine h.all k ref a n hmem (fun hk' => ?_) fun b l hb => hplace b l (List.mem_cons_of_mem _ hb)
    obtain ⟨b, l, rfl⟩ := hlater k hk hk'
    exact hplace b l List.mem_cons_self

/-- An erasing more in front, which is left with its wait. -/
theorem ErasesOnly.cons_erase {later : List Nat} {stmts left : List HostStmt} (h : ErasesOnly later stmts left)
    (k : Nat) (ref : RegRef) (a n : Nat) :
    ErasesOnly later (.eraseTable k ref a n :: stmts) (eraseWait ref :: .eraseTable k ref a n :: left) := by
  refine ⟨fun x hx => ?_, fun k' ref' a' n' hmem hk hplace => ?_⟩
  · rcases List.mem_cons.1 hx with rfl | hx
    · exact .inl ⟨ref, rfl⟩
    rcases List.mem_cons.1 hx with rfl | hx
    · exact .inr ⟨k, ref, a, n, rfl, List.mem_cons_self⟩
    · refine (h.only x hx).imp_right ?_
      rintro ⟨k', ref', a', n', rfl, hmem⟩
      exact ⟨k', ref', a', n', rfl, List.mem_cons_of_mem _ hmem⟩
  · rcases List.mem_cons.1 hmem with heq | hmem
    · obtain ⟨rfl, rfl, rfl, rfl⟩ := HostStmt.eraseTable.inj heq
      exact ⟨[], left, rfl⟩
    · obtain ⟨before, after, rfl⟩ :=
        h.all k' ref' a' n' hmem hk fun b l hb => hplace b l (List.mem_cons_of_mem _ hb)
      exact ⟨eraseWait ref :: .eraseTable k ref a n :: before, after, rfl⟩

/-- What is left of a derivation's statements, in front of what follows it. -/
theorem dropFrom_erasesOnly (later : List Nat) {stmts : List HostStmt} (rest : List HostStmt) (pw : Bytes) (dkLen : Nat)
    (hno : ∀ pw' n, HostStmt.finishScrypt pw' n ∉ stmts) :
    ∃ left, dropFrom later (stmts ++ .finishScrypt pw dkLen :: rest) = left ++ rest ∧ ErasesOnly later stmts left := by
  induction stmts generalizing later with
  | nil => exact ⟨[], rfl, by simp, by simp⟩
  | cons st stmts ih =>
    have hno' : ∀ pw' n, HostStmt.finishScrypt pw' n ∉ stmts := fun pw' n hmem =>
      hno pw' n (List.mem_cons_of_mem _ hmem)
    have hother (hst : LeavesNothing st) :
        ∃ left, dropFrom later (st :: stmts ++ .finishScrypt pw dkLen :: rest) = left ++ rest ∧
          ErasesOnly later (st :: stmts) left := by
      obtain ⟨left, heq, h⟩ := ih later hno'
      exact ⟨left, (dropFrom_leavesNothing hst later _).trans heq,
        h.cons_nothing (fun k ref a n hk => absurd hk (hst.2.1 k ref a n)) fun k hk hk' => absurd hk' hk⟩
    cases st
    case placeBlock k a n =>
      obtain ⟨left, heq, h⟩ := ih (k :: later) hno'
      refine ⟨left, heq, h.cons_nothing nofun fun l hl hl' => ?_⟩
      obtain rfl := (List.mem_cons.1 hl').resolve_right hl
      exact ⟨a, n, rfl⟩
    case eraseTable k ref a n =>
      obtain ⟨left, heq, h⟩ := ih later hno'
      by_cases hk : k ∈ later
      · refine ⟨left, (dropFrom_erase_later hk ref a n _).trans heq, h.cons_nothing ?_ fun l hl hl' => absurd hl' hl⟩
        rintro _ _ _ _ ⟨⟩
        exact hk
      · exact ⟨_, (dropFrom_erase hk ref a n _).trans (congrArg (eraseWait ref :: .eraseTable k ref a n :: ·) heq),
          h.cons_erase k ref a n⟩
    case finishScrypt pw' n => exact absurd List.mem_cons_self (hno pw' n)
    all_goals exact hother ⟨nofun, nofun, nofun⟩

/-! ### The erasing of a table -/

theorem State.eraseTable_of_le {s : State} {a n : Nat} (h : a + n ≤ 2 ^ 32) :
    s.eraseTable a n = s.hostWrite a (List.replicate n 0#8) := if_pos (inMemory_of_le h)

/-- Settles O59: the statements that `dropFrom` leaves, and the erasing as a store of zeros. -/
theorem tablesAreErasedAfterAnError : Obligations.TablesAreErasedAfterAnError := by
  refine ⟨fun stmts rest pw dkLen hno => ?left, fun s k ref a n hm hidle hin => ?erase⟩
  case left =>
    obtain ⟨left, heq, hleft⟩ := dropFrom_erasesOnly [] rest pw dkLen hno
    exact ⟨left, heq, hleft.only, fun k ref a n hmem hplace =>
      hleft.all k ref a n hmem List.not_mem_nil hplace⟩
  case erase =>
    have hlen : (List.replicate n (0#8 : Byte)).length = n := List.length_replicate
    have hzeros : ((s.hostWrite a (List.replicate n 0#8)).mem).readBytes a n = List.replicate n 0#8 := by
      simpa only [hlen, State.hostWrite_mem] using
        Memory.readBytes_writeBytes (m := s.mem) (bs := List.replicate n 0#8) (by rwa [hlen]) hm
    have hkeeps := s.mem.writeBytes_keepsOthers a (List.replicate n 0#8)
    rw [hlen] at hkeeps
    refine ⟨_, congrArg _ (State.eraseTable_of_le hin), hzeros, hkeeps, State.hostWrite_engines_of_idle hidle a _,
      ⟨rfl, rfl, rfl, rfl⟩⟩

end Sys2Proof.Machine
end

section
/-! PROOFS. A whole `deriveKeyScrypt` with p = 1 (spec/44_host_kdf.md R228, R229, R233): the host's statements one by
one, with the engine's turns between the command word and the wait. -/

namespace Sys2Proof.Machine

/-! ### Runs to the end -/

/-- The run from `s` ends, with the results `log`. -/
def State.EndsWith (s : State) (log : List HostResult) : Prop :=
  ∃ k u, core.run k s = .next u ∧ u.final = true ∧ u.log = log

theorem core_run_add {k n : Nat} {s t : State} (h : core.run n s = .next t) :
    core.run (n + k) s = core.run k t := by
  induction n generalizing s with
  | zero =>
    obtain rfl := Host.Outcome.next.inj h
    rw [Nat.zero_add]
  | succ n ih =>
    cases hstep : step s with
    | next s' =>
      rw [core_run_succ hstep] at h
      rw [Nat.add_right_comm, core_run_succ hstep, ih h]
    | fault r => simp [Host.Core.run, show core.step s = .fault r from hstep] at h
    | refused r => simp [Host.Core.run, show core.step s = .refused r from hstep] at h

theorem State.EndsWith.of_run {n : Nat} {s t : State} {log : List HostResult} (h : t.EndsWith log)
    (hrun : core.run n s = .next t) : s.EndsWith log := by
  obtain ⟨k, u, hu, hfinal, hlog⟩ := h
  exact ⟨n + k, u, (core_run_add hrun).trans hu, hfinal, hlog⟩

theorem State.EndsWith.of_step {s t : State} {log : List HostResult} (h : t.EndsWith log) (hstep : step s = .next t) :
    s.EndsWith log := h.of_run (n := 1) (core_run_succ hstep)

theorem State.Inv.run {n : Nat} {s t : State} (hinv : s.Inv) (h : core.run n s = .next t) : t.Inv := by
  induction n generalizing s with
  | zero => exact Host.Outcome.next.inj h ▸ hinv
  | succ n ih =>
    cases hstep : step s with
    | next s' =>
      rw [core_run_succ hstep] at h
      exact ih (stepKeepsTheInvariant s s' hinv hstep) h
    | fault r => simp [Host.Core.run, show core.step s = .fault r from hstep] at h
    | refused r => simp [Host.Core.run, show core.step s = .refused r from hstep] at h

/-! ### The host at a statement -/

/-- The host's next statements are `prog`, its working array is `b` and its results are `log`; no command runs,
nothing is scheduled, and engine `e` holds `g`, out of reset. -/
structure State.AtStmts (t : State) (p : Params) (e : Nat) (g : Engine) (prog : List HostStmt) (b : Bytes)
    (log : List HostResult) : Prop where
  inv : t.Inv
  params : t.params = p
  schedule : t.schedule = []
  idle : ∀ o ∈ t.engines, o.running = false
  engine : t.engines[e]? = some g
  released : g.inReset = false
  program : t.program = prog
  kdfB : t.kdfB = b
  log : t.log = log

section stmts
variable {t u : State} {p : Params} {e : Nat} {g : Engine} {st : HostStmt} {rest : List HostStmt} {b : Bytes}
  {log l : List HostResult}

/-- Where no command runs and nothing is scheduled the host moves (log entry 3). -/
theorem State.AtStmts.step (h : t.AtStmts p e g (st :: rest) b log)
    (hst : State.runStmt { t with program := rest } st = .next u) : step t = .next u := by
  have hfind : t.engines.findIdx? (fun g => g.running) = none :=
    List.findIdx?_eq_none_iff.2 fun o ho => h.idle o ho
  have hturn : t.nextTurn = (.host, t) := by simp [State.nextTurn, h.schedule, State.defaultTurn, hfind]
  rw [step_of_host (by rw [hturn]), hturn, State.hostStep_cons h.program, hst]

theorem State.AtStmts.lt (h : t.AtStmts p e g rest b log) : e < t.params.numEngines :=
  h.inv.count ▸ (List.getElem?_eq_some_iff.1 h.engine).1

/-- A statement that leaves the engines alone. -/
theorem State.AtStmts.quiet (h : t.AtStmts p e g (st :: rest) b log)
    (hst : State.runStmt { t with program := rest } st = .next u) (hparams : u.params = t.params)
    (hsched : u.schedule = t.schedule) (heng : u.engines = t.engines) (hprog : u.program = rest) {b' : Bytes}
    {log' : List HostResult} (hkdfB : u.kdfB = b') (hlog : u.log = log') : u.AtStmts p e g rest b' log' :=
  ⟨stepKeepsTheInvariant t u h.inv (h.step hst), hparams.trans h.params, hsched.trans h.schedule,
    heng ▸ h.idle, heng ▸ h.engine, h.released, hprog, hkdfB, hlog⟩

/-- Storing a SuperBlock of the working array (R229). -/
theorem State.AtStmts.endsWith_place {k a len : Nat} (h : t.AtStmts p e g (.placeBlock k a len :: rest) b log)
    (hlen : (superBlock b k len).length = len) (hin : a + len ≤ 2 ^ 32)
    (hnext : ∀ u : State, u.AtStmts p e g rest b log → u.mem.readBytes a len = superBlock b k len → u.EndsWith l) :
    t.EndsWith l := by
  have hin' : a + (superBlock b k len).length ≤ 2 ^ 32 := by rwa [hlen]
  have hst : State.runStmt { t with program := rest } (.placeBlock k a len) =
      .next (State.hostWrite { t with program := rest } a (superBlock b k len)) := by
    rw [State.runStmt, h.kdfB, State.storeAt_of_le hin']
  have hquiet := h.quiet hst rfl rfl (State.hostWrite_engines_of_idle h.idle _ _) rfl h.kdfB h.log
  have hread := Memory.readBytes_writeBytes hin' h.inv.mem
  rw [hlen] at hread
  exact (hnext _ hquiet hread).of_step (h.step hst)

/-- Writing a parameter register. -/
theorem State.AtStmts.endsWith_wr {r : Reg} {w : Word} (h : t.AtStmts p e g (.wr (p.reg e r) w :: rest) b log)
    (hr : r ≠ .cmd) (hnext : ∀ u : State, u.AtStmts p e (g.writeReg w r) rest b log → u.mem = t.mem → u.EndsWith l) :
    t.EndsWith l := by
  have hst : State.runStmt { t with program := rest } (.wr (p.reg e r) w) =
      .next (State.setEngine { t with program := rest } e (g.writeReg w r)) := by
    rw [State.runStmt, ← h.params, State.access_reg (s := { t with program := rest }) r h.inv.params h.lt]
    exact State.regWrite_register w hr h.engine h.released
  have hsame := g.writeReg_keepsCommand w r
  have hrun : (g.writeReg w r).running = false :=
    (Engine.running_of_phase hsame.phase).trans (h.idle g (List.mem_of_getElem? h.engine))
  refine (hnext _ ⟨stepKeepsTheInvariant t _ h.inv (h.step hst), h.params, h.schedule, fun o ho => ?_,
    State.setEngine_getElem?_self h.engine _, hsame.inReset.trans h.released, rfl, h.kdfB, h.log⟩ rfl).of_step
    (h.step hst)
  rcases List.mem_or_eq_of_mem_set ho with ho | rfl
  · exact h.idle o ho
  · exact hrun

theorem State.AtStmts.not_busy (h : t.AtStmts p e g rest b log) : g.status.busy = false :=
  (h.inv.engineOk h.engine).busy.trans (h.idle g (List.mem_of_getElem? h.engine))

/-- Waiting for an engine that is idle. -/
theorem State.AtStmts.endsWith_waitIdle (h : t.AtStmts p e g (pseudoWaitIdle p e :: rest) b log)
    (hnext : ∀ u : State, u.AtStmts p e g rest b log → u.mem = t.mem → u.EndsWith l) : t.EndsWith l := by
  have hmet : State.regValue { t with program := rest } g .status &&& 0x00000001#32 = 0x00000000#32 := by
    rw [State.regValue_of_released _ .status h.released]
    refine BitVec.eq_of_getLsbD_eq fun i hi => ?_
    have hone : (0x00000001#32).getLsbD i = decide (i = 0) := by interval_cases i <;> rfl
    rw [BitVec.getLsbD_and, hone, Engine.readReg, Status.getLsbD_word]
    by_cases hzero : i = 0 <;> simp [hzero, h.not_busy]
  have hst : State.runStmt { t with program := rest } (pseudoWaitIdle p e) =
      .next (State.drawn { t with program := rest }) := by
    have hwait := State.runStmt_wait_reg (s := { t with program := rest }) .status 0x00000001#32 0x00000000#32
      h.inv.params h.lt h.engine
    rw [if_pos hmet] at hwait
    rw [pseudoWaitIdle, ← h.params]
    exact hwait
  have hquiet := h.quiet hst rfl rfl rfl rfl h.kdfB h.log
  exact (hnext _ hquiet rfl).of_step (h.step hst)

/-- Checking the `STATUS` of a command that completed (R230). -/
theorem State.AtStmts.endsWith_check (h : t.AtStmts p e g (.checkStatus (p.reg e .status) :: rest) b log)
    (hdone : g.status.done = true) (herr : g.status.err = false)
    (hnext : ∀ u : State, u.AtStmts p e g rest b log → u.mem = t.mem → u.EndsWith l) : t.EndsWith l := by
  have hst : State.runStmt { t with program := rest } (.checkStatus (p.reg e .status)) =
      .next (State.drawn { t with program := rest }) := by
    have hcheck := State.runStmt_checkStatus (s := { t with program := rest }) h.inv.params h.lt h.engine h.released
    have hnone : statusError g.status.word = none := by simp [statusError_word, hdone, herr]
    rw [hnone] at hcheck
    rw [← h.params]
    exact hcheck
  have hquiet := h.quiet hst rfl rfl rfl rfl h.kdfB h.log
  exact (hnext _ hquiet rfl).of_step (h.step hst)

/-- Reading a mixed SuperBlock back into the working array (R228). -/
theorem State.AtStmts.endsWith_take {k a len : Nat} (h : t.AtStmts p e g (.takeBlock k a len :: rest) b log)
    (hin : a + len ≤ 2 ^ 32)
    (hnext : ∀ u : State, u.AtStmts p e g rest (setSuperBlock b k len (t.mem.readBytes a len)) log → u.EndsWith l) :
    t.EndsWith l := by
  have hst : State.runStmt { t with program := rest } (.takeBlock k a len) =
      .next { t with
        program := rest, freeCount := t.freeCount + len
        kdfB := setSuperBlock b k len (t.mem.readBytes a len) } := by
    have hread : State.hostRead { t with program := rest } a len = t.mem.readBytes a len :=
      State.hostRead_of_idle (s := { t with program := rest }) h.idle a len
    rw [State.runStmt, State.loadAt_of_le hin, ← hread, ← h.kdfB]
  have hquiet := h.quiet hst rfl rfl rfl rfl rfl h.log
  exact (hnext _ hquiet).of_step (h.step hst)

/-- Erasing a table (R234). -/
theorem State.AtStmts.endsWith_erase {k a n : Nat} {ref : RegRef}
    (h : t.AtStmts p e g (.eraseTable k ref a n :: rest) b log)
    (hnext : ∀ u : State, u.AtStmts p e g rest b log → u.EndsWith l) : t.EndsWith l := by
  have hst : State.runStmt { t with program := rest } (.eraseTable k ref a n) =
      .next (State.eraseTable { t with program := rest } a n) := rfl
  have hsame : ∃ m, State.eraseTable { t with program := rest } a n = { t with program := rest, mem := m } := by
    rcases State.eraseTable_cases { t with program := rest } a n with ⟨-, heq⟩ | ⟨-, heq⟩
    · refine ⟨t.mem.writeBytes a (List.replicate n 0#8), heq.trans ?_⟩
      rw [State.hostWrite, taintIf_of_idle (s := t) h.idle]
    · exact ⟨t.mem, heq⟩
  obtain ⟨m, heq⟩ := hsame
  rw [heq] at hst
  have hquiet := h.quiet hst rfl rfl rfl rfl h.kdfB h.log
  exact (hnext _ hquiet).of_step (h.step hst)

/-- With no statement left and no command running the run is over (R124). -/
theorem State.AtStmts.endsWith_nil (h : t.AtStmts p e g [] b log) : t.EndsWith log := by
  refine ⟨0, t, rfl, ?_, h.log⟩
  rw [State.final, h.program, List.isEmpty_nil, Bool.true_and, List.all_eq_true]
  exact fun o ho => by simp [h.idle o ho]

/-- The finalization, with nothing after it (R228). -/
theorem State.AtStmts.endsWith_finish {pw : Bytes} {dkLen : Nat}
    (h : t.AtStmts p e g [.finishScrypt pw dkLen] b log) :
    t.EndsWith (resultOf (scryptFinal Config.hmac pw b dkLen) :: log) := by
  have hst : State.runStmt { t with program := [] } (.finishScrypt pw dkLen) =
      .next (State.result { t with program := [] } (resultOf (scryptFinal Config.hmac pw b dkLen))) := by
    rw [State.runStmt, h.kdfB]
  have hquiet := h.quiet hst rfl rfl rfl rfl h.kdfB (congrArg (_ :: ·) h.log)
  exact (hquiet.endsWith_nil).of_step (h.step hst)

theorem State.noConflict_of_idle (hidle : ∀ o ∈ t.engines, o.running = false) (k : Latched) :
    t.noConflict k = true :=
  State.noConflict_iff.2 (List.any_eq_false.2 fun o ho => by simp [hidle o ho])

/-- Submitting a valid command, which then has the turns, as no other engine runs, until it completes. -/
theorem State.AtStmts.endsWith_cmd {i : Instr} (h : t.AtStmts p e g (.wr (p.reg e .cmd) (encode i) :: rest) b log)
    (hv : validate p.rMax (encode i) (g.latch (encode i)) = none)
    (hnext : ∀ (u : State) (k : Engine), u.AtStmts p e k rest b log → k.status.done = true → k.status.err = false →
      u.mem.readBytes (g.latch (encode i)).dst.toNat (g.latch (encode i)).unitLen =
        (g.latch (encode i)).result
          (t.mem.readBytes (g.latch (encode i)).src.toNat (g.latch (encode i)).unitLen) → u.EndsWith l) :
    t.EndsWith l := by
  have hidle := h.idle g (List.mem_of_getElem? h.engine)
  have hready : g.ready = true := g.ready_iff.2 ⟨hidle, h.not_busy, h.released⟩
  set s : State := { t with program := rest, target := e } with hs
  have hinv : s.Inv := h.inv.congr rfl rfl rfl
  have hno : s.noConflict (g.latch (encode i)) = true := State.noConflict_of_idle h.idle _
  have hv' : validate s.params.rMax (encode i) (g.latch (encode i)) = none := h.params ▸ hv
  have hst : State.runStmt { t with program := rest } (.wr (p.reg e .cmd) (encode i)) = .next (s.started g i) := by
    rw [State.runStmt, ← h.params, State.access_reg (s := { t with program := rest }) .cmd h.inv.params h.lt,
      State.regWrite_cmd, ← exec_submit]
    exact exec_started (s := s) h.engine hready hv' hno
  have hturns : (s.started g i).GivesTurns s.target (g.latch (encode i)).turns := by
    refine .inr ⟨h.schedule, fun f o hf ho => h.idle o ?_⟩
    rw [State.started, State.setEngine_engines, List.getElem?_set_ne hf.symm] at ho
    exact List.mem_of_getElem? ho
  obtain ⟨u, k, hrun, hexec, hsched⟩ := run_started hinv h.engine hready hv' hno rfl hturns
  have huinv : u.Inv := (stepKeepsTheInvariant t _ h.inv (h.step hst)).run hrun
  obtain ⟨hparams, hprog, hlog, hkdf⟩ := hexec.host
  have hkidle : k.running = false := k.running_eq_false_iff.2 hexec.phase
  have hat : u.AtStmts p e k rest b log := by
    refine ⟨huinv, hparams.trans h.params, ?_, fun o ho => ?_, ?_, hexec.inReset.trans h.released, hprog,
      hkdf.trans h.kdfB, hlog.trans h.log⟩
    · rw [hsched, show (s.started g i).schedule = [] from h.schedule, List.drop_nil]
    · rw [hexec.engines] at ho
      rcases List.mem_or_eq_of_mem_set ho with ho | rfl
      · exact h.idle o ho
      · exact hkidle
    · rw [hexec.engines]
      exact State.setEngine_getElem?_self (s := s) h.engine k
  exact ((hnext u k hat (by rw [hexec.status]) (by rw [hexec.status]) hexec.dst).of_run hrun).of_step (h.step hst)

end stmts

/-! ### The mixing of one SuperBlock -/

theorem superBlock_length {b : Bytes} {len : Nat} (h : b.length = len) : (superBlock b 0 len).length = len := by
  simp [superBlock, h]

/-- The engine after the parameter writes of `ROMIX src, dst, v, r, n` (R98). -/
def Engine.withOperands (g : Engine) (slot : Slot) (r n : Word) : Engine :=
  ((((g.writeReg slot.src .srcAddr).writeReg slot.dst .dstAddr).writeReg slot.v .vAddr).writeReg r .rParam).writeReg n
    .nParam

/-- What a `ROMIX` with those operands latches. -/
def Slot.latched (slot : Slot) (r n : Word) : Latched :=
  { op := 0x3#4, src := slot.src, dst := slot.dst, v := slot.v, r := r, n := n }

theorem Engine.withOperands_latch (g : Engine) (slot : Slot) (r n : Word) :
    (g.withOperands slot r n).latch (encode .romix) = Slot.latched slot r n := rfl

section mixing
variable {t : State} {p : Params} {e : Nat} {g : Engine} {rest : List HostStmt} {b : Bytes} {log l : List HostResult}
  {slot : Slot} {r n : Word}

/-- The parameter writes, one after another. -/
theorem State.AtStmts.endsWith_operands
    (h : t.AtStmts p e g (romixOperands p e slot.src slot.dst slot.v r n ++ rest) b log)
    (hnext : ∀ u : State, u.AtStmts p e (g.withOperands slot r n) rest b log → u.mem = t.mem → u.EndsWith l) :
    t.EndsWith l := by
  refine h.endsWith_wr (by decide) fun t₁ h₁ m₁ => h₁.endsWith_wr (by decide) fun t₂ h₂ m₂ => ?_
  refine h₂.endsWith_wr (by decide) fun t₃ h₃ m₃ => h₃.endsWith_wr (by decide) fun t₄ h₄ m₄ => ?_
  exact h₄.endsWith_wr (by decide) fun t₅ h₅ m₅ => hnext t₅ h₅ (by rw [m₅, m₄, m₃, m₂, m₁])

/-- The erasing of the table, if the host does that. -/
theorem State.AtStmts.endsWith_erase_if {c : Bool} {k a len : Nat} {ref : RegRef}
    (h : t.AtStmts p e g ((if c then [.eraseTable k ref a len] else []) ++ rest) b log)
    (hnext : ∀ u : State, u.AtStmts p e g rest b log → u.EndsWith l) : t.EndsWith l := by
  cases c with
  | false => exact hnext t h
  | true => exact h.endsWith_erase hnext

/-- SuperBlock 0 placed and started, waited for and read back: the working array is mixed by `ROMIX_F` (R228, R229). -/
theorem State.AtStmts.endsWith_mixing {m : ScryptNums} {c : Bool}
    (h : t.AtStmts p slot.engine g (slotIssue p m 0 slot ++ (slotAwait p m c 0 slot ++ rest)) b log)
    (hlen : b.length = 128 * m.r) (hr : (BitVec.ofNat 32 m.r).toNat = m.r) (hn : (BitVec.ofNat 32 m.N).toNat = m.N)
    (hsrcIn : slot.src.toNat + 128 * m.r ≤ 2 ^ 32) (hdstIn : slot.dst.toNat + 128 * m.r ≤ 2 ^ 32)
    (hv : validate p.rMax (encode .romix) (Slot.latched slot (BitVec.ofNat 32 m.r) (BitVec.ofNat 32 m.N)) = none)
    (hnext : ∀ (u : State) (k : Engine),
      u.AtStmts p slot.engine k rest (scryptMix m.r m.N 0 1 b) log → u.EndsWith l) : t.EndsWith l := by
  have hunit : (Slot.latched slot (BitVec.ofNat 32 m.r) (BitVec.ofNat 32 m.N)).unitLen = 128 * m.r :=
    congrArg (128 * ·) hr
  have hresult (x : Bytes) :
      (Slot.latched slot (BitVec.ofNat 32 m.r) (BitVec.ofNat 32 m.N)).result x = (romixF x m.r m.N).1 := by
    have hromix : (Slot.latched slot (BitVec.ofNat 32 m.r) (BitVec.ofNat 32 m.N)).result x =
      (romixF x (BitVec.ofNat 32 m.r).toNat (BitVec.ofNat 32 m.N).toNat).1 := rfl
    rw [hromix, hr, hn]
  refine h.endsWith_place (superBlock_length hlen) hsrcIn fun t₁ h₁ m₁ => ?_
  refine State.AtStmts.endsWith_operands (by simpa using h₁) fun t₂ h₂ m₂ => ?_
  refine State.AtStmts.endsWith_waitIdle h₂ fun t₃ h₃ m₃ => ?_
  refine h₃.endsWith_cmd hv fun t₄ k h₄ hdone herr m₄ => ?_
  rw [g.withOperands_latch, hunit, hresult, m₃, m₂] at m₄
  refine State.AtStmts.endsWith_waitIdle h₄ fun t₅ h₅ m₅ => ?_
  refine h₅.endsWith_check hdone herr fun t₆ h₆ m₆ => ?_
  refine State.AtStmts.endsWith_take h₆ hdstIn fun t₇ h₇ => ?_
  refine State.AtStmts.endsWith_erase_if h₇ fun t₈ h₈ => hnext t₈ k ?_
  rw [m₆, m₅] at h₈
  have hdst : t₄.mem.readBytes slot.dst.toNat (128 * m.r) = (romixF (superBlock b 0 (128 * m.r)) m.r m.N).1 :=
    m₄.trans (congrArg (fun x => (romixF x m.r m.N).1) m₁)
  rw [hdst] at h₈
  exact h₈

end mixing

/-! ### The start of the derivation -/

/-- With one SuperBlock the plan of R229 is to start it and to collect it. -/
theorem scryptReq_problem_none {p : Params} {q : ScryptReq} {slot : Slot} (hp : q.p = .int 1)
    (hslots : q.slots = [slot]) (hplan : q.plan = [.start 0, .collect 0]) (he : slot.engine < p.numEngines) :
    q.problem p = none := by
  have hok : planOk [slot] [] [] [.start 0, .collect 0] = true := rfl
  simp [ScryptReq.problem, hp, hslots, hplan, hok, he]

theorem State.startScrypt_of_ok {s : State} {hmac : Hmac} {q : ScryptReq} {m : ScryptNums} {b : Bytes}
    (hm : scryptNums s.params.rMax q = some m) (hq : q.problem s.params = none) (hb : scryptExpand hmac q m = .ok b) :
    s.startScrypt hmac q = .next { s with
      kdfB := b
      program := mixingStmts s.params m q ++ .finishScrypt q.password m.dkLen :: s.program } := by
  rw [State.startScrypt, hm]
  simp only [hq, hb]

theorem State.startScrypt_of_error {s : State} {hmac : Hmac} {q : ScryptReq} {m : ScryptNums} {err : HostError}
    (hm : scryptNums s.params.rMax q = some m) (hq : q.problem s.params = none)
    (hb : scryptExpand hmac q m = .error err) : s.startScrypt hmac q = .next (s.result (.failed err)) := by
  rw [State.startScrypt, hm]
  simp only [hq, hb]

theorem mixingStmts_one {p : Params} {m : ScryptNums} {q : ScryptReq} {slot : Slot} (hslots : q.slots = [slot])
    (hplan : q.plan = [.start 0, .collect 0]) :
    mixingStmts p m q = slotIssue p m 0 slot ++ slotAwait p m q.eraseV 0 slot := by
  simp [mixingStmts, hplan, moveStmts, hslots]

/-- Settles O60: the host's statements one by one, the engine's run between them as in O25; a failed expansion ends the
derivation at once. -/
theorem scryptRunsOnTheEngine : Obligations.ScryptRunsOnTheEngine := by
  rintro s g q m slot L hinv hprog hsched hidle hm hone hslots hplan rfl hg hreset hsrc hdst hv4 hsrcIn hdstIn hvIn
    hapart hvSrc hvDst
  obtain ⟨-, -, hp, -, hpow, htwo, hlt, hmax, hr1, -, hrMax, hpr, -, -⟩ := (scryptChecksItsArguments.1 _ _ _).1 hm
  have hr : (BitVec.ofNat 32 m.r).toNat = m.r := by
    rw [BitVec.toNat_ofNat]
    rw [hone] at hpr
    omega
  have hn : (BitVec.ofNat 32 m.N).toNat = m.N := by
    rw [BitVec.toNat_ofNat]
    omega
  have hv : validate s.params.rMax (encode .romix)
      (Slot.latched slot (BitVec.ofNat 32 m.r) (BitVec.ofNat 32 m.N)) = none := by
    have hunit : (Slot.latched slot (BitVec.ofNat 32 m.r) (BitVec.ofNat 32 m.N)).unitLen = 128 * m.r :=
      congrArg (128 * ·) hr
    have hpow' : (BitVec.ofNat 32 m.N).toNat.isPowerOfTwo := hn.symm ▸ hpow
    have hlt' : m.N < 2 ^ (16 * (BitVec.ofNat 32 m.r).toNat) := hr.symm ▸ hlt
    refine validate_command rfl ?_ ?_ ?_ ?_ ?_
    · exact fun _ => hr.symm ▸ ⟨hr1, hrMax⟩
    · exact fun _ => ⟨(isPow2_iff_isPowerOfTwo _).2 hpow', hn.symm ▸ ⟨htwo, hlt'⟩⟩
    · exact ⟨hsrc, hdst, fun _ => hv4⟩
    · rw [hunit]
      exact ⟨hsrcIn, hdstIn, fun _ => hn.symm ▸ hvIn⟩
    · rw [hunit]
      exact ⟨hapart, fun _ => hn.symm ▸ ⟨hvSrc, hvDst⟩⟩
  have hat : s.AtStmts s.params slot.engine g [.deriveKeyScrypt q] s.kdfB s.log :=
    ⟨hinv, rfl, hsched, hidle, hg, hreset, hprog, rfl, rfl⟩
  have hq := scryptReq_problem_none (p := s.params) (by rw [hp, hone]; rfl) hslots hplan hat.lt
  cases hb : scryptExpand Config.hmac q m with
  | error err =>
    have hst := State.startScrypt_of_error (s := { s with program := [] }) hm hq hb
    have hscrypt : scrypt Config.hmac s.params.rMax q = .error err := by simp only [scrypt, hm, hb]
    rw [hscrypt]
    exact (hat.quiet hst rfl rfl rfl rfl rfl rfl).endsWith_nil.of_step (hat.step hst)
  | ok b =>
    have hst := State.startScrypt_of_ok (s := { s with program := [] }) hm hq hb
    have hlen : b.length = 128 * m.r := by
      have := pbkdf2_length (by rw [hone]; omega) hb
      rw [this, hone, Nat.one_mul]
    have hscrypt : scrypt Config.hmac s.params.rMax q =
        scryptFinal Config.hmac q.password (scryptMix m.r m.N 0 1 b) m.dkLen := by
      simp only [scrypt, hm, hb, hone]
    rw [hscrypt]
    refine State.EndsWith.of_step ?_ (hat.step hst)
    refine State.AtStmts.endsWith_mixing (p := s.params) (g := g) (slot := slot) (c := q.eraseV) (b := b) (log := s.log)
      (rest := [.finishScrypt q.password m.dkLen]) ?_ hlen hr hn hsrcIn hdstIn hv fun u k hu => hu.endsWith_finish
    refine ⟨stepKeepsTheInvariant s _ hinv (hat.step hst), rfl, hsched, hidle, hg, hreset, ?_, rfl, rfl⟩
    simp only [mixingStmts_one hslots hplan, List.append_assoc]

end Sys2Proof.Machine
end
